-- ==== Sys2Proof/Word.lean ====
section
/-! DEFINITION. The word types of the PUNPCKH machine (00_scope R10, R11; 10_state R25, R26, R29). -/

namespace Sys2Proof

/-- A memory byte or an instruction byte. -/
abbrev Byte := BitVec 8

/-- A quadword: an MMX register, a general register, an address. -/
abbrev Quad := BitVec 64

/-- A double quadword: an XMM register. -/
abbrev Xword := BitVec 128

/-- A 256-bit value: a YMM register (`VLMAX` = 256, R7). -/
abbrev Yword := BitVec 256

/-- R12: `zeros(n)`, the n-bit vector of zeros. -/
abbrev zeros (n : Nat) : BitVec n := 0#n

end Sys2Proof
end

