-- ==== Sys2Proof/Config.lean ====
section
/-! DEFINITION. The parameters the spec leaves to the processor or to the launch (00_scope R5 to R9;
70_reset_and_hazards R191), as plain data that State holds: they are fixed for a run, and a claim may fix
them or quantify over them. -/

namespace Sys2Proof.Config

/-- R5: the operating mode. `m64` is 64-bit mode, `m32` protected or compatibility mode with a 32-bit code
segment. `real` is the mode R41 gives after reset; it is outside the admitted modes (R4c), and what the model
does in it is R167 with log 3 (PRESUMED). -/
inductive Mode where
  | m64
  | m32
  | real
  deriving DecidableEq, Repr

/-- R54: whether a 128-bit memory operand is fetched whole or as its bytes 8 to 15. -/
inductive NarrowFetch where
  | full
  | high8
  deriving DecidableEq, Repr

/-- R63: how many bits of a 64-bit linear address are significant. -/
inductive LinAddrBits where
  | la48
  | la57
  deriving DecidableEq, Repr

/-- R64: the access types `Translate` distinguishes. -/
inductive Access where
  | read
  | fetch
  deriving DecidableEq, Repr

/-- R64: what `Translate` answers for a page: a physical page number, or a page fault. R64 gives bits 0 (P), 1, 2
and 4 of its error code; bit 0 and the bits R64 leaves open, 3 and 31:5, are those of `cause`, which the launch
supplies (DESIGN CHOICE, log 7). -/
inductive PageResult where
  | frame (number : Nat)
  | fault (cause : BitVec 32)
  deriving DecidableEq, Repr

/-- One row of the open parameter `Translate` (R64, log 7): for accesses of one type, made at CPL 3 (`user`)
or below it, to one 4-KByte linear page. -/
structure PageRow where
  page : Nat
  access : Access
  user : Bool
  result : PageResult
  deriving DecidableEq, Repr

/-- R64: the open parameter `Translate`: the default instance (identity), or a table in which a page without
a row is not present. -/
inductive Paging where
  | identity
  | table (rows : List PageRow)
  deriving DecidableEq, Repr

/-- A region of linear addresses `base`, ..., `base + size - 1`. -/
structure Region where
  base : Nat
  size : Nat
  deriving DecidableEq, Repr

/-- The parameters of R9, with the mode (R5), the feature flags (R6) and the readable set (R67). -/
structure Params where
  mode : Mode
  hasMMX : Bool
  hasSSE2 : Bool
  hasAVX : Bool
  hasAVX2 : Bool
  narrowFetch : NarrowFetch
  linAddrBits : LinAddrBits
  /-- R36: whether the x87 side effects of an MMX form are state. -/
  modelX87 : Bool
  /-- R191: where a run ends. -/
  endAddr : Quad
  paging : Paging
  /-- R175: whether a page fault on a fetch sets bit 4 (I/D) of its code. -/
  executeDisable : Bool
  /-- R67: the readable linear addresses. -/
  readable : List Region
  deriving DecidableEq, Repr

end Sys2Proof.Config
end

