-- ==== Sys2Proof/Syntax.lean ====
section
/-! DEFINITION. The fifteen instructions (30_encoding R105), one constructor per row of
spec/opcode_table.json, and their operands. A register number is the bit vector the encoding assembles (R87);
everything else of an encoding is turned into constructors here, so the machine sees no raw encoding. -/

namespace Sys2Proof

/-- An MMX register number: always the 3-bit field (R87). -/
abbrev MmReg := BitVec 3

/-- An XMM or YMM register number (R87). -/
abbrev XmmReg := BitVec 4

/-- A general register number, in the order of R29. -/
abbrev Gpr := BitVec 4

/-- R35: the segment registers. -/
inductive SegReg where
  | es | cs | ss | ds | fs | gs
  deriving DecidableEq, Repr

/-- R93: the address size. -/
inductive AddrSize where
  | a16 | a32 | a64
  deriving DecidableEq, Repr

/-- R90 to R92: what stands in the base position of an address form. -/
inductive Base where
  | absent
  | gpr (r : Gpr)
  /-- RIP-relative: the address of the next instruction. -/
  | rip
  deriving DecidableEq, Repr

/-- R88: an index register, multiplied by 2^scale. -/
structure Index where
  reg : Gpr
  scale : BitVec 2
  deriving DecidableEq, Repr

/-- R89: the displacement as the encoding holds it; an absent one counts as 0. -/
inductive Disp where
  | absent
  | d8 (v : BitVec 8)
  | d16 (v : BitVec 16)
  | d32 (v : BitVec 32)
  deriving DecidableEq, Repr

/-- A memory operand: `[base + index*scale + disp]` in a segment, under an address size (R90 to R94). -/
structure Mem where
  seg : SegReg
  asize : AddrSize
  base : Base
  index : Option Index
  disp : Disp
  deriving DecidableEq, Repr

/-- The last operand (R102, R103): a register, or a memory operand. -/
inductive Src (ρ : Type) where
  | reg (r : ρ)
  | mem (m : Mem)
  deriving DecidableEq, Repr

/-- The family's instructions. `d` is operand 1 (ModRM:reg), `a` the first source of a VEX form (VEX.vvvv),
`src` the last operand (ModRM:r/m), `len` the number of bytes of the whole encoding (R31). -/
inductive Instr where
  /-- Row 1, R135: PUNPCKHBW mm, mm/m64. -/
  | punpckhbwMm (d : MmReg) (src : Src MmReg) (len : Nat)
  /-- Row 2, R138: PUNPCKHBW xmm1, xmm2/m128. -/
  | punpckhbwXmm (d : XmmReg) (src : Src XmmReg) (len : Nat)
  /-- Row 3, R136: PUNPCKHWD mm, mm/m64. -/
  | punpckhwdMm (d : MmReg) (src : Src MmReg) (len : Nat)
  /-- Row 4, R139: PUNPCKHWD xmm1, xmm2/m128. -/
  | punpckhwdXmm (d : XmmReg) (src : Src XmmReg) (len : Nat)
  /-- Row 5, R137: PUNPCKHDQ mm, mm/m64. -/
  | punpckhdqMm (d : MmReg) (src : Src MmReg) (len : Nat)
  /-- Row 6, R140: PUNPCKHDQ xmm1, xmm2/m128. -/
  | punpckhdqXmm (d : XmmReg) (src : Src XmmReg) (len : Nat)
  /-- Row 7, R141: PUNPCKHQDQ xmm1, xmm2/m128. -/
  | punpckhqdqXmm (d : XmmReg) (src : Src XmmReg) (len : Nat)
  /-- Row 8, R142: VPUNPCKHBW xmm1, xmm2, xmm3/m128. -/
  | vpunpckhbwXmm (d a : XmmReg) (src : Src XmmReg) (len : Nat)
  /-- Row 9, R143: VPUNPCKHWD xmm1, xmm2, xmm3/m128. -/
  | vpunpckhwdXmm (d a : XmmReg) (src : Src XmmReg) (len : Nat)
  /-- Row 10, R144: VPUNPCKHDQ xmm1, xmm2, xmm3/m128. -/
  | vpunpckhdqXmm (d a : XmmReg) (src : Src XmmReg) (len : Nat)
  /-- Row 11, R145: VPUNPCKHQDQ xmm1, xmm2, xmm3/m128. -/
  | vpunpckhqdqXmm (d a : XmmReg) (src : Src XmmReg) (len : Nat)
  /-- Row 12, R146: VPUNPCKHBW ymm1, ymm2, ymm3/m256. -/
  | vpunpckhbwYmm (d a : XmmReg) (src : Src XmmReg) (len : Nat)
  /-- Row 13, R147: VPUNPCKHWD ymm1, ymm2, ymm3/m256. -/
  | vpunpckhwdYmm (d a : XmmReg) (src : Src XmmReg) (len : Nat)
  /-- Row 14, R148: VPUNPCKHDQ ymm1, ymm2, ymm3/m256. -/
  | vpunpckhdqYmm (d a : XmmReg) (src : Src XmmReg) (len : Nat)
  /-- Row 15, R149: VPUNPCKHQDQ ymm1, ymm2, ymm3/m256. -/
  | vpunpckhqdqYmm (d a : XmmReg) (src : Src XmmReg) (len : Nat)
  deriving DecidableEq, Repr

/-- The four kinds of encoding (R75, R76, R101). -/
inductive Kind where
  | mmx | sse | vex128 | vex256
  deriving DecidableEq, Repr

/-- The element width the opcode byte selects (R105): 68H, 69H, 6AH, 6DH. -/
inductive Elem where
  | bw | wd | dq | qdq
  deriving DecidableEq, Repr

/-- What an encoding of the family says, the same for all fifteen rows: register numbers have four bits here
(an MMX number has its high bit 0), and `vvvv` is 0 in the legacy forms, which have no such field. -/
structure Fields where
  kind : Kind
  elem : Elem
  reg : BitVec 4
  vvvv : BitVec 4
  src : Src (BitVec 4)
  len : Nat
  deriving DecidableEq, Repr

/-- An MMX source with its number written in four bits. -/
def wideSrc : Src MmReg → Src (BitVec 4)
  | .reg r => .reg (r.setWidth 4)
  | .mem m => .mem m

/-- The encoding fields of an instruction. -/
def fieldsOf : Instr → Fields
  | .punpckhbwMm d src len => ⟨.mmx, .bw, d.setWidth 4, 0, wideSrc src, len⟩
  | .punpckhbwXmm d src len => ⟨.sse, .bw, d, 0, src, len⟩
  | .punpckhwdMm d src len => ⟨.mmx, .wd, d.setWidth 4, 0, wideSrc src, len⟩
  | .punpckhwdXmm d src len => ⟨.sse, .wd, d, 0, src, len⟩
  | .punpckhdqMm d src len => ⟨.mmx, .dq, d.setWidth 4, 0, wideSrc src, len⟩
  | .punpckhdqXmm d src len => ⟨.sse, .dq, d, 0, src, len⟩
  | .punpckhqdqXmm d src len => ⟨.sse, .qdq, d, 0, src, len⟩
  | .vpunpckhbwXmm d a src len => ⟨.vex128, .bw, d, a, src, len⟩
  | .vpunpckhwdXmm d a src len => ⟨.vex128, .wd, d, a, src, len⟩
  | .vpunpckhdqXmm d a src len => ⟨.vex128, .dq, d, a, src, len⟩
  | .vpunpckhqdqXmm d a src len => ⟨.vex128, .qdq, d, a, src, len⟩
  | .vpunpckhbwYmm d a src len => ⟨.vex256, .bw, d, a, src, len⟩
  | .vpunpckhwdYmm d a src len => ⟨.vex256, .wd, d, a, src, len⟩
  | .vpunpckhdqYmm d a src len => ⟨.vex256, .dq, d, a, src, len⟩
  | .vpunpckhqdqYmm d a src len => ⟨.vex256, .qdq, d, a, src, len⟩

end Sys2Proof
end

