-- ==== Sys2Proof/WellFormed.lean ====
section
/-! DEFINITION. When an instruction is one that some byte sequence of a mode encodes (30_encoding R77, R83,
R87 to R94): register numbers the mode can name, an address form the mode has, and a length between the
shortest encoding of the instruction and 15 bytes. -/

namespace Sys2Proof

open Config (Mode)

/-- A register number the mode can name: 0 to 7 outside 64-bit mode (R87, R91). -/
def numberOk (m : Mode) (r : BitVec 4) : Bool :=
  decide (m = .m64) || !r.getLsbD 3

/-- R93: the address size a mode uses without a 67H prefix (real-address mode: log 3). -/
def defaultAddrSize : Mode → AddrSize
  | .m64 => .a64
  | .m32 => .a32
  | .real => .a16

/-- R93: the address size a mode uses with a 67H prefix (real-address mode: log 3). -/
def otherAddrSize : Mode → AddrSize
  | .m64 => .a32
  | .m32 => .a16
  | .real => .a32

/-- R94: the segment used when no override stands before the instruction. -/
def defaultSeg : Base → SegReg
  | .gpr r => if r = 4 ∨ r = 5 then .ss else .ds
  | .absent => .ds
  | .rip => .ds

/-- R90: the base and index pairs of 16-bit addressing, by r/m (BX is 3, BP 5, SI 6, DI 7). -/
def pairOk16 : Base → Option Index → Bool
  | .gpr b, some ⟨i, sc⟩ => decide (b = 3 ∨ b = 5) && decide (i = 6 ∨ i = 7) && decide (sc = 0)
  | .gpr b, none => decide (b = 3 ∨ b = 5 ∨ b = 6 ∨ b = 7)
  | .absent, none => true
  | .absent, some _ => false
  | .rip, _ => false

/-- R90: the displacement each 16-bit form can have: BP alone has no form without one, and the form without
a register has disp16. -/
def dispOk16 : Base → Option Index → Disp → Bool
  | .absent, _, .d16 _ => true
  | .absent, _, _ => false
  | .gpr b, none, .absent => decide (b ≠ 5)
  | _, _, .d32 _ => false
  | _, _, _ => true

/-- R91, R92: a base the mode has; RIP-relative only in 64-bit mode, and without an index. -/
def baseOk (m : Mode) : Base → Option Index → Bool
  | .absent, _ => true
  | .gpr r, _ => numberOk m r
  | .rip, ix => decide (m = .m64) && ix.isNone

/-- R91, R92: an index the mode can name; number 4 (RSP) stands for "no index". -/
def indexOk (m : Mode) : Option Index → Bool
  | none => true
  | some ix => numberOk m ix.reg && decide (ix.reg ≠ 4)

/-- R91, R92: the displacement a 32- or 64-bit form can have: disp32 where no base register stands, and not
none on a base whose low three bits are 101B (RBP, R13). -/
def dispOk : Base → Disp → Bool
  | .absent, .d32 _ => true
  | .absent, _ => false
  | .rip, .d32 _ => true
  | .rip, _ => false
  | .gpr r, .absent => decide (r.extractLsb' 0 3 ≠ 5#3)
  | .gpr _, .d16 _ => false
  | .gpr _, _ => true

/-- A memory operand some encoding of the mode names. -/
def memOk (m : Mode) (a : Mem) : Bool :=
  (decide (a.asize = defaultAddrSize m) || decide (a.asize = otherAddrSize m)) &&
  (match a.asize with
   | .a16 => pairOk16 a.base a.index && dispOk16 a.base a.index a.disp
   | _ => baseOk m a.base a.index && indexOk m a.index && dispOk a.base a.disp)

/-- The last operand's check. -/
def srcOk (m : Mode) : Src (BitVec 4) → Bool
  | .reg r => numberOk m r
  | .mem a => memOk m a

/-- R88, R91, R92: whether the address form is written with a SIB byte in the shortest encoding. -/
def needsSib (m : Mode) (a : Mem) : Bool :=
  match a.asize with
  | .a16 => false
  | _ =>
    match a.base with
    | .rip => false
    | .absent => a.index.isSome || decide (m = .m64)
    | .gpr r => a.index.isSome || decide (r.extractLsb' 0 3 = 4#3)

/-- R89: the bytes of a displacement. -/
def dispLen : Disp → Nat
  | .absent => 0
  | .d8 _ => 1
  | .d16 _ => 2
  | .d32 _ => 4

/-- The fourth bits ModRM.reg, SIB.index and ModRM.r/m (or SIB.base) need: REX.R, X, B or VEX.R, X, B. -/
structure ExtBits where
  r : Bool
  x : Bool
  b : Bool
  deriving DecidableEq, Repr

/-- R87, R91, R92: the extension bits an instruction's operands need. -/
def extBits (f : Fields) : ExtBits :=
  match f.src with
  | .reg q => ⟨f.reg.getLsbD 3, false, q.getLsbD 3⟩
  | .mem a =>
    ⟨f.reg.getLsbD 3,
     match a.index with
     | some ix => ix.reg.getLsbD 3
     | none => false,
     match a.base with
     | .gpr r => r.getLsbD 3
     | _ => false⟩

/-- The bytes before ModRM of the shortest encoding: 66H, REX, 0F and the opcode (R75), or VEX and the opcode
(R76, R96). -/
def opcodeLen (f : Fields) : Nat :=
  let e := extBits f
  match f.kind with
  | .mmx => (if e.r || e.x || e.b then 1 else 0) + 2
  | .sse => 1 + (if e.r || e.x || e.b then 1 else 0) + 2
  | _ => (if e.x || e.b then 3 else 2) + 1

/-- The segment-override and 67H bytes the shortest encoding needs, ModRM, SIB and displacement. -/
def operandLen (m : Mode) : Src (BitVec 4) → Nat
  | .reg _ => 1
  | .mem a =>
    (if a.seg = defaultSeg a.base then 0 else 1) + (if a.asize = defaultAddrSize m then 0 else 1) +
    1 + (if needsSib m a then 1 else 0) + dispLen a.disp

/-- The length of the shortest encoding of an instruction. -/
def minLen (m : Mode) (f : Fields) : Nat := opcodeLen f + operandLen m f.src

/-- R77: at least the shortest encoding, at most 15 bytes. -/
def lenOk (m : Mode) (f : Fields) : Bool := decide (minLen m f ≤ f.len) && decide (f.len ≤ 15)

/-- An instruction that some byte sequence encodes in mode `m`. -/
def wellFormed (m : Mode) (i : Instr) : Bool :=
  let f := fieldsOf i
  numberOk m f.reg && numberOk m f.vvvv && srcOk m f.src && lenOk m f

end Sys2Proof
end

