-- ==== Sys2Proof/Decode.lean ====
section
/-! DEFINITION. The decoder (30_encoding R106 and the rules it names), total on any bytes and rejecting by
name; after it the encoder, written from the same rules; and the decoder's reading of a word numbered as
spec/opcode_table.json numbers it. -/

namespace Sys2Proof

open Config (Mode)

/-- Why a byte sequence has no meaning in the model. -/
inductive Reject where
  /-- R4(a), R106: the bytes spell no instruction of the family. -/
  | notOfFamily
  /-- R80: F2H or F3H before a legacy opcode of the family. -/
  | reservedPrefix
  deriving DecidableEq, Repr

/-- What the decoder says of a byte sequence. -/
inductive DecodeResult where
  | ok (i : Instr)
  /-- An encoding that raises #UD (R107). -/
  | undefinedOpcode
  | rejected (r : Reject)
  /-- The bytes end before the instruction does. -/
  | short
  deriving DecidableEq, Repr

/-! ### Legacy prefixes and REX (R78, R82, R83, R106 steps 1 and 2) -/

/-- R78: the legacy prefix bytes. -/
inductive LegacyPrefix where
  | opsize
  | addrsize
  | seg (g : SegReg)
  | lock
  | rep
  deriving DecidableEq, Repr

/-- R78: the legacy prefix a byte is, if it is one. -/
def legacyPrefix? (b : Byte) : Option LegacyPrefix :=
  if b = 0x66 then some .opsize
  else if b = 0x67 then some .addrsize
  else if b = 0x26 then some (.seg .es)
  else if b = 0x2E then some (.seg .cs)
  else if b = 0x36 then some (.seg .ss)
  else if b = 0x3E then some (.seg .ds)
  else if b = 0x64 then some (.seg .fs)
  else if b = 0x65 then some (.seg .gs)
  else if b = 0xF0 then some .lock
  else if b = 0xF2 then some .rep
  else if b = 0xF3 then some .rep
  else none

/-- R82: a REX byte, 40H to 4FH. -/
def isRex (b : Byte) : Bool := b.extractLsb' 4 4 = 4#4

/-- The bytes before the opcode, read: `r`, `x`, `b` are those of a REX byte that stands last. -/
structure Prefixes where
  opsize : Bool := false
  addrsize : Bool := false
  seg : Option SegReg := none
  lock : Bool := false
  rep : Bool := false
  /-- A REX byte stood somewhere (R106 step 3). -/
  rexSeen : Bool := false
  r : Bool := false
  x : Bool := false
  b : Bool := false
  deriving DecidableEq, Repr

/-- R78, R83: one more legacy prefix; the last segment override wins, and a REX byte before it is ignored. -/
def addLegacy (p : Prefixes) : LegacyPrefix → Prefixes
  | .opsize => { p with opsize := true, r := false, x := false, b := false }
  | .addrsize => { p with addrsize := true, r := false, x := false, b := false }
  | .seg g => { p with seg := some g, r := false, x := false, b := false }
  | .lock => { p with lock := true, r := false, x := false, b := false }
  | .rep => { p with rep := true, r := false, x := false, b := false }

/-- R82: a REX byte `0100 W R X B`; W has no effect on any form. -/
def addRex (p : Prefixes) (w : Byte) : Prefixes :=
  { p with rexSeen := true, r := w.getLsbD 2, x := w.getLsbD 1, b := w.getLsbD 0 }

/-- R106 steps 1 and 2: the prefixes and REX bytes, and the bytes after them (two REX bytes in a row: log
12). -/
def scanPrefixes (m : Mode) : Prefixes → List Byte → Prefixes × List Byte
  | p, [] => (p, [])
  | p, w :: ws =>
    match legacyPrefix? w with
    | some k => scanPrefixes m (addLegacy p k) ws
    | none => if m = .m64 ∧ isRex w then scanPrefixes m (addRex p w) ws else (p, w :: ws)

/-- R93: the address size. -/
def addrSizeOf (m : Mode) (p : Prefixes) : AddrSize :=
  if p.addrsize then otherAddrSize m else defaultAddrSize m

/-! ### ModRM, SIB, displacement (R86 to R92) -/

/-- R87: a fourth bit before three bits of a register number. -/
def extend (hi : Bool) (lo : BitVec 3) : BitVec 4 := BitVec.cons hi lo

/-- R89: an 8-bit displacement. -/
def takeDisp8 : List Byte → Option (Disp × List Byte)
  | b0 :: rest => some (.d8 b0, rest)
  | [] => none

/-- R89: a 16-bit displacement, low byte first. -/
def takeDisp16 : List Byte → Option (Disp × List Byte)
  | b0 :: b1 :: rest => some (.d16 (b1 ++ b0), rest)
  | _ => none

/-- R89: a 32-bit displacement, low byte first. -/
def takeDisp32 : List Byte → Option (Disp × List Byte)
  | b0 :: b1 :: b2 :: b3 :: rest => some (.d32 (b3 ++ b2 ++ b1 ++ b0), rest)
  | _ => none

/-- R90 to R92: the displacement mod 00B, 01B and 10B announce, `wide` being the 16- or 32-bit one and
`always` saying that a form has it under mod 00B too. -/
def takeDisp (mod : BitVec 2) (always : Bool) (wide : List Byte → Option (Disp × List Byte))
    (ws : List Byte) : Option (Disp × List Byte) :=
  if mod = 0 then (if always then wide ws else some (.absent, ws))
  else if mod = 1 then takeDisp8 ws
  else wide ws

/-- A memory operand in the segment an override names, else in the default one (R94). -/
def mkMem (seg : Option SegReg) (asize : AddrSize) (base : Base) (index : Option Index) (disp : Disp) : Mem :=
  ⟨seg.getD (defaultSeg base), asize, base, index, disp⟩

/-- R90: base and index of a 16-bit form, by r/m (110B with mod 00B is read by `decodeMem16`). -/
def pair16 (rm : BitVec 3) : Base × Option Index :=
  if rm = 0 then (.gpr 3, some ⟨6, 0⟩)
  else if rm = 1 then (.gpr 3, some ⟨7, 0⟩)
  else if rm = 2 then (.gpr 5, some ⟨6, 0⟩)
  else if rm = 3 then (.gpr 5, some ⟨7, 0⟩)
  else if rm = 4 then (.gpr 6, none)
  else if rm = 5 then (.gpr 7, none)
  else if rm = 6 then (.gpr 5, none)
  else (.gpr 3, none)

/-- R90: a memory operand under 16-bit addressing. -/
def decodeMem16 (seg : Option SegReg) (mod : BitVec 2) (rm : BitVec 3) (ws : List Byte) :
    Option (Mem × List Byte) :=
  let noReg : Bool := decide (mod = 0 ∧ rm = 6)
  let bi := if noReg then (Base.absent, none) else pair16 rm
  match takeDisp mod noReg takeDisp16 ws with
  | some (d, rest) => some (mkMem seg .a16 bi.1 bi.2 d, rest)
  | none => none

/-- R88, R91, R92: a memory operand with a SIB byte. -/
def decodeSib (seg : Option SegReg) (asize : AddrSize) (x b : Bool) (mod : BitVec 2) :
    List Byte → Option (Mem × List Byte)
  | [] => none
  | sib :: ws =>
    let ireg := extend x (sib.extractLsb' 3 3)
    let noBase : Bool := decide (mod = 0 ∧ sib.extractLsb' 0 3 = 5#3)
    let base := if noBase then Base.absent else .gpr (extend b (sib.extractLsb' 0 3))
    let index := if ireg = 4 then none else some ⟨ireg, sib.extractLsb' 6 2⟩
    match takeDisp mod noBase takeDisp32 ws with
    | some (d, rest) => some (mkMem seg asize base index d, rest)
    | none => none

/-- R91, R92: a memory operand under 32- or 64-bit addressing. -/
def decodeMem32 (m : Mode) (seg : Option SegReg) (asize : AddrSize) (x b : Bool) (mod : BitVec 2)
    (rm : BitVec 3) (ws : List Byte) : Option (Mem × List Byte) :=
  if rm = 4 then decodeSib seg asize x b mod ws
  else
    let noBase : Bool := decide (mod = 0 ∧ rm = 5)
    let base := if noBase then (if m = .m64 then Base.rip else .absent) else .gpr (extend b rm)
    match takeDisp mod noBase takeDisp32 ws with
    | some (d, rest) => some (mkMem seg asize base none d, rest)
    | none => none

/-- R106 step 5: ModRM and what follows it: the register in ModRM:reg, and the operand of ModRM:r/m. -/
def decodeModRm (m : Mode) (p : Prefixes) (r x b : Bool) :
    List Byte → Option (BitVec 4 × Src (BitVec 4) × List Byte)
  | [] => none
  | w :: ws =>
    let mod := w.extractLsb' 6 2
    let rm := w.extractLsb' 0 3
    let reg := extend r (w.extractLsb' 3 3)
    if mod = 3 then some (reg, .reg (extend b rm), ws)
    else
      let asize := addrSizeOf m p
      let operand :=
        if asize = .a16 then decodeMem16 p.seg mod rm ws
        else decodeMem32 m p.seg asize x b mod rm ws
      match operand with
      | some (a, rest) => some (reg, .mem a, rest)
      | none => none

/-! ### Opcodes (R105) -/

/-- R105: the element width an opcode byte of the family selects. -/
def elem? (op : Byte) : Option Elem :=
  if op = 0x68 then some .bw
  else if op = 0x69 then some .wd
  else if op = 0x6A then some .dq
  else if op = 0x6D then some .qdq
  else none

/-- An operand of the MMX file: the three low bits (R87). -/
def narrowSrc : Src (BitVec 4) → Src MmReg
  | .reg q => .reg (q.setWidth 3)
  | .mem a => .mem a

/-- The instruction that fields spell; none for PUNPCKHQDQ on MMX registers, which no row has (R85). -/
def ofFields? (f : Fields) : Option Instr :=
  match f.kind, f.elem with
  | .mmx, .bw => some (.punpckhbwMm (f.reg.setWidth 3) (narrowSrc f.src) f.len)
  | .mmx, .wd => some (.punpckhwdMm (f.reg.setWidth 3) (narrowSrc f.src) f.len)
  | .mmx, .dq => some (.punpckhdqMm (f.reg.setWidth 3) (narrowSrc f.src) f.len)
  | .mmx, .qdq => none
  | .sse, .bw => some (.punpckhbwXmm f.reg f.src f.len)
  | .sse, .wd => some (.punpckhwdXmm f.reg f.src f.len)
  | .sse, .dq => some (.punpckhdqXmm f.reg f.src f.len)
  | .sse, .qdq => some (.punpckhqdqXmm f.reg f.src f.len)
  | .vex128, .bw => some (.vpunpckhbwXmm f.reg f.vvvv f.src f.len)
  | .vex128, .wd => some (.vpunpckhwdXmm f.reg f.vvvv f.src f.len)
  | .vex128, .dq => some (.vpunpckhdqXmm f.reg f.vvvv f.src f.len)
  | .vex128, .qdq => some (.vpunpckhqdqXmm f.reg f.vvvv f.src f.len)
  | .vex256, .bw => some (.vpunpckhbwYmm f.reg f.vvvv f.src f.len)
  | .vex256, .wd => some (.vpunpckhwdYmm f.reg f.vvvv f.src f.len)
  | .vex256, .dq => some (.vpunpckhdqYmm f.reg f.vvvv f.src f.len)
  | .vex256, .qdq => some (.vpunpckhqdqYmm f.reg f.vvvv f.src f.len)

/-- The decoder's answer for fields; those of no row are an undefined opcode (R85). -/
def answer (f : Fields) : DecodeResult :=
  match ofFields? f with
  | some i => .ok i
  | none => .undefinedOpcode

/-! ### The VEX prefix (R95 to R101) -/

/-- The fields of a VEX prefix, un-inverted. -/
structure Vex where
  r : Bool
  x : Bool
  b : Bool
  vvvv : BitVec 4
  l : Bool
  pp : BitVec 2
  map : BitVec 5
  deriving DecidableEq, Repr

/-- R96: the two-byte prefix `C5 w`. -/
def vex2 (w : Byte) : Vex :=
  ⟨!w.getLsbD 7, false, false, ~~~(w.extractLsb' 3 4), w.getLsbD 2, w.extractLsb' 0 2, 1⟩

/-- R95, R99: the three-byte prefix `C4 v w`; outside 64-bit mode B and the top bit of vvvv are ignored. -/
def vex3 (m : Mode) (v w : Byte) : Vex :=
  let vvvv := ~~~(w.extractLsb' 3 4)
  ⟨!v.getLsbD 7, !v.getLsbD 6, decide (m = .m64) && !v.getLsbD 5,
   if m = .m64 then vvvv else vvvv &&& 7, w.getLsbD 2, w.extractLsb' 0 2, v.extractLsb' 0 5⟩

/-- What stands after the prefixes (R99, R106 steps 3 and 4). -/
inductive Lead where
  | vex2 | vex3 | legacy | short
  deriving DecidableEq, Repr

/-- R99: C4H and C5H begin a VEX prefix in 64-bit mode, and elsewhere when bits [7:6] of the next byte are
11B. -/
def leadOf (m : Mode) : List Byte → Lead
  | [] => .short
  | w :: ws =>
    if w = 0xC4 ∨ w = 0xC5 then
      let kind := if w = 0xC4 then Lead.vex3 else .vex2
      if m = .m64 then kind
      else
        match ws with
        | [] => .short
        | v :: _ => if v.extractLsb' 6 2 = 3#2 then kind else .legacy
    else .legacy

/-- R100: the prefixes that make a VEX-encoded instruction #UD. -/
def vexForbidden (p : Prefixes) : Bool := p.opsize || p.rep || p.lock || p.rexSeen

/-- R106 steps 3 and 5, from the opcode byte on; `total` is the number of bytes there were before the first
prefix was read. -/
def decodeVex (m : Mode) (p : Prefixes) (v : Vex) (total : Nat) : List Byte → DecodeResult
  | [] => .short
  | op :: ws =>
    let other : DecodeResult := if vexForbidden p then .undefinedOpcode else .rejected .notOfFamily
    match elem? op with
    | none => other
    | some e =>
      if v.pp = 1 ∧ v.map = 1 then
        match decodeModRm m p v.r v.x v.b ws with
        | none => .short
        | some (reg, src, rest) =>
          if vexForbidden p then .undefinedOpcode
          else answer ⟨if v.l then .vex256 else .vex128, e, reg, v.vvvv, src, total - rest.length⟩
      else other

/-- R106 steps 4 and 5, from the escape byte on. -/
def decodeLegacy (m : Mode) (p : Prefixes) (total : Nat) : List Byte → DecodeResult
  | [] => .short
  | esc :: ws =>
    if esc ≠ 0x0F then .rejected .notOfFamily
    else
      match ws with
      | [] => .short
      | op :: ws' =>
        match elem? op with
        | none => .rejected .notOfFamily
        | some e =>
          match decodeModRm m p p.r p.x p.b ws' with
          | none => .short
          | some (reg, src, rest) =>
            if p.lock then .undefinedOpcode
            else if p.rep then .rejected .reservedPrefix
            else answer ⟨if p.opsize then .sse else .mmx, e, reg, 0, src, total - rest.length⟩

/-- R106 from step 3 on. -/
def decodeBody (m : Mode) (p : Prefixes) (total : Nat) (ws : List Byte) : DecodeResult :=
  match leadOf m ws with
  | .short => .short
  | .legacy => decodeLegacy m p total ws
  | .vex2 =>
    match ws with
    | _ :: w :: rest => decodeVex m p (vex2 w) total rest
    | _ => .short
  | .vex3 =>
    match ws with
    | _ :: v :: w :: rest => decodeVex m p (vex3 m v w) total rest
    | _ => .short

/-- R106: the instruction a byte sequence begins with. -/
def decode (m : Mode) (ws : List Byte) : DecodeResult :=
  let pr := scanPrefixes m {} ws
  decodeBody m pr.1 ws.length pr.2

/-! ### The encoder -/

/-- R78: the segment-override bytes. -/
def segByte : SegReg → Byte
  | .es => 0x26
  | .cs => 0x2E
  | .ss => 0x36
  | .ds => 0x3E
  | .fs => 0x64
  | .gs => 0x65

/-- R105: the opcode byte of an element width. -/
def opByte : Elem → Byte
  | .bw => 0x68
  | .wd => 0x69
  | .dq => 0x6A
  | .qdq => 0x6D

/-- R86: a ModRM byte (and, with scale, index and base, a SIB byte, R88). -/
def modRmByte (mod : BitVec 2) (reg rm : BitVec 3) : Byte := mod ++ reg ++ rm

/-- R89: the bytes of a displacement, low byte first. -/
def dispBytes : Disp → List Byte
  | .absent => []
  | .d8 v => [v]
  | .d16 v => [v.extractLsb' 0 8, v.extractLsb' 8 8]
  | .d32 v => [v.extractLsb' 0 8, v.extractLsb' 8 8, v.extractLsb' 16 8, v.extractLsb' 24 8]

/-- R90 to R92: mod, by the displacement of a form that has a base register. -/
def modOf : Disp → BitVec 2
  | .absent => 0
  | .d8 _ => 1
  | .d16 _ => 2
  | .d32 _ => 2

/-- R90: r/m of a 16-bit form. -/
def rm16 : Base → Option Index → BitVec 3
  | .gpr b, some ix =>
    if b = 3 then (if ix.reg = 6 then 0 else 1) else (if ix.reg = 6 then 2 else 3)
  | .gpr b, none => if b = 6 then 4 else if b = 7 then 5 else if b = 5 then 6 else 7
  | _, _ => 6

/-- ModRM, SIB and displacement of a memory operand. -/
def memBytes (m : Mode) (reg : BitVec 3) (a : Mem) : List Byte :=
  match a.asize with
  | .a16 =>
    let mod := match a.base with
      | .absent => 0
      | _ => modOf a.disp
    modRmByte mod reg (rm16 a.base a.index) :: dispBytes a.disp
  | _ =>
    if needsSib m a then
      let scale := match a.index with
        | some ix => ix.scale
        | none => 0
      let index := match a.index with
        | some ix => ix.reg.extractLsb' 0 3
        | none => 4
      match a.base with
      | .gpr r => modRmByte (modOf a.disp) reg 4 :: modRmByte scale index (r.extractLsb' 0 3) :: dispBytes a.disp
      | _ => modRmByte 0 reg 4 :: modRmByte scale index 5 :: dispBytes a.disp
    else
      match a.base with
      | .gpr r => modRmByte (modOf a.disp) reg (r.extractLsb' 0 3) :: dispBytes a.disp
      | _ => modRmByte 0 reg 5 :: dispBytes a.disp

/-- ModRM and what follows it. -/
def operandBytes (m : Mode) (reg : BitVec 4) : Src (BitVec 4) → List Byte
  | .reg q => [modRmByte 3 (reg.extractLsb' 0 3) (q.extractLsb' 0 3)]
  | .mem a => memBytes m (reg.extractLsb' 0 3) a

/-- R82: a REX byte with W = 0, where an extension bit needs one. -/
def rexBytes (e : ExtBits) : List Byte :=
  if e.r || e.x || e.b then [0x4#4 ++ (0#1 ++ BitVec.ofBool e.r ++ BitVec.ofBool e.x ++ BitVec.ofBool e.b)] else []

/-- R95, R96: the VEX prefix, in two bytes where it can be. -/
def vexBytes (e : ExtBits) (vvvv : BitVec 4) (l : Bool) : List Byte :=
  if e.x || e.b then
    [0xC4, BitVec.ofBool (!e.r) ++ BitVec.ofBool (!e.x) ++ BitVec.ofBool (!e.b) ++ 1#5,
     0#1 ++ ~~~vvvv ++ BitVec.ofBool l ++ 1#2]
  else [0xC5, BitVec.ofBool (!e.r) ++ ~~~vvvv ++ BitVec.ofBool l ++ 1#2]

/-- The bytes from the mandatory prefix or the VEX prefix up to the opcode byte (R75, R76). -/
def opcodeBytes (f : Fields) : List Byte :=
  match f.kind with
  | .mmx => rexBytes (extBits f) ++ [0x0F, opByte f.elem]
  | .sse => 0x66 :: (rexBytes (extBits f) ++ [0x0F, opByte f.elem])
  | .vex128 => vexBytes (extBits f) f.vvvv false ++ [opByte f.elem]
  | .vex256 => vexBytes (extBits f) f.vvvv true ++ [opByte f.elem]

/-- The segment override and the 67H prefix an operand needs. -/
def overrideBytes (m : Mode) : Src (BitVec 4) → List Byte
  | .reg _ => []
  | .mem a =>
    (if a.seg = defaultSeg a.base then [] else [segByte a.seg]) ++
    (if a.asize = defaultAddrSize m then [] else [0x67])

/-- The segment-override byte that changes nothing before an operand: that of the segment it uses anyhow. -/
def fillByte : Src (BitVec 4) → Byte
  | .reg _ => segByte .ds
  | .mem a => segByte a.seg

/-- The bytes of an instruction in mode `m`: its shortest encoding, made `len` bytes long by repeating a
segment override that changes nothing (R78: a repeated prefix acts as a single one; log 11). -/
def encode (m : Mode) (i : Instr) : List Byte :=
  let f := fieldsOf i
  List.replicate (f.len - minLen m f) (fillByte f.src) ++
    (overrideBytes m f.src ++ (opcodeBytes f ++ operandBytes m f.reg f.src))

/-! ### Words numbered as spec/opcode_table.json numbers them -/

/-- R77: the length of the longest instruction. -/
def maxLen : Nat := 15

/-- The bytes of an instruction whose first `nbits` bits are `w` (bit 0 the least significant bit of the first
byte) and whose other bits are 0, up to the longest instruction. -/
def tableBytes (nbits w : Nat) : List Byte :=
  (List.range maxLen).map fun k =>
    if 8 * k < nbits then BitVec.ofNat 8 (w >>> (8 * k)) else 0

/-- What the decoder reads from such an instruction, in 64-bit mode (the table's VEX rows are spelled with
R' = X' = B' = 0, which only 64-bit mode reads as VEX: R99). -/
def decodeTableWord (nbits w : Nat) : Option Instr :=
  match decode .m64 (tableBytes nbits w) with
  | .ok i => some i
  | _ => none

end Sys2Proof
end

