-- ==== Sys2Proof/Machine/State.lean ====
section
/-! DEFINITION. The state of the machine (10_state; INVENTORY.md '## State'), the state after reset, and the
ways a step can stop. -/

namespace Sys2Proof.Machine

open Config

/-- R35: what the model holds of a segment register, the plain data of the open parameter `SegCheck` (R62,
log 6). R35 says that the formats are not in the source: a base of 64 bits and a limit of 32 bits are the model's
choice (PRESUMED, log 17). -/
structure Segment where
  selector : BitVec 16
  base : Quad
  limit : BitVec 32
  readable : Bool
  deriving DecidableEq, Repr

/-- Everything the spec gives the machine. -/
structure State where
  /-- The parameters of the launch (R191), fixed for a run. -/
  par : Params
  /-- R30: the address of the instruction's first byte; bits 63:32 are 0 outside 64-bit mode. -/
  pc : Quad
  /-- R29: the general registers. -/
  x : Vector Quad 16
  /-- R25, R36: the MMX registers, bits [63:0] of the physical x87 registers. -/
  mm : Vector Quad 8
  /-- R36: bits [79:64] of the physical x87 registers. -/
  x87Upper : Vector (BitVec 16) 8
  /-- R26: the YMM registers; an XMM register is the low half of one. -/
  ymm : Vector Yword 16
  /-- R28, R41. -/
  mxcsr : BitVec 32
  /-- R32: EFLAGS/RFLAGS. -/
  rflags : Quad
  /-- R33: EM (bit 2), TS (bit 3), NE (bit 5), AM (bit 18). -/
  cr0 : Quad
  /-- R41; a page fault reports its address in the fault (R163). -/
  cr2 : Quad
  /-- R41. -/
  cr3 : Quad
  /-- R33: OSFXSR (bit 9), OSXSAVE (bit 18). -/
  cr4 : Quad
  /-- R33: SSE state (bit 1), AVX state (bit 2). -/
  xcr0 : Quad
  /-- R41: the x87 control word. -/
  x87Control : BitVec 16
  /-- R33, R36: the x87 status word: ES (bit 7), TOP (bits 13:11). -/
  x87Status : BitVec 16
  /-- R36: the x87 tag word. -/
  x87Tag : BitVec 16
  /-- R35: the segment registers. -/
  es : Segment
  cs : Segment
  ss : Segment
  ds : Segment
  fs : Segment
  gs : Segment
  /-- R39: physical memory, in the canonical form of `Memory.wf`. -/
  mem : List Host.Cell
  deriving DecidableEq, Repr

/-- The exceptions of R151. A step that raises one answers it with the state as it was (R162, R163): the run
ends there, and nothing says what a handler would do (safe). -/
inductive Fault where
  /-- #UD, invalid opcode, raised by every form (R152 to R154) and by the encodings of R107. Safe. -/
  | ud
  /-- #NM, device not available, raised by every form when CR0.TS = 1 (R155). Safe. -/
  | nm
  /-- #SS(0), raised by a memory operand through SS (R157). Safe. -/
  | ss0
  /-- #GP(0), raised by a memory operand, by a fetch and by an encoding of more than 15 bytes (R158, R175).
  Safe. -/
  | gp0
  /-- #PF(code) with CR2, raised by a memory operand and by a fetch (R159, R175). Safe. -/
  | pf (code : BitVec 32) (cr2 : Quad)
  /-- #MF, a pending x87 exception, raised by the MMX forms (R156). Safe. -/
  | mf
  /-- #AC(0), raised by a memory operand of an MMX form (R160). Safe. -/
  | ac0
  deriving DecidableEq, Repr

/-- The ways the model has no behaviour to give. All are safe: the run ends where the hardware goes on. -/
inductive Refusal where
  /-- Raised by `exec` for an instruction without a meaning; no arm uses it. Safe. -/
  | notModelled (mnemonic : String)
  /-- Raised by the fetch: the bytes spell no instruction of the family (R4(a), R106). Safe. -/
  | notOfFamily
  /-- Raised by the fetch: F2H or F3H before a legacy opcode of the family (R80). Safe. -/
  | reservedPrefix
  /-- Raised by an MMX form: an x87 exception is pending and CR0.NE = 0 (R156). Safe. -/
  | x87ErrorExternal
  /-- Raised by a data read or a fetch of an address outside the launch's readable set (R67, log 8). Safe. -/
  | unreadable
  deriving DecidableEq, Repr

/-- R41: the segment registers other than CS after reset (readable: log 6). -/
def Segment.atReset : Segment := ⟨0, 0, 0xFFFF, true⟩

/-- R41: CS after reset. -/
def Segment.csAtReset : Segment := ⟨0xF000, 0xFFFF0000, 0xFFFF, true⟩

/-- The parameters State.reset holds: the mode is R41's, the rest log 1's. -/
def Params.atReset : Params where
  mode := .real
  hasMMX := true
  hasSSE2 := true
  hasAVX := true
  hasAVX2 := true
  narrowFetch := .full
  linAddrBits := .la48
  modelX87 := true
  endAddr := 0
  paging := .identity
  executeDisable := false
  readable := [⟨0, 2 ^ 64⟩]

/-- R41: the machine after power-up or RESET (EAX and EDX: log 4; memory: log 5). -/
def State.reset : State where
  par := Params.atReset
  pc := 0x0000FFF0
  x := Vector.replicate 16 0
  mm := Vector.replicate 8 0
  x87Upper := Vector.replicate 8 0
  ymm := Vector.replicate 16 0
  mxcsr := 0x1F80
  rflags := 0x00000002
  cr0 := 0x60000010
  cr2 := 0
  cr3 := 0
  cr4 := 0
  xcr0 := 1
  x87Control := 0x0040
  x87Status := 0x0000
  x87Tag := 0x5555
  es := Segment.atReset
  cs := Segment.csAtReset
  ss := Segment.atReset
  ds := Segment.atReset
  fs := Segment.atReset
  gs := Segment.atReset
  mem := []

/-- What a computation of the machine answers: a value, a fault or a refusal. -/
abbrev Res (α : Type) := Host.Outcome α Fault Refusal

end Sys2Proof.Machine
end

