-- ==== Sys2Proof/Machine/Ops.lean ====
section
/-! DEFINITION. The named operations over registers and memory (00_scope R15), the path of an access from
effective address to bytes (20_memory R60 to R64, R72), the writes of each kind of form (10_state R40), the
faults' vectors and error codes (R151), and what the launch and INIT do (R191, R41). -/

namespace Sys2Proof.Machine

open Config

/-- Go on with the value of a computation that answered one. -/
def andThen {α β : Type} (r : Res α) (f : α → Res β) : Res β :=
  match r with
  | .next a => f a
  | .fault e => .fault e
  | .refused e => .refused e

/-! ### Bits -/

/-- The vector of the bits `f 0` (least significant) to `f (n - 1)`. -/
def ofBits : (n : Nat) → (Nat → Bool) → BitVec n
  | 0, _ => 0#0
  | n + 1, f => BitVec.cons (f n) (ofBits n f)

/-- R51: the value of bytes in address order, the first the least significant. -/
def leValue (n : Nat) (bytes : List Byte) : BitVec n :=
  ofBits n fun p => (bytes.getD (p / 8) 0).getLsbD (p % 8)

/-! ### Registers -/

/-- R29: read of a general register. -/
def readX (s : State) (r : Gpr) : Quad := s.x[r.toNat]

/-- R25: read of an MMX register. -/
def readMm (s : State) (r : MmReg) : Quad := s.mm[r.toNat]

/-- R26: read of a YMM register. -/
def readYmm (s : State) (r : XmmReg) : Yword := s.ymm[r.toNat]

/-- R26: read of an XMM register, the low half of the YMM register. -/
def readXmm (s : State) (r : XmmReg) : Xword := (readYmm s r).extractLsb' 0 128

/-- R26: write of all 256 bits of a YMM register. -/
def writeYmm (s : State) (r : XmmReg) (v : Yword) : State := { s with ymm := s.ymm.set r.toNat v }

/-- R26: an XMM write by a legacy SSE form; bits [255:128] stay. -/
def writeXmmKeep (s : State) (r : XmmReg) (v : Xword) : State :=
  writeYmm s r ((readYmm s r).extractLsb' 128 128 ++ v)

/-- R26: an XMM write by a VEX.128 form; bits [255:128] become 0. -/
def writeXmmZero (s : State) (r : XmmReg) (v : Xword) : State :=
  writeYmm s r (zeros 128 ++ v)

/-- R25: write of an MMX register. -/
def writeMm (s : State) (r : MmReg) (v : Quad) : State := { s with mm := s.mm.set r.toNat v }

/-- R36: the physical x87 data register R_i. -/
def readX87 (s : State) (r : MmReg) : BitVec 80 := s.x87Upper[r.toNat] ++ readMm s r

/-- R36: TOP, bits 13:11 of the x87 status word. -/
def x87Top (s : State) : BitVec 3 := s.x87Status.extractLsb' 11 3

/-- R36: what an MMX form that completes does to the x87 unit: TOP and the tag word become 0, the upper part of
the register written becomes all ones. -/
def x87Effects (s : State) (r : MmReg) : State :=
  if s.par.modelX87 then
    { s with
      x87Status := s.x87Status &&& 0xC7FF
      x87Tag := 0
      x87Upper := s.x87Upper.set r.toNat 0xFFFF }
  else s

/-- R35: the current privilege level; 0 in real-address mode (R41, log 3). -/
def cpl (s : State) : BitVec 2 :=
  match s.par.mode with
  | .real => 0
  | _ => s.cs.selector.extractLsb' 0 2

/-- R35: a segment register. -/
def segment (s : State) : SegReg → Segment
  | .es => s.es
  | .cs => s.cs
  | .ss => s.ss
  | .ds => s.ds
  | .fs => s.fs
  | .gs => s.gs

/-! ### Linear addresses -/

/-- The low 32 bits of an address. -/
def low32 (a : Quad) : Quad := (a.setWidth 32).setWidth 64

/-- R31, R73: `n` bytes further on: modulo 2^64 in 64-bit mode, 2^32 in 32-bit operation; in real-address mode, which
R31 does not cover, modulo 2^32 too (PRESUMED, log 3). -/
def addrAdd (s : State) (a : Quad) (n : Nat) : Quad :=
  match s.par.mode with
  | .m64 => a + BitVec.ofNat 64 n
  | _ => low32 (a + BitVec.ofNat 64 n)

/-- R31: the instruction pointer moves past an instruction of `len` bytes. -/
def advance (s : State) (len : Nat) : State := { s with pc := addrAdd s s.pc len }

/-- R63: bits [63 : LinAddrBits-1] are all equal. -/
def canonical (w : LinAddrBits) (a : Quad) : Bool :=
  match w with
  | .la48 => a.extractLsb' 47 17 = 0#17 || a.extractLsb' 47 17 = ~~~0#17
  | .la57 => a.extractLsb' 56 8 = 0#8 || a.extractLsb' 56 8 = ~~~0#8

/-- R61, R62: the base of a segment in 64-bit mode: 0 but for FS and GS. -/
def base64 (s : State) : SegReg → Quad
  | .fs => s.fs.base
  | .gs => s.gs.base
  | _ => 0

/-- R62: a failed segment check is #SS(0) through SS, #GP(0) otherwise. -/
def segFault : SegReg → Fault
  | .ss => .ss0
  | _ => .gp0

/-- R62: a null selector: index 0 in the global table. -/
def nullSelector (g : Segment) : Bool := g.selector.extractLsb' 2 14 = 0#14

/-- R62, R73: every byte of the operand lies within the segment's limit (offsets wrap modulo 2^32). -/
def withinLimit (g : Segment) (ea : Quad) (n : Nat) : Bool :=
  (List.range n).all fun k => ((ea + BitVec.ofNat 64 k).setWidth 32).ule g.limit

/-- R62: `SegCheck(seg, ea, n, read)`: the linear address of the operand's first byte, or a fault (real-address
mode: R167, log 3). -/
def segCheck (s : State) (g : SegReg) (ea : Quad) (n : Nat) : Res Quad :=
  match s.par.mode with
  | .m64 =>
    let lin := base64 s g + ea
    if (List.range n).all (fun k => canonical s.par.linAddrBits (lin + BitVec.ofNat 64 k)) then .next lin
    else .fault (segFault g)
  | .m32 =>
    if (segment s g).readable && !nullSelector (segment s g) && withinLimit (segment s g) ea n then
      .next (low32 ((segment s g).base + ea))
    else .fault (segFault g)
  | .real =>
    if ea.toNat + n ≤ 0x10000 then .next (low32 ((segment s g).base + ea)) else .fault .gp0

/-! ### Translation -/

/-- R64: the error code of a page fault: bit 1 (W/R) is 0, bit 2 (U/S) and bit 4 (I/D) as given, and bit 0 (P) per
the cause. Bits 3 and 31:5, which the spec leaves open, are the cause's too (DESIGN CHOICE, log 7). -/
def pfCode (cause : BitVec 32) (user instr : Bool) : BitVec 32 :=
  (cause &&& 0xFFFFFFE9) ||| (if user then 4 else 0) ||| (if instr then 16 else 0)

/-- R64: the row of `Translate` for an access; a page without a row is not present, and its cause is 0 (log 7). -/
def findPage (rows : List PageRow) (page : Nat) (acc : Access) (user : Bool) : PageResult :=
  match rows with
  | [] => .fault 0
  | r :: rs => if r.page = page ∧ r.access = acc ∧ r.user = user then r.result else findPage rs page acc user

/-- R64: `Translate(lin, access, CPL)`: a physical address, or #PF (in real-address mode paging is off). -/
def translate (s : State) (lin : Quad) (acc : Access) : Res Nat :=
  match s.par.mode, s.par.paging with
  | .real, _ => .next lin.toNat
  | _, .identity => .next lin.toNat
  | _, .table rows =>
    let user : Bool := decide (cpl s = 3)
    let instr : Bool := decide (acc = .fetch) && s.par.executeDisable
    match findPage rows (lin.toNat / 4096) acc user with
    | .frame n => .next (n * 4096 + lin.toNat % 4096)
    | .fault cause => .fault (.pf (pfCode cause user instr) lin)

/-- R67: whether a linear address is in the launch's readable set. -/
def readableAt (s : State) (lin : Quad) : Bool :=
  s.par.readable.any fun r => decide (r.base ≤ lin.toNat) && decide (lin.toNat < r.base + r.size)

/-! ### Memory -/

/-- What a byte of memory that is not listed reads as (log 5). -/
def unlisted : Byte := 0

/-- R39: read of one byte of physical memory. -/
def readByte (mem : List Host.Cell) (a : Nat) : Byte :=
  match mem with
  | [] => unlisted
  | c :: cs => if c.1 = a then c.2 else readByte cs a

/-- The list with a byte at an address, where an entry is kept in address order. -/
def insertByte (mem : List Host.Cell) (a : Nat) (v : Byte) : List Host.Cell :=
  match mem with
  | [] => [(a, v)]
  | c :: cs =>
    if a < c.1 then (a, v) :: c :: cs
    else if a = c.1 then (a, v) :: cs
    else c :: insertByte cs a v

/-- The list without an entry at an address. -/
def dropByte (mem : List Host.Cell) (a : Nat) : List Host.Cell :=
  match mem with
  | [] => []
  | c :: cs => if c.1 = a then cs else c :: dropByte cs a

/-- Placing one byte (a launch does it; no instruction writes memory): the value an unlisted address reads as
removes the entry. -/
def writeByte (mem : List Host.Cell) (a : Nat) (v : Byte) : List Host.Cell :=
  if v = unlisted then dropByte mem a else insertByte mem a v

/-- Addresses strictly rise, from a bound on. -/
def risingFrom (lo : Nat) : List Host.Cell → Bool
  | [] => true
  | c :: cs => decide (lo ≤ c.1) && risingFrom (c.1 + 1) cs

/-- The canonical form: addresses strictly rising, and no entry equal to what an unlisted address reads as. -/
def Memory.wf (mem : List Host.Cell) : Bool :=
  risingFrom 0 mem && mem.all fun c => decide (c.2 ≠ unlisted)

/-- R72 step 3: the physical addresses of the bytes at the offsets `ks`; the first failing byte's fault is
reported (R159, log 18). -/
def translateAll (s : State) (lin : Quad) : List Nat → Res (List Nat)
  | [] => .next []
  | k :: ks =>
    andThen (translate s (addrAdd s lin k) .read) fun p =>
      andThen (translateAll s lin ks) fun ps => .next (p :: ps)

/-- R56 to R58: the alignment check a form asks for. -/
inductive AlignRule where
  /-- R57: none. -/
  | any
  /-- R56: 16 bytes, else #GP(0). -/
  | sse16
  /-- R58, R160: 8 bytes when `on`, else #AC(0). -/
  | ac8 (on : Bool)
  deriving DecidableEq, Repr

/-- R56: the alignment #GP(0). -/
def misalignedGp (r : AlignRule) (lin : Quad) : Bool :=
  match r with
  | .sse16 => lin.extractLsb' 0 4 ≠ 0#4
  | _ => false

/-- R160: the alignment #AC(0). -/
def misalignedAc (r : AlignRule) (lin : Quad) : Bool :=
  match r with
  | .ac8 on => on && lin.extractLsb' 0 3 ≠ 0#3
  | _ => false

/-- R53 to R55: the offsets of the bytes of an `n`-byte operand that are fetched. -/
def fetchedOffsets (s : State) (n : Nat) : List Nat :=
  if n = 16 ∧ s.par.narrowFetch = .high8 then (List.range 8).map (· + 8) else List.range n

/-- R72: `MemRead(seg, ea, n)`: segment check, alignment #GP(0), translation, #AC(0) (R161, log 9), read. The
low bytes a narrow fetch leaves out count as 0 in the value; they do not reach a result (R127, log 14). -/
def memRead (s : State) (g : SegReg) (ea : Quad) (n : Nat) (rule : AlignRule) : Res (BitVec (8 * n)) :=
  andThen (segCheck s g ea n) fun lin =>
    if misalignedGp rule lin then .fault .gp0
    else
      let ks := fetchedOffsets s n
      andThen (translateAll s lin ks) fun ps =>
        if misalignedAc rule lin then .fault .ac0
        else if ks.all (fun k => readableAt s (addrAdd s lin k)) then
          .next (leValue (8 * n) (List.replicate (n - ks.length) 0 ++ ps.map (readByte s.mem)))
        else .refused .unreadable

/-! ### Exceptions -/

/-- R151: the vector of an exception. -/
def faultVector : Fault → Nat
  | .ud => 6
  | .nm => 7
  | .ss0 => 12
  | .gp0 => 13
  | .pf _ _ => 14
  | .mf => 16
  | .ac0 => 17

/-- R151: the error code of an exception that has one. -/
def faultErrorCode : Fault → Option (BitVec 32)
  | .ss0 => some 0
  | .gp0 => some 0
  | .pf code _ => some code
  | .ac0 => some 0
  | .ud => none
  | .nm => none
  | .mf => none

/-- R151, R159: the value CR2 receives. -/
def faultCr2 : Fault → Option Quad
  | .pf _ a => some a
  | _ => none

/-! ### Launch and INIT -/

/-- R191: a launch state made of a state: 64-bit mode, with the launch premises R191 names about the control
bits (log 2). -/
def launch (s : State) : State :=
  { s with
    par := { s.par with mode := .m64 }
    cr0 := s.cr0 &&& ~~~0xC
    cr4 := s.cr4 ||| 0x40200
    xcr0 := s.xcr0 ||| 6
    rflags := s.rflags &&& ~~~0x100
    x87Status := s.x87Status &&& ~~~0x80 }

/-- R41: the machine after INIT: the SIMD and x87 registers, MXCSR and XCR0 stay, and CR0.CD and CR0.NW (log
19). -/
def afterInit (s : State) : State :=
  { State.reset with
    par := { s.par with mode := .real }
    mm := s.mm
    x87Upper := s.x87Upper
    ymm := s.ymm
    mxcsr := s.mxcsr
    xcr0 := s.xcr0
    x87Control := s.x87Control
    x87Status := s.x87Status
    x87Tag := s.x87Tag
    cr0 := (s.cr0 &&& 0x60000000) ||| 0x10
    mem := s.mem }

end Sys2Proof.Machine
end

