-- ==== Sys2Proof/Machine/Interleave.lean ====
section
/-! DEFINITION. The interleave of the high elements, HI(w, N, A, B) (40_interleave R115, R125). -/

namespace Sys2Proof.Machine

/-- R11: `elem_w(v, i)`. -/
def elem {n : Nat} (w : Nat) (v : BitVec n) (i : Nat) : BitVec w := v.extractLsb' (w * i) w

/-- R125: element `k` of the result, in lanes of `lane` bits: in lane j, the even element 2i is element n + i of
the first source and the odd element 2i + 1 element n + i of the second, n being the elements of a half lane. -/
def highElem {size : Nat} (w lane : Nat) (a b : BitVec size) (k : Nat) : BitVec w :=
  let n := lane / (2 * w)
  let j := k / (2 * n)
  let r := k % (2 * n)
  elem w (if r % 2 = 0 then a else b) (j * (2 * n) + n + r / 2)

/-- R125: HI(w, N, A, B), with the lane width as an argument (64 for N = 64, else 128). -/
def interleaveHigh {size : Nat} (w lane : Nat) (a b : BitVec size) : BitVec size :=
  ofBits size fun p => (highElem w lane a b (p / w)).getLsbD (p % w)

/-- R125: the 64-bit blocks, HI(w, 64, A, B). -/
def high64 (w : Nat) (a b : Quad) : Quad := interleaveHigh w 64 a b

/-- R125: the 128-bit blocks, HI(w, 128, A, B). -/
def high128 (w : Nat) (a b : Xword) : Xword := interleaveHigh w 128 a b

/-- R125: the `_256b` blocks, HI(w, 256, A, B): two 128-bit lanes. -/
def high256 (w : Nat) (a b : Yword) : Yword := interleaveHigh w 128 a b

end Sys2Proof.Machine
end

