-- ==== Sys2Proof/Machine/Flags.lean ====
section
/-! DEFINITION. The control bits and flags the forms read (10_state R33), and the conditions under which a form
raises an exception before it looks at its operands (60_exceptions R152 to R156, R161). No form writes a flag
(R130), so no flag is computed. -/

namespace Sys2Proof.Machine

open Config

/-- CR0.EM (R33). -/
def cr0EM (s : State) : Bool := s.cr0.getLsbD 2

/-- CR0.TS (R33). -/
def cr0TS (s : State) : Bool := s.cr0.getLsbD 3

/-- CR0.NE (R33). -/
def cr0NE (s : State) : Bool := s.cr0.getLsbD 5

/-- CR0.AM (R33). -/
def cr0AM (s : State) : Bool := s.cr0.getLsbD 18

/-- CR4.OSFXSR (R33). -/
def cr4OSFXSR (s : State) : Bool := s.cr4.getLsbD 9

/-- CR4.OSXSAVE (R33). -/
def cr4OSXSAVE (s : State) : Bool := s.cr4.getLsbD 18

/-- XCR0[2:1] = 11B (R33). -/
def xcr0Avx (s : State) : Bool := s.xcr0.getLsbD 1 && s.xcr0.getLsbD 2

/-- EFLAGS.AC (R33). -/
def flagAC (s : State) : Bool := s.rflags.getLsbD 18

/-- ES of the x87 status word: an unmasked x87 exception is pending (R33, R37). -/
def x87Pending (s : State) : Bool := s.x87Status.getLsbD 7

/-- R160: alignment checking is on. -/
def alignChecking (s : State) : Bool := cr0AM s && flagAC s && decide (cpl s = 3)

/-- R154: #UD of an MMX form. -/
def udMmx (s : State) : Bool := cr0EM s || !s.par.hasMMX

/-- R152: #UD of an SSE form. -/
def udSse (s : State) : Bool := cr0EM s || !cr4OSFXSR s || !s.par.hasSSE2

/-- R153: #UD of a VEX form, `has` being its feature flag. -/
def udVex (has : Bool) (s : State) : Bool :=
  !has || !cr4OSXSAVE s || !xcr0Avx s || decide (s.par.mode = .real)

/-- R155: #NM, where no #UD condition holds. -/
def gateNm (ud : Bool) (s : State) : Res Unit :=
  if ud then .fault .ud else if cr0TS s then .fault .nm else .next ()

/-- R156: #MF, or the external reporting the model refuses. -/
def gateMf (s : State) : Res Unit :=
  if x87Pending s then (if cr0NE s then .fault .mf else .refused .x87ErrorExternal) else .next ()

/-- R131 steps 2 to 4. -/
def gateMmx (s : State) : Res Unit := andThen (gateNm (udMmx s) s) fun _ => gateMf s

/-- R132 steps 2 and 3. -/
def gateSse (s : State) : Res Unit := gateNm (udSse s) s

/-- R133 steps 2 and 3, VEX.128. -/
def gateVex128 (s : State) : Res Unit := gateNm (udVex s.par.hasAVX s) s

/-- R133 steps 2 and 3, VEX.256; without AVX2 this is the #UD of VEX.L = 1 (R101). -/
def gateVex256 (s : State) : Res Unit := gateNm (udVex s.par.hasAVX2 s) s

end Sys2Proof.Machine
end

