-- ==== Sys2Proof/Machine/Operands.lean ====
section
/-! DEFINITION. The operand forms: the effective address of a memory operand (30_encoding R90 to R92) and the
value of the last operand of each kind of form (R102, R103; 20_memory R52). -/

namespace Sys2Proof.Machine

/-- R91, R92: the value in the base position; RIP-relative uses the address of the next instruction. -/
def baseValue (s : State) (len : Nat) : Base → Quad
  | .absent => 0
  | .gpr r => readX s r
  | .rip => addrAdd s s.pc len

/-- R88: the index times the scale factor. -/
def indexValue (s : State) : Option Index → Quad
  | none => 0
  | some ix => readX s ix.reg <<< ix.scale.toNat

/-- R89: a displacement, sign-extended. -/
def dispValue : Disp → Quad
  | .absent => 0
  | .d8 v => v.signExtend 64
  | .d16 v => v.signExtend 64
  | .d32 v => v.signExtend 64

/-- R73: a sum reduced to the address size and zero-extended. -/
def truncAddr (z : AddrSize) (a : Quad) : Quad :=
  match z with
  | .a16 => (a.setWidth 16).setWidth 64
  | .a32 => low32 a
  | .a64 => a

/-- R90 to R92: the effective address; a sum of 64-bit registers reduced at the end is the sum of their low
parts modulo 2^16 or 2^32. -/
def effAddr (s : State) (len : Nat) (a : Mem) : Quad :=
  truncAddr a.asize (baseValue s len a.base + indexValue s a.index + dispValue a.disp)

/-- R131 step 5: the last operand of an MMX form. -/
def srcMm (s : State) (len : Nat) : Src MmReg → Res Quad
  | .reg r => .next (readMm s r)
  | .mem a => memRead s a.seg (effAddr s len a) 8 (.ac8 (alignChecking s))

/-- R132 step 4: the last operand of an SSE form. -/
def srcSse (s : State) (len : Nat) : Src XmmReg → Res Xword
  | .reg r => .next (readXmm s r)
  | .mem a => memRead s a.seg (effAddr s len a) 16 .sse16

/-- R133 step 4: the last operand of a VEX.128 form. -/
def srcVex128 (s : State) (len : Nat) : Src XmmReg → Res Xword
  | .reg r => .next (readXmm s r)
  | .mem a => memRead s a.seg (effAddr s len a) 16 .any

/-- R133 step 4: the last operand of a VEX.256 form. -/
def srcVex256 (s : State) (len : Nat) : Src XmmReg → Res Yword
  | .reg r => .next (readYmm s r)
  | .mem a => memRead s a.seg (effAddr s len a) 32 .any

end Sys2Proof.Machine
end

