-- ==== Sys2Proof/Machine/Mmx.lean ====
section
/-! DEFINITION. The MMX forms (41_mmx_forms R135 to R137; step template 40_interleave R131). -/

namespace Sys2Proof.Machine

/-- R131 steps 6 to 8. -/
def finishMmx (s : State) (d : MmReg) (v : Quad) (len : Nat) : State :=
  advance (x87Effects (writeMm s d v) d) len

/-- R131: the step of an MMX form with elements of `w` bits. -/
def stepMmx (w : Nat) (d : MmReg) (src : Src MmReg) (len : Nat) (s : State) : Res State :=
  andThen (gateMmx s) fun _ =>
    andThen (srcMm s len src) fun b => .next (finishMmx s d (high64 w (readMm s d) b) len)

/-- R135: PUNPCKHBW mm, mm/m64. -/
def execPunpckhbwMm (d : MmReg) (src : Src MmReg) (len : Nat) (s : State) : Res State :=
  stepMmx 8 d src len s

/-- R136: PUNPCKHWD mm, mm/m64. -/
def execPunpckhwdMm (d : MmReg) (src : Src MmReg) (len : Nat) (s : State) : Res State :=
  stepMmx 16 d src len s

/-- R137: PUNPCKHDQ mm, mm/m64. -/
def execPunpckhdqMm (d : MmReg) (src : Src MmReg) (len : Nat) (s : State) : Res State :=
  stepMmx 32 d src len s

end Sys2Proof.Machine
end

