-- ==== Sys2Proof/Machine/Sse.lean ====
section
/-! DEFINITION. The SSE forms (42_sse_forms R138 to R141; step template 40_interleave R132). -/

namespace Sys2Proof.Machine

/-- R132: the step of an SSE form with elements of `w` bits. -/
def stepSse (w : Nat) (d : XmmReg) (src : Src XmmReg) (len : Nat) (s : State) : Res State :=
  andThen (gateSse s) fun _ =>
    andThen (srcSse s len src) fun b => .next (advance (writeXmmKeep s d (high128 w (readXmm s d) b)) len)

/-- R138: PUNPCKHBW xmm1, xmm2/m128. -/
def execPunpckhbwXmm (d : XmmReg) (src : Src XmmReg) (len : Nat) (s : State) : Res State :=
  stepSse 8 d src len s

/-- R139: PUNPCKHWD xmm1, xmm2/m128. -/
def execPunpckhwdXmm (d : XmmReg) (src : Src XmmReg) (len : Nat) (s : State) : Res State :=
  stepSse 16 d src len s

/-- R140: PUNPCKHDQ xmm1, xmm2/m128. -/
def execPunpckhdqXmm (d : XmmReg) (src : Src XmmReg) (len : Nat) (s : State) : Res State :=
  stepSse 32 d src len s

/-- R141: PUNPCKHQDQ xmm1, xmm2/m128. -/
def execPunpckhqdqXmm (d : XmmReg) (src : Src XmmReg) (len : Nat) (s : State) : Res State :=
  stepSse 64 d src len s

end Sys2Proof.Machine
end

