-- ==== Sys2Proof/Machine/Vex128.lean ====
section
/-! DEFINITION. The VEX.128 forms (43_vex128_forms R142 to R145; step template 40_interleave R133, N = 128). -/

namespace Sys2Proof.Machine

/-- R133 with N = 128: the step of a VEX.128 form with elements of `w` bits. -/
def stepVex128 (w : Nat) (d a : XmmReg) (src : Src XmmReg) (len : Nat) (s : State) : Res State :=
  andThen (gateVex128 s) fun _ =>
    andThen (srcVex128 s len src) fun b => .next (advance (writeXmmZero s d (high128 w (readXmm s a) b)) len)

/-- R142: VPUNPCKHBW xmm1, xmm2, xmm3/m128. -/
def execVpunpckhbwXmm (d a : XmmReg) (src : Src XmmReg) (len : Nat) (s : State) : Res State :=
  stepVex128 8 d a src len s

/-- R143: VPUNPCKHWD xmm1, xmm2, xmm3/m128. -/
def execVpunpckhwdXmm (d a : XmmReg) (src : Src XmmReg) (len : Nat) (s : State) : Res State :=
  stepVex128 16 d a src len s

/-- R144: VPUNPCKHDQ xmm1, xmm2, xmm3/m128. -/
def execVpunpckhdqXmm (d a : XmmReg) (src : Src XmmReg) (len : Nat) (s : State) : Res State :=
  stepVex128 32 d a src len s

/-- R145: VPUNPCKHQDQ xmm1, xmm2, xmm3/m128. -/
def execVpunpckhqdqXmm (d a : XmmReg) (src : Src XmmReg) (len : Nat) (s : State) : Res State :=
  stepVex128 64 d a src len s

end Sys2Proof.Machine
end

