-- ==== Sys2Proof/Machine/Vex256.lean ====
section
/-! DEFINITION. The VEX.256 forms (44_vex256_forms R146 to R149; step template 40_interleave R133, N = 256). -/

namespace Sys2Proof.Machine

/-- R133 with N = 256: the step of a VEX.256 form with elements of `w` bits. -/
def stepVex256 (w : Nat) (d a : XmmReg) (src : Src XmmReg) (len : Nat) (s : State) : Res State :=
  andThen (gateVex256 s) fun _ =>
    andThen (srcVex256 s len src) fun b => .next (advance (writeYmm s d (high256 w (readYmm s a) b)) len)

/-- R146: VPUNPCKHBW ymm1, ymm2, ymm3/m256. -/
def execVpunpckhbwYmm (d a : XmmReg) (src : Src XmmReg) (len : Nat) (s : State) : Res State :=
  stepVex256 8 d a src len s

/-- R147: VPUNPCKHWD ymm1, ymm2, ymm3/m256. -/
def execVpunpckhwdYmm (d a : XmmReg) (src : Src XmmReg) (len : Nat) (s : State) : Res State :=
  stepVex256 16 d a src len s

/-- R148: VPUNPCKHDQ ymm1, ymm2, ymm3/m256. -/
def execVpunpckhdqYmm (d a : XmmReg) (src : Src XmmReg) (len : Nat) (s : State) : Res State :=
  stepVex256 32 d a src len s

/-- R149: VPUNPCKHQDQ ymm1, ymm2, ymm3/m256. -/
def execVpunpckhqdqYmm (d a : XmmReg) (src : Src XmmReg) (len : Nat) (s : State) : Res State :=
  stepVex256 64 d a src len s

end Sys2Proof.Machine
end

