-- ==== Sys2Proof/Machine/Dispatch.lean ====
section
/-! DEFINITION. One arm per constructor of Instr. -/

namespace Sys2Proof.Machine

/-- The effect of an instruction. -/
def exec (i : Instr) (s : State) : Host.Outcome State Fault Refusal :=
  match i with
  | .punpckhbwMm d src len => Sys2Proof.Machine.execPunpckhbwMm d src len s
  | .punpckhbwXmm d src len => Sys2Proof.Machine.execPunpckhbwXmm d src len s
  | .punpckhwdMm d src len => Sys2Proof.Machine.execPunpckhwdMm d src len s
  | .punpckhwdXmm d src len => Sys2Proof.Machine.execPunpckhwdXmm d src len s
  | .punpckhdqMm d src len => Sys2Proof.Machine.execPunpckhdqMm d src len s
  | .punpckhdqXmm d src len => Sys2Proof.Machine.execPunpckhdqXmm d src len s
  | .punpckhqdqXmm d src len => Sys2Proof.Machine.execPunpckhqdqXmm d src len s
  | .vpunpckhbwXmm d a src len => Sys2Proof.Machine.execVpunpckhbwXmm d a src len s
  | .vpunpckhwdXmm d a src len => Sys2Proof.Machine.execVpunpckhwdXmm d a src len s
  | .vpunpckhdqXmm d a src len => Sys2Proof.Machine.execVpunpckhdqXmm d a src len s
  | .vpunpckhqdqXmm d a src len => Sys2Proof.Machine.execVpunpckhqdqXmm d a src len s
  | .vpunpckhbwYmm d a src len => Sys2Proof.Machine.execVpunpckhbwYmm d a src len s
  | .vpunpckhwdYmm d a src len => Sys2Proof.Machine.execVpunpckhwdYmm d a src len s
  | .vpunpckhdqYmm d a src len => Sys2Proof.Machine.execVpunpckhdqYmm d a src len s
  | .vpunpckhqdqYmm d a src len => Sys2Proof.Machine.execVpunpckhqdqYmm d a src len s

end Sys2Proof.Machine
end

