-- ==== Sys2Proof/Machine/Fetch.lean ====
section
/-! DEFINITION. Fetching and decoding the instruction at `pc` (20_memory R59; 30_encoding R77, R106;
60_exceptions R175). -/

namespace Sys2Proof.Machine

open Config

/-- R175: the linear address of byte `k` of the instruction: through CS, within its limit outside 64-bit mode,
canonical in it. -/
def fetchLinear (s : State) (k : Nat) : Res Quad :=
  let off := addrAdd s s.pc k
  match s.par.mode with
  | .m64 => if canonical s.par.linAddrBits off then .next off else .fault .gp0
  | _ => if (off.setWidth 32).ule s.cs.limit then .next (low32 (s.cs.base + off)) else .fault .gp0

/-- R175: the physical address of byte `k` of the instruction. -/
def fetchPhys (s : State) (k : Nat) : Res Nat :=
  andThen (fetchLinear s k) fun lin => translate s lin .fetch

/-- R175: byte `k` of the instruction. -/
def fetchByte (s : State) (k : Nat) : Res Byte :=
  andThen (fetchLinear s k) fun lin =>
    andThen (translate s lin .fetch) fun p =>
      if readableAt s lin then .next (readByte s.mem p) else .refused .unreadable

/-- The bytes from byte `k` on, at most `fuel` of them, and what stopped the fetch before that, if anything
did. -/
def fetchRun (s : State) : Nat → Nat → List Byte × Res Unit
  | 0, _ => ([], .next ())
  | fuel + 1, k =>
    match fetchByte s k with
    | .next b =>
      match fetchRun s fuel (k + 1) with
      | (bs, stop) => (b :: bs, stop)
    | .fault e => ([], .fault e)
    | .refused e => ([], .refused e)

/-- What the decoder's answer on fetched bytes means for the step: where the bytes end before the instruction
does, the reason they ended, and #GP(0) if 15 of them were there (R77, R161). -/
def decoded (r : DecodeResult) (stop : Res Unit) : Res Instr :=
  match r with
  | .ok i => .next i
  | .undefinedOpcode => .fault .ud
  | .rejected .notOfFamily => .refused .notOfFamily
  | .rejected .reservedPrefix => .refused .reservedPrefix
  | .short => andThen stop fun _ => .fault .gp0

/-- R106, R131 step 1: the instruction at `pc`. -/
def fetchDecode (s : State) : Res Instr :=
  let f := fetchRun s maxLen 0
  decoded (decode s.par.mode f.1) f.2

/-- Bytes placed where the fetch reads them, from byte `k` of the instruction on (at the linear address itself
where the fetch of that byte faults). -/
def placeBytes (s : State) : Nat → List Byte → State
  | _, [] => s
  | k, b :: bs =>
    let a := match fetchPhys s k with
      | .next p => p
      | _ => (addrAdd s s.pc k).toNat
    placeBytes { s with mem := writeByte s.mem a b } (k + 1) bs

/-- The state in which the next step fetches `bytes`, read as 64-bit mode reads them: a state in 64-bit mode as it
is, any other by way of a launch (R191, log 2). -/
def launchWith (s : State) (bytes : List Byte) : State :=
  placeBytes (if s.par.mode = .m64 then s else launch s) 0 bytes

end Sys2Proof.Machine
end

