-- ==== Sys2Proof/Machine/Step.lean ====
section
/-! DEFINITION. One step of the machine, and the placing of an instruction where the step fetches it. -/

namespace Sys2Proof.Machine

/-- One step: fetch and decode the instruction at `pc`, then its effect, which includes moving `pc` past it
(R31). -/
def step (s : State) : Host.Outcome State Fault Refusal :=
  match fetchDecode s with
  | .next i => exec i s
  | .fault e => .fault e
  | .refused e => .refused e

/-- The state with an instruction, numbered as spec/opcode_table.json numbers it, where the next step fetches it;
it stands for the launch (R191, log 2). -/
def State.withFetchWord (s : State) (nbits w : Nat) : State := launchWith s (tableBytes nbits w)

end Sys2Proof.Machine
end

