-- ==== Sys2Proof/Safety.lean ====
section
/-! DEFINITION. What counts as a safe run, in the terms the claims use: the invariant of the machine, the launch
premises (70_reset_and_hazards R191 to R194), ordinary memory, and a run up to EndAddr (R191). The premises are
written in the bits R33 names, not by the accessors the meanings use. -/

namespace Sys2Proof.Safety

open Config Machine

/-- The invariant: memory is in its canonical form, and outside 64-bit mode `pc` is a 32-bit address (R30). -/
def MachineInv (s : State) : Prop :=
  Memory.wf s.mem = true ∧ (s.par.mode ≠ .m64 → s.pc.extractLsb' 32 32 = 0#32)

/-- R191, R192: what an MMX form needs to execute. -/
def MmxEnabled (s : State) : Prop :=
  s.par.hasMMX = true ∧ s.cr0.getLsbD 2 = false ∧ s.cr0.getLsbD 3 = false ∧ s.x87Status.getLsbD 7 = false

/-- R191, R193: what an SSE form needs to execute. -/
def SseEnabled (s : State) : Prop :=
  s.par.hasSSE2 = true ∧ s.cr0.getLsbD 2 = false ∧ s.cr0.getLsbD 3 = false ∧ s.cr4.getLsbD 9 = true

/-- R191, R194: what a VEX form needs to execute, but for its feature flag. -/
def VexEnabled (s : State) : Prop :=
  s.cr4.getLsbD 18 = true ∧ s.xcr0.extractLsb' 1 2 = 3#2 ∧ s.par.mode ≠ .real ∧ s.cr0.getLsbD 3 = false

/-- R33, R160: alignment checking is on: CR0.AM, EFLAGS.AC and CPL = 3 (CS.selector[1:0], R35; 0 in real-address
mode). -/
def AlignCheckOn (s : State) : Prop :=
  s.cr0.getLsbD 18 = true ∧ s.rflags.getLsbD 18 = true ∧ s.cs.selector.extractLsb' 0 2 = 3#2 ∧ s.par.mode ≠ .real

/-- The default instance of `Translate` (R64) and a launch that makes every address readable (R67). -/
def OrdinaryMemory (s : State) : Prop :=
  s.par.paging = .identity ∧ ∀ lin : Quad, readableAt s lin = true

/-- R63: every one of the `n` bytes from `lin` on has a canonical address. -/
def CanonicalBytes (s : State) (lin : Quad) (n : Nat) : Prop :=
  ∀ k, k < n → canonical s.par.linAddrBits (lin + BitVec.ofNat 64 k) = true

/-- R175, R31, R73: the linear address of byte `k` of the instruction at `pc`: in 64-bit mode pc + k; elsewhere CS base +
EIP + k modulo 2^32. -/
def codeAddr (s : State) (k : Nat) : Quad :=
  if s.par.mode = .m64 then s.pc + BitVec.ofNat 64 k
  else BitVec.ofNat 64 ((s.cs.base.toNat + s.pc.toNat + k) % 2 ^ 32)

/-- R175: byte `k` of the instruction is at a canonical address in 64-bit mode, and within the CS limit elsewhere. -/
def CodeByteOk (s : State) (k : Nat) : Prop :=
  if s.par.mode = .m64 then canonical s.par.linAddrBits (s.pc + BitVec.ofNat 64 k) = true
  else (s.pc.toNat + k) % 2 ^ 32 ≤ s.cs.limit.toNat

/-- R64: `Translate` answers an address for an access (the identity; a table: log 7; real-address mode: log 3). -/
def Translates (s : State) (lin : Quad) (acc : Access) : Prop :=
  s.par.mode = .real ∨ s.par.paging = .identity ∨
    ∃ rows f, s.par.paging = .table rows ∧
      findPage rows (lin.toNat / 4096) acc (decide (cpl s = 3)) = .frame f

/-- R78: the segment-override bytes. -/
def segmentBytes : List Byte := [0x26, 0x2E, 0x36, 0x3E, 0x64, 0x65]

/-- R78: the legacy prefix bytes. -/
def legacyPrefixBytes : List Byte := [0x66, 0x67, 0xF0, 0xF2, 0xF3] ++ segmentBytes

/-- R78, R82: a byte that can stand before an opcode as a legacy prefix or, in 64-bit mode, a REX byte. -/
def PrefixByte (m : Mode) (w : Byte) : Prop := w ∈ legacyPrefixBytes ∨ (m = .m64 ∧ w.extractLsb' 4 4 = 4#4)

/-- R84: the opcode bytes of the family. -/
def familyOpcodes : List Byte := [0x68, 0x69, 0x6A, 0x6D]

/-- R31: the address of the next instruction. -/
def nextPc (s : State) (len : Nat) : Quad :=
  if s.par.mode = .m64 then s.pc + BitVec.ofNat 64 len
  else BitVec.ofNat 64 ((s.pc.toNat + len) % 2 ^ 32)

/-- R62: the linear address of a 64-bit-mode reference. -/
def linear64 (s : State) (g : SegReg) (ea : Quad) : Quad :=
  (match g with
   | .fs => s.fs.base
   | .gs => s.gs.base
   | _ => 0) + ea

/-- How a run ends (R191): at EndAddr, at a fault, at a refusal; or it has not ended yet. -/
inductive RunEnd where
  | done (s : State)
  | faulted (s : State) (e : Fault)
  | refused (s : State) (r : Refusal)
  | running (s : State)
  deriving DecidableEq, Repr

/-- R191: a run of at most `fuel` steps: it ends successfully when `pc` = EndAddr after an instruction completes,
in failure at the first fault or refusal. -/
def runToEnd : Nat → State → RunEnd
  | 0, s => .running s
  | fuel + 1, s =>
    match step s with
    | .next t => if t.pc = t.par.endAddr then .done t else runToEnd fuel t
    | .fault e => .faulted s e
    | .refused r => .refused s r

end Sys2Proof.Safety
end

