-- ==== Sys2Proof/Certificates/Slice0/Obligations.lean ====
section
/-! DEFINITION. The statements about the machine, each with the rules of spec/ it comes from. -/

open Sys2Proof Sys2Proof.Config Sys2Proof.Machine Sys2Proof.Safety

/-! ### Decoding and encoding -/

/-- Eight of the byte strings of 95_test_vectors section 2.6 (E1, E5, E8, E11, E19, E15, E18, E22), one or more for each of
the four kinds of encoding, read as that table reads them. -/
def Obligations.DecodesTheSpecsWords : Prop :=
  decode .m64 [0x0F, 0x68, 0xC1] = .ok (.punpckhbwMm 0 (.reg 1) 3) ∧
  decode .m64 [0x66, 0x44, 0x0F, 0x6D, 0x00] =
    .ok (.punpckhqdqXmm 8 (.mem ⟨.ds, .a64, .gpr 0, none, .absent⟩) 5) ∧
  decode .m64 [0x66, 0x0F, 0x69, 0x0D, 0x00, 0x01, 0x00, 0x00] =
    .ok (.punpckhwdXmm 1 (.mem ⟨.ds, .a64, .rip, none, .d32 0x100⟩) 8) ∧
  decode .m64 [0x66, 0x0F, 0x6A, 0x4C, 0x24, 0x08] =
    .ok (.punpckhdqXmm 1 (.mem ⟨.ss, .a64, .gpr 4, none, .d8 8⟩) 6) ∧
  decode .m64 [0xC5, 0xD1, 0x6D, 0xE6] = .ok (.vpunpckhqdqXmm 4 5 (.reg 6) 4) ∧
  decode .m64 [0xC5, 0xED, 0x6A, 0xCB] = .ok (.vpunpckhdqYmm 1 2 (.reg 3) 4) ∧
  decode .m64 [0xC4, 0x01, 0x15, 0x6D, 0x64, 0xC8, 0x80] =
    .ok (.vpunpckhqdqYmm 12 13 (.mem ⟨.ds, .a64, .gpr 8, some ⟨9, 3⟩, .d8 0x80⟩) 7) ∧
  decode .m32 [0x67, 0x0F, 0x68, 0x47, 0x08] =
    .ok (.punpckhbwMm 0 (.mem ⟨.ds, .a16, .gpr 3, none, .d8 8⟩) 5)

/-- R75 to R106: for every well-formed instruction of every row, with every operand its encoding admits and every
length up to 15, the decoder reads the encoder's bytes back as it. -/
def Obligations.DecodeOfEncode : Prop :=
  ∀ (m : Mode) (i : Instr), wellFormed m i = true → decode m (encode m i) = .ok i

/-- R77, R87 to R94: whatever the decoder accepts within 15 bytes is well-formed: it names no register and no
address form the mode lacks, and it is no shorter than the instruction's shortest encoding. -/
def Obligations.DecodedIsWellFormed : Prop :=
  ∀ (m : Mode) (ws : List Byte) (i : Instr),
    ws.length ≤ 15 → decode m ws = .ok i → wellFormed m i = true

/-- R106 step 6: the length of an instruction is the number of bytes the decoder consumed: bytes after them do not
matter, and fewer do not suffice. -/
def Obligations.DecodeReadsExactlyItsBytes : Prop :=
  ∀ (m : Mode) (ws : List Byte) (i : Instr), decode m ws = .ok i →
    (fieldsOf i).len ≤ ws.length ∧
    (∀ tail : List Byte, decode m (ws.take (fieldsOf i).len ++ tail) = .ok i) ∧
    ∀ n : Nat, n < (fieldsOf i).len → decode m (ws.take n) = .short

/-- R79, R85, R83, R78, R100. 66H before the encoding of an MMX form makes it the SSE form of the same opcode byte on the
registers of the same numbers, one byte longer (where len = 15 that is 16 bytes, which no step fetches). 0F 6D without 66H,
F2H and F3H is an undefined opcode (decision D14, log 21), answered once its operand bytes are complete (the model's choice:
log 13; LOCK too: R81), and with 66H PUNPCKHQDQ. A REX byte before a legacy prefix is ignored but for its length, and #UD
before a VEX form. A legacy prefix that stands again later, and a segment override before another one, change the length
only; legacy prefixes of different kinds may stand in any order (decision D19, log 21). -/
def Obligations.LegacyPrefixesAndRexPlacement : Prop :=
  (∀ (m : Mode) (d : MmReg) (src : Src MmReg) (len : Nat),
    (wellFormed m (.punpckhbwMm d src len) = true →
      decode m (0x66 :: encode m (.punpckhbwMm d src len)) =
        .ok (.punpckhbwXmm (d.setWidth 4) (wideSrc src) (len + 1))) ∧
    (wellFormed m (.punpckhwdMm d src len) = true →
      decode m (0x66 :: encode m (.punpckhwdMm d src len)) =
        .ok (.punpckhwdXmm (d.setWidth 4) (wideSrc src) (len + 1))) ∧
    (wellFormed m (.punpckhdqMm d src len) = true →
      decode m (0x66 :: encode m (.punpckhdqMm d src len)) =
        .ok (.punpckhdqXmm (d.setWidth 4) (wideSrc src) (len + 1)))) ∧
  (∀ (m : Mode) (ps ws : List Byte),
    (∀ w, w ∈ ps → w ∈ [0x67, 0x26, 0x2E, 0x36, 0x3E, 0x64, 0x65, (0xF0 : Byte)] ∨
      (m = .m64 ∧ w.extractLsb' 4 4 = 4#4)) →
    decode m (ps ++ 0x0F :: 0x6D :: ws) =
      if decode m (ps ++ 0x0F :: 0x68 :: ws) = .short then .short else .undefinedOpcode) ∧
  (∀ (m : Mode) (d : XmmReg) (src : Src XmmReg) (len : Nat),
    wellFormed m (.punpckhqdqXmm d src len) = true →
      decode m (encode m (.punpckhqdqXmm d src len)) = .ok (.punpckhqdqXmm d src len)) ∧
  (∀ (ps ws : List Byte) (r k : Byte) (i : Instr), (∀ w, w ∈ ps → PrefixByte .m64 w) →
    r.extractLsb' 4 4 = 4#4 → k ∈ legacyPrefixBytes → decode .m64 (ps ++ k :: ws) = .ok i →
    (((fieldsOf i).kind = .mmx ∨ (fieldsOf i).kind = .sse) →
      ∃ j : Instr, decode .m64 (ps ++ r :: k :: ws) = .ok j ∧
        fieldsOf j = { fieldsOf i with len := (fieldsOf i).len + 1 }) ∧
    (((fieldsOf i).kind = .vex128 ∨ (fieldsOf i).kind = .vex256) →
      decode .m64 (ps ++ r :: k :: ws) = .undefinedOpcode)) ∧
  (∀ (m : Mode) (ps qs ws : List Byte) (a b : Byte) (i : Instr), (∀ w, w ∈ ps → PrefixByte m w) →
    (∀ w, w ∈ qs → PrefixByte m w) → a ∈ legacyPrefixBytes → b ∈ qs →
    (b = a ∨ (a ∈ segmentBytes ∧ b ∈ segmentBytes)) → decode m (ps ++ (qs ++ ws)) = .ok i →
    ∃ j : Instr, decode m (ps ++ a :: (qs ++ ws)) = .ok j ∧
      fieldsOf j = { fieldsOf i with len := (fieldsOf i).len + 1 }) ∧
  (∀ (m : Mode) (ps ws : List Byte) (a b : Byte), (∀ w, w ∈ ps → PrefixByte m w) →
    a ∈ legacyPrefixBytes → b ∈ legacyPrefixBytes → ¬ (a ∈ segmentBytes ∧ b ∈ segmentBytes) →
    decode m (ps ++ a :: b :: ws) = decode m (ps ++ b :: a :: ws))

/-- R81, R100: F0H before an encoding of any of the fifteen forms makes it #UD. -/
def Obligations.LockPrefixIsInvalid : Prop :=
  ∀ (m : Mode) (i : Instr), wellFormed m i = true → decode m (0xF0 :: encode m i) = .undefinedOpcode

/-- R80, R100: F2H or F3H before a legacy form is refused by name; before a VEX form it is #UD. -/
def Obligations.RepeatPrefixesRefused : Prop :=
  ∀ (m : Mode) (i : Instr) (w : Byte), wellFormed m i = true → (w = 0xF2 ∨ w = 0xF3) →
    decode m (w :: encode m i) =
      match (fieldsOf i).kind with
      | .mmx => .rejected .reservedPrefix
      | .sse => .rejected .reservedPrefix
      | .vex128 => .undefinedOpcode
      | .vex256 => .undefinedOpcode

/-- R100: 66H, and in 64-bit mode a REX byte, before a VEX form makes it #UD. -/
def Obligations.PrefixesBeforeVexAreInvalid : Prop :=
  ∀ (m : Mode) (i : Instr) (w : Byte), wellFormed m i = true →
    ((fieldsOf i).kind = .vex128 ∨ (fieldsOf i).kind = .vex256) →
    (w = 0x66 ∨ (m = .m64 ∧ w.extractLsb' 4 4 = 4#4)) →
    decode m (w :: encode m i) = .undefinedOpcode

/-- R97 (WIG), U2: both values of VEX.W decode to the same instruction, whatever prefixes stand before the VEX prefix (R76,
R100 allow segment overrides and 67H there). -/
def Obligations.VexWIsIgnored : Prop :=
  ∀ (m : Mode) (ps : List Byte) (v w : Byte) (ws : List Byte), (∀ b, b ∈ ps → PrefixByte m b) →
    decode m (ps ++ 0xC4 :: v :: (w ^^^ 0x80) :: ws) = decode m (ps ++ 0xC4 :: v :: w :: ws)

/-- R95, R96: the three-byte VEX prefix with X = B = 0 and mmmmm = 00001B spells the instruction of the two-byte
prefix, one byte longer, whatever prefixes stand before both (R76, R100 allow segment overrides and 67H there). -/
def Obligations.BothVexPrefixesSpellTheSameInstruction : Prop :=
  ∀ (m : Mode) (ps : List Byte) (w : Byte) (ws : List Byte) (i : Instr), (∀ b, b ∈ ps → PrefixByte m b) →
    decode m (ps ++ 0xC5 :: w :: ws) = .ok i →
    ∃ j : Instr, decode m (ps ++ 0xC4 :: ((w &&& 0x80) ||| 0x61) :: (w &&& 0x7F) :: ws) = .ok j ∧
      fieldsOf j = { fieldsOf i with len := (fieldsOf i).len + 1 }

/-- R4(a), R97, R99, R106 steps 3 and 4: after any prefix bytes, a two-byte opcode or a one-byte opcode that is not of the
family is refused; so are C4H and C5H outside 64-bit mode where they are LES and LDS; and a VEX encoding with pp other than
01B, mmmmm other than 00001B or another opcode byte is refused, or #UD where a byte that R100 forbids stands before it.
(C4H and C5H in real-address mode: log 3.) -/
def Obligations.OtherOpcodesRefused : Prop :=
  ∀ (m : Mode) (ps ws : List Byte) (op : Byte), (∀ b, b ∈ ps → PrefixByte m b) →
    let allowed : Prop := ∀ b, b ∈ ps → b = 0x67 ∨ b ∈ segmentBytes
    let refusedOrUd (bytes : List Byte) : Prop :=
      (allowed → decode m (ps ++ bytes) = .rejected .notOfFamily) ∧
      (¬ allowed → decode m (ps ++ bytes) = .undefinedOpcode)
    (op ∉ familyOpcodes → decode m (ps ++ 0x0F :: op :: ws) = .rejected .notOfFamily) ∧
    (¬ PrefixByte m op → op ≠ 0x0F → op ≠ 0xC4 → op ≠ 0xC5 →
      decode m (ps ++ op :: ws) = .rejected .notOfFamily) ∧
    (∀ v : Byte, m ≠ .m64 → v.extractLsb' 6 2 ≠ 3#2 →
      decode m (ps ++ 0xC4 :: v :: ws) = .rejected .notOfFamily ∧
      decode m (ps ++ 0xC5 :: v :: ws) = .rejected .notOfFamily) ∧
    (∀ w : Byte, m = .m64 ∨ w.extractLsb' 6 2 = 3#2 → w.extractLsb' 0 2 ≠ 1#2 ∨ op ∉ familyOpcodes →
      refusedOrUd (0xC5 :: w :: op :: ws)) ∧
    (∀ v w : Byte, m = .m64 ∨ v.extractLsb' 6 2 = 3#2 →
      v.extractLsb' 0 5 ≠ 1#5 ∨ w.extractLsb' 0 2 ≠ 1#2 ∨ op ∉ familyOpcodes →
      refusedOrUd (0xC4 :: v :: w :: op :: ws))

/-! ### The interleave functions -/

/-- R116: every line of INTERLEAVE_HIGH_BYTES. -/
def Obligations.InterleaveHighBytes : Prop :=
  ∀ SRC1 SRC2 : Xword,
    (high128 8 SRC1 SRC2).extractLsb' 0 8 = SRC1.extractLsb' 64 8 ∧
    (high128 8 SRC1 SRC2).extractLsb' 8 8 = SRC2.extractLsb' 64 8 ∧
    (high128 8 SRC1 SRC2).extractLsb' 16 8 = SRC1.extractLsb' 72 8 ∧
    (high128 8 SRC1 SRC2).extractLsb' 24 8 = SRC2.extractLsb' 72 8 ∧
    (high128 8 SRC1 SRC2).extractLsb' 32 8 = SRC1.extractLsb' 80 8 ∧
    (high128 8 SRC1 SRC2).extractLsb' 40 8 = SRC2.extractLsb' 80 8 ∧
    (high128 8 SRC1 SRC2).extractLsb' 48 8 = SRC1.extractLsb' 88 8 ∧
    (high128 8 SRC1 SRC2).extractLsb' 56 8 = SRC2.extractLsb' 88 8 ∧
    (high128 8 SRC1 SRC2).extractLsb' 64 8 = SRC1.extractLsb' 96 8 ∧
    (high128 8 SRC1 SRC2).extractLsb' 72 8 = SRC2.extractLsb' 96 8 ∧
    (high128 8 SRC1 SRC2).extractLsb' 80 8 = SRC1.extractLsb' 104 8 ∧
    (high128 8 SRC1 SRC2).extractLsb' 88 8 = SRC2.extractLsb' 104 8 ∧
    (high128 8 SRC1 SRC2).extractLsb' 96 8 = SRC1.extractLsb' 112 8 ∧
    (high128 8 SRC1 SRC2).extractLsb' 104 8 = SRC2.extractLsb' 112 8 ∧
    (high128 8 SRC1 SRC2).extractLsb' 112 8 = SRC1.extractLsb' 120 8 ∧
    (high128 8 SRC1 SRC2).extractLsb' 120 8 = SRC2.extractLsb' 120 8

/-- R117: every line of INTERLEAVE_HIGH_WORDS. -/
def Obligations.InterleaveHighWords : Prop :=
  ∀ SRC1 SRC2 : Xword,
    (high128 16 SRC1 SRC2).extractLsb' 0 16 = SRC1.extractLsb' 64 16 ∧
    (high128 16 SRC1 SRC2).extractLsb' 16 16 = SRC2.extractLsb' 64 16 ∧
    (high128 16 SRC1 SRC2).extractLsb' 32 16 = SRC1.extractLsb' 80 16 ∧
    (high128 16 SRC1 SRC2).extractLsb' 48 16 = SRC2.extractLsb' 80 16 ∧
    (high128 16 SRC1 SRC2).extractLsb' 64 16 = SRC1.extractLsb' 96 16 ∧
    (high128 16 SRC1 SRC2).extractLsb' 80 16 = SRC2.extractLsb' 96 16 ∧
    (high128 16 SRC1 SRC2).extractLsb' 96 16 = SRC1.extractLsb' 112 16 ∧
    (high128 16 SRC1 SRC2).extractLsb' 112 16 = SRC2.extractLsb' 112 16

/-- R118: every line of INTERLEAVE_HIGH_DWORDS. -/
def Obligations.InterleaveHighDwords : Prop :=
  ∀ SRC1 SRC2 : Xword,
    (high128 32 SRC1 SRC2).extractLsb' 0 32 = SRC1.extractLsb' 64 32 ∧
    (high128 32 SRC1 SRC2).extractLsb' 32 32 = SRC2.extractLsb' 64 32 ∧
    (high128 32 SRC1 SRC2).extractLsb' 64 32 = SRC1.extractLsb' 96 32 ∧
    (high128 32 SRC1 SRC2).extractLsb' 96 32 = SRC2.extractLsb' 96 32

/-- R119: every line of INTERLEAVE_HIGH_QWORDS. -/
def Obligations.InterleaveHighQwords : Prop :=
  ∀ SRC1 SRC2 : Xword,
    (high128 64 SRC1 SRC2).extractLsb' 0 64 = SRC1.extractLsb' 64 64 ∧
    (high128 64 SRC1 SRC2).extractLsb' 64 64 = SRC2.extractLsb' 64 64

/-- R120: every line of INTERLEAVE_HIGH_BYTES_256b. -/
def Obligations.InterleaveHighBytes256 : Prop :=
  ∀ SRC1 SRC2 : Yword,
    (high256 8 SRC1 SRC2).extractLsb' 0 8 = SRC1.extractLsb' 64 8 ∧
    (high256 8 SRC1 SRC2).extractLsb' 8 8 = SRC2.extractLsb' 64 8 ∧
    (high256 8 SRC1 SRC2).extractLsb' 16 8 = SRC1.extractLsb' 72 8 ∧
    (high256 8 SRC1 SRC2).extractLsb' 24 8 = SRC2.extractLsb' 72 8 ∧
    (high256 8 SRC1 SRC2).extractLsb' 32 8 = SRC1.extractLsb' 80 8 ∧
    (high256 8 SRC1 SRC2).extractLsb' 40 8 = SRC2.extractLsb' 80 8 ∧
    (high256 8 SRC1 SRC2).extractLsb' 48 8 = SRC1.extractLsb' 88 8 ∧
    (high256 8 SRC1 SRC2).extractLsb' 56 8 = SRC2.extractLsb' 88 8 ∧
    (high256 8 SRC1 SRC2).extractLsb' 64 8 = SRC1.extractLsb' 96 8 ∧
    (high256 8 SRC1 SRC2).extractLsb' 72 8 = SRC2.extractLsb' 96 8 ∧
    (high256 8 SRC1 SRC2).extractLsb' 80 8 = SRC1.extractLsb' 104 8 ∧
    (high256 8 SRC1 SRC2).extractLsb' 88 8 = SRC2.extractLsb' 104 8 ∧
    (high256 8 SRC1 SRC2).extractLsb' 96 8 = SRC1.extractLsb' 112 8 ∧
    (high256 8 SRC1 SRC2).extractLsb' 104 8 = SRC2.extractLsb' 112 8 ∧
    (high256 8 SRC1 SRC2).extractLsb' 112 8 = SRC1.extractLsb' 120 8 ∧
    (high256 8 SRC1 SRC2).extractLsb' 120 8 = SRC2.extractLsb' 120 8 ∧
    (high256 8 SRC1 SRC2).extractLsb' 128 8 = SRC1.extractLsb' 192 8 ∧
    (high256 8 SRC1 SRC2).extractLsb' 136 8 = SRC2.extractLsb' 192 8 ∧
    (high256 8 SRC1 SRC2).extractLsb' 144 8 = SRC1.extractLsb' 200 8 ∧
    (high256 8 SRC1 SRC2).extractLsb' 152 8 = SRC2.extractLsb' 200 8 ∧
    (high256 8 SRC1 SRC2).extractLsb' 160 8 = SRC1.extractLsb' 208 8 ∧
    (high256 8 SRC1 SRC2).extractLsb' 168 8 = SRC2.extractLsb' 208 8 ∧
    (high256 8 SRC1 SRC2).extractLsb' 176 8 = SRC1.extractLsb' 216 8 ∧
    (high256 8 SRC1 SRC2).extractLsb' 184 8 = SRC2.extractLsb' 216 8 ∧
    (high256 8 SRC1 SRC2).extractLsb' 192 8 = SRC1.extractLsb' 224 8 ∧
    (high256 8 SRC1 SRC2).extractLsb' 200 8 = SRC2.extractLsb' 224 8 ∧
    (high256 8 SRC1 SRC2).extractLsb' 208 8 = SRC1.extractLsb' 232 8 ∧
    (high256 8 SRC1 SRC2).extractLsb' 216 8 = SRC2.extractLsb' 232 8 ∧
    (high256 8 SRC1 SRC2).extractLsb' 224 8 = SRC1.extractLsb' 240 8 ∧
    (high256 8 SRC1 SRC2).extractLsb' 232 8 = SRC2.extractLsb' 240 8 ∧
    (high256 8 SRC1 SRC2).extractLsb' 240 8 = SRC1.extractLsb' 248 8 ∧
    (high256 8 SRC1 SRC2).extractLsb' 248 8 = SRC2.extractLsb' 248 8

/-- R121: every line of INTERLEAVE_HIGH_WORDS_256b. -/
def Obligations.InterleaveHighWords256 : Prop :=
  ∀ SRC1 SRC2 : Yword,
    (high256 16 SRC1 SRC2).extractLsb' 0 16 = SRC1.extractLsb' 64 16 ∧
    (high256 16 SRC1 SRC2).extractLsb' 16 16 = SRC2.extractLsb' 64 16 ∧
    (high256 16 SRC1 SRC2).extractLsb' 32 16 = SRC1.extractLsb' 80 16 ∧
    (high256 16 SRC1 SRC2).extractLsb' 48 16 = SRC2.extractLsb' 80 16 ∧
    (high256 16 SRC1 SRC2).extractLsb' 64 16 = SRC1.extractLsb' 96 16 ∧
    (high256 16 SRC1 SRC2).extractLsb' 80 16 = SRC2.extractLsb' 96 16 ∧
    (high256 16 SRC1 SRC2).extractLsb' 96 16 = SRC1.extractLsb' 112 16 ∧
    (high256 16 SRC1 SRC2).extractLsb' 112 16 = SRC2.extractLsb' 112 16 ∧
    (high256 16 SRC1 SRC2).extractLsb' 128 16 = SRC1.extractLsb' 192 16 ∧
    (high256 16 SRC1 SRC2).extractLsb' 144 16 = SRC2.extractLsb' 192 16 ∧
    (high256 16 SRC1 SRC2).extractLsb' 160 16 = SRC1.extractLsb' 208 16 ∧
    (high256 16 SRC1 SRC2).extractLsb' 176 16 = SRC2.extractLsb' 208 16 ∧
    (high256 16 SRC1 SRC2).extractLsb' 192 16 = SRC1.extractLsb' 224 16 ∧
    (high256 16 SRC1 SRC2).extractLsb' 208 16 = SRC2.extractLsb' 224 16 ∧
    (high256 16 SRC1 SRC2).extractLsb' 224 16 = SRC1.extractLsb' 240 16 ∧
    (high256 16 SRC1 SRC2).extractLsb' 240 16 = SRC2.extractLsb' 240 16

/-- R122: every line of INTERLEAVE_HIGH_DWORDS_256b. -/
def Obligations.InterleaveHighDwords256 : Prop :=
  ∀ SRC1 SRC2 : Yword,
    (high256 32 SRC1 SRC2).extractLsb' 0 32 = SRC1.extractLsb' 64 32 ∧
    (high256 32 SRC1 SRC2).extractLsb' 32 32 = SRC2.extractLsb' 64 32 ∧
    (high256 32 SRC1 SRC2).extractLsb' 64 32 = SRC1.extractLsb' 96 32 ∧
    (high256 32 SRC1 SRC2).extractLsb' 96 32 = SRC2.extractLsb' 96 32 ∧
    (high256 32 SRC1 SRC2).extractLsb' 128 32 = SRC1.extractLsb' 192 32 ∧
    (high256 32 SRC1 SRC2).extractLsb' 160 32 = SRC2.extractLsb' 192 32 ∧
    (high256 32 SRC1 SRC2).extractLsb' 192 32 = SRC1.extractLsb' 224 32 ∧
    (high256 32 SRC1 SRC2).extractLsb' 224 32 = SRC2.extractLsb' 224 32

/-- R123: every line of INTERLEAVE_HIGH_QWORDS_256b. -/
def Obligations.InterleaveHighQwords256 : Prop :=
  ∀ SRC1 SRC2 : Yword,
    (high256 64 SRC1 SRC2).extractLsb' 0 64 = SRC1.extractLsb' 64 64 ∧
    (high256 64 SRC1 SRC2).extractLsb' 64 64 = SRC2.extractLsb' 64 64 ∧
    (high256 64 SRC1 SRC2).extractLsb' 128 64 = SRC1.extractLsb' 192 64 ∧
    (high256 64 SRC1 SRC2).extractLsb' 192 64 = SRC2.extractLsb' 192 64

/-- R124: every line of IH64_BYTES, IH64_WORDS and IH64_DWORDS. -/
def Obligations.InterleaveHigh64BitBlocks : Prop :=
  ∀ A B : Quad,
    (high64 8 A B).extractLsb' 0 8 = A.extractLsb' 32 8 ∧
    (high64 8 A B).extractLsb' 8 8 = B.extractLsb' 32 8 ∧
    (high64 8 A B).extractLsb' 16 8 = A.extractLsb' 40 8 ∧
    (high64 8 A B).extractLsb' 24 8 = B.extractLsb' 40 8 ∧
    (high64 8 A B).extractLsb' 32 8 = A.extractLsb' 48 8 ∧
    (high64 8 A B).extractLsb' 40 8 = B.extractLsb' 48 8 ∧
    (high64 8 A B).extractLsb' 48 8 = A.extractLsb' 56 8 ∧
    (high64 8 A B).extractLsb' 56 8 = B.extractLsb' 56 8 ∧
    (high64 16 A B).extractLsb' 0 16 = A.extractLsb' 32 16 ∧
    (high64 16 A B).extractLsb' 16 16 = B.extractLsb' 32 16 ∧
    (high64 16 A B).extractLsb' 32 16 = A.extractLsb' 48 16 ∧
    (high64 16 A B).extractLsb' 48 16 = B.extractLsb' 48 16 ∧
    (high64 32 A B).extractLsb' 0 32 = A.extractLsb' 32 32 ∧
    (high64 32 A B).extractLsb' 32 32 = B.extractLsb' 32 32

/-- R125 (an inference the spec marks as its own): in each lane, element 2i of the result is element n + i of A and
element 2i + 1 is element n + i of B. -/
def Obligations.InterleaveElementFormula : Prop :=
  (∀ (A B : Quad) (w i : Nat), (w = 8 ∨ w = 16 ∨ w = 32) → i < 64 / (2 * w) →
    elem w (high64 w A B) (2 * i) = elem w A (64 / (2 * w) + i) ∧
    elem w (high64 w A B) (2 * i + 1) = elem w B (64 / (2 * w) + i)) ∧
  (∀ (A B : Xword) (w i : Nat), (w = 8 ∨ w = 16 ∨ w = 32 ∨ w = 64) → i < 128 / (2 * w) →
    elem w (high128 w A B) (2 * i) = elem w A (128 / (2 * w) + i) ∧
    elem w (high128 w A B) (2 * i + 1) = elem w B (128 / (2 * w) + i)) ∧
  (∀ (A B : Yword) (w i j : Nat), (w = 8 ∨ w = 16 ∨ w = 32 ∨ w = 64) → i < 128 / (2 * w) → j < 2 →
    elem w ((high256 w A B).extractLsb' (128 * j) 128) (2 * i) =
      elem w (A.extractLsb' (128 * j) 128) (128 / (2 * w) + i) ∧
    elem w ((high256 w A B).extractLsb' (128 * j) 128) (2 * i + 1) =
      elem w (B.extractLsb' (128 * j) 128) (128 / (2 * w) + i))

/-- R126 (an inference the spec marks as its own): a 256-bit interleave is the 128-bit one on each half. -/
def Obligations.LanesAreIndependent : Prop :=
  ∀ (A B : Yword) (w : Nat), (w = 8 ∨ w = 16 ∨ w = 32 ∨ w = 64) →
    high256 w A B =
      high128 w (A.extractLsb' 128 128) (B.extractLsb' 128 128) ++
        high128 w (A.extractLsb' 0 128) (B.extractLsb' 0 128)

/-- R127: the result depends only on the high half of each operand, of each lane for 256 bits. -/
def Obligations.LowHalvesAreIgnored : Prop :=
  (∀ (A A' B B' : Quad) (w : Nat), (w = 8 ∨ w = 16 ∨ w = 32) →
    A.extractLsb' 32 32 = A'.extractLsb' 32 32 → B.extractLsb' 32 32 = B'.extractLsb' 32 32 →
    high64 w A B = high64 w A' B') ∧
  (∀ (A A' B B' : Xword) (w : Nat), (w = 8 ∨ w = 16 ∨ w = 32 ∨ w = 64) →
    A.extractLsb' 64 64 = A'.extractLsb' 64 64 → B.extractLsb' 64 64 = B'.extractLsb' 64 64 →
    high128 w A B = high128 w A' B') ∧
  (∀ (A A' B B' : Yword) (w : Nat), (w = 8 ∨ w = 16 ∨ w = 32 ∨ w = 64) →
    A.extractLsb' 64 64 = A'.extractLsb' 64 64 → A.extractLsb' 192 64 = A'.extractLsb' 192 64 →
    B.extractLsb' 64 64 = B'.extractLsb' 64 64 → B.extractLsb' 192 64 = B'.extractLsb' 192 64 →
    high256 w A B = high256 w A' B')

/-- R128: a zero second source zero-extends the high elements of the first; a zero first source shifts those of the
second left by the element width. -/
def Obligations.ZeroSourceZeroExtends : Prop :=
  (∀ (A : Quad) (w i : Nat), (w = 8 ∨ w = 16 ∨ w = 32) → i < 64 / (2 * w) →
    elem (2 * w) (high64 w A 0) i = (elem w A (64 / (2 * w) + i)).setWidth (2 * w) ∧
    elem (2 * w) (high64 w 0 A) i = (elem w A (64 / (2 * w) + i)).setWidth (2 * w) <<< w) ∧
  (∀ (A : Xword) (w i : Nat), (w = 8 ∨ w = 16 ∨ w = 32 ∨ w = 64) → i < 128 / (2 * w) →
    elem (2 * w) (high128 w A 0) i = (elem w A (128 / (2 * w) + i)).setWidth (2 * w) ∧
    elem (2 * w) (high128 w 0 A) i = (elem w A (128 / (2 * w) + i)).setWidth (2 * w) <<< w) ∧
  (∀ (A : Yword) (w i j : Nat), (w = 8 ∨ w = 16 ∨ w = 32 ∨ w = 64) → i < 128 / (2 * w) → j < 2 →
    elem (2 * w) ((high256 w A 0).extractLsb' (128 * j) 128) i =
      (elem w (A.extractLsb' (128 * j) 128) (128 / (2 * w) + i)).setWidth (2 * w) ∧
    elem (2 * w) ((high256 w 0 A).extractLsb' (128 * j) 128) i =
      (elem w (A.extractLsb' (128 * j) 128) (128 / (2 * w) + i)).setWidth (2 * w) <<< w)

/-! ### Results: where every form completes, and with what -/

/-- R131, R135 to R137, R36, R40: with the form enabled and its operand readable (when that is so: MemoryOperandsIn64BitMode
and MemoryOperandsIn32BitMode; a register operand always is), the form writes the interleave to MM[d], does the x87 side
effects when they are modelled, and moves pc past the instruction; nothing else changes. -/
def Obligations.MmxFormsComplete : Prop :=
  ∀ (s : State) (d : MmReg) (src : Src MmReg) (len : Nat) (b : Quad),
    MmxEnabled s → srcMm s len src = .next b →
    let done (v : Quad) : Host.Outcome State Fault Refusal :=
      .next { s with
        mm := s.mm.set d.toNat v
        pc := nextPc s len
        x87Status := if s.par.modelX87 then s.x87Status &&& 0xC7FF#16 else s.x87Status
        x87Tag := if s.par.modelX87 then 0#16 else s.x87Tag
        x87Upper := if s.par.modelX87 then s.x87Upper.set d.toNat 0xFFFF#16 else s.x87Upper }
    exec (.punpckhbwMm d src len) s = done (high64 8 s.mm[d.toNat] b) ∧
    exec (.punpckhwdMm d src len) s = done (high64 16 s.mm[d.toNat] b) ∧
    exec (.punpckhdqMm d src len) s = done (high64 32 s.mm[d.toNat] b)

/-- R132, R138 to R141, R26, R40: with the form enabled and its operand readable, the form writes the interleave to
YMM[d][127:0], leaves YMM[d][255:128], and moves pc past the instruction; nothing else changes. -/
def Obligations.SseFormsComplete : Prop :=
  ∀ (s : State) (d : XmmReg) (src : Src XmmReg) (len : Nat) (b : Xword),
    SseEnabled s → srcSse s len src = .next b →
    let a : Xword := s.ymm[d.toNat].extractLsb' 0 128
    let done (v : Xword) : Host.Outcome State Fault Refusal :=
      .next { s with ymm := s.ymm.set d.toNat (s.ymm[d.toNat].extractLsb' 128 128 ++ v), pc := nextPc s len }
    exec (.punpckhbwXmm d src len) s = done (high128 8 a b) ∧
    exec (.punpckhwdXmm d src len) s = done (high128 16 a b) ∧
    exec (.punpckhdqXmm d src len) s = done (high128 32 a b) ∧
    exec (.punpckhqdqXmm d src len) s = done (high128 64 a b)

/-- R133, R142 to R145, R26, R40: with the form enabled and its operand readable, the form writes the interleave to
YMM[d][127:0], zeroes YMM[d][255:128], and moves pc past the instruction; nothing else changes. -/
def Obligations.Vex128FormsComplete : Prop :=
  ∀ (s : State) (d a : XmmReg) (src : Src XmmReg) (len : Nat) (b : Xword),
    s.par.hasAVX = true → VexEnabled s → srcVex128 s len src = .next b →
    let x : Xword := s.ymm[a.toNat].extractLsb' 0 128
    let done (v : Xword) : Host.Outcome State Fault Refusal :=
      .next { s with ymm := s.ymm.set d.toNat (0#128 ++ v), pc := nextPc s len }
    exec (.vpunpckhbwXmm d a src len) s = done (high128 8 x b) ∧
    exec (.vpunpckhwdXmm d a src len) s = done (high128 16 x b) ∧
    exec (.vpunpckhdqXmm d a src len) s = done (high128 32 x b) ∧
    exec (.vpunpckhqdqXmm d a src len) s = done (high128 64 x b)

/-- R133, R146 to R149, R40: with the form enabled and its operand readable, the form writes the interleave to all of
YMM[d] and moves pc past the instruction; nothing else changes. -/
def Obligations.Vex256FormsComplete : Prop :=
  ∀ (s : State) (d a : XmmReg) (src : Src XmmReg) (len : Nat) (b : Yword),
    s.par.hasAVX2 = true → VexEnabled s → srcVex256 s len src = .next b →
    let done (v : Yword) : Host.Outcome State Fault Refusal :=
      .next { s with ymm := s.ymm.set d.toNat v, pc := nextPc s len }
    exec (.vpunpckhbwYmm d a src len) s = done (high256 8 s.ymm[a.toNat] b) ∧
    exec (.vpunpckhwdYmm d a src len) s = done (high256 16 s.ymm[a.toNat] b) ∧
    exec (.vpunpckhdqYmm d a src len) s = done (high256 32 s.ymm[a.toNat] b) ∧
    exec (.vpunpckhqdqYmm d a src len) s = done (high256 64 s.ymm[a.toNat] b)

/-! ### Operands -/

/-- R90 to R92, R73: the effective address is base + index * scale + sign-extended displacement, modulo 2^16, 2^32 or
2^64, zero-extended; RIP-relative forms use the address of the next instruction. -/
def Obligations.EffectiveAddresses : Prop :=
  ∀ (s : State) (len : Nat) (a : Mem),
    let size : Nat := match a.asize with
      | .a16 => 16
      | .a32 => 32
      | .a64 => 64
    let base : Int := match a.base with
      | .absent => 0
      | .gpr r => ((s.x[r.toNat].toNat % 2 ^ size : Nat) : Int)
      | .rip => ((nextPc s len).toNat : Int)
    let index : Int := match a.index with
      | none => 0
      | some ix => ((s.x[ix.reg.toNat].toNat % 2 ^ size * 2 ^ ix.scale.toNat : Nat) : Int)
    let disp : Int := match a.disp with
      | .absent => 0
      | .d8 v => v.toInt
      | .d16 v => v.toInt
      | .d32 v => v.toInt
    ((effAddr s len a).toNat : Int) = (base + index + disp) % (2 ^ size : Int)

/-- R51 to R58, R61 to R64, R72: in 64-bit mode, with the identity translation and every address readable, a memory
operand whose bytes are canonical reads as the little-endian value of its bytes: an m64 unless alignment checking is on
and it is misaligned, an SSE m128 when 16-byte aligned, a VEX m128 or m256 at any address. Bytes 0 to 7 of an m128 are
read under NarrowFetch = full. -/
def Obligations.MemoryOperandsIn64BitMode : Prop :=
  ∀ (s : State) (a : Mem) (len : Nat), s.par.mode = .m64 → OrdinaryMemory s →
    let lin : Quad := linear64 s a.seg (effAddr s len a)
    let byteAt (k : Nat) : Byte := readByte s.mem (lin + BitVec.ofNat 64 k).toNat
    (CanonicalBytes s lin 8 → (¬ AlignCheckOn s ∨ lin.toNat % 8 = 0) →
      ∃ b, srcMm s len (.mem a) = .next b ∧ ∀ k, k < 8 → b.extractLsb' (8 * k) 8 = byteAt k) ∧
    (CanonicalBytes s lin 16 → lin.toNat % 16 = 0 →
      ∃ b, srcSse s len (.mem a) = .next b ∧
        ∀ k, k < 16 → (s.par.narrowFetch = .full ∨ 8 ≤ k) → b.extractLsb' (8 * k) 8 = byteAt k) ∧
    (CanonicalBytes s lin 16 →
      ∃ b, srcVex128 s len (.mem a) = .next b ∧
        ∀ k, k < 16 → (s.par.narrowFetch = .full ∨ 8 ≤ k) → b.extractLsb' (8 * k) 8 = byteAt k) ∧
    (CanonicalBytes s lin 32 →
      ∃ b, srcVex256 s len (.mem a) = .next b ∧ ∀ k, k < 32 → b.extractLsb' (8 * k) 8 = byteAt k)

/-- R51 to R58, R61 to R64, R72, R73: the same in 32-bit operation, through a readable segment with a selector that is not
null, for an operand within the segment's limit (the limit byte by byte: log 6). -/
def Obligations.MemoryOperandsIn32BitMode : Prop :=
  ∀ (s : State) (a : Mem) (len : Nat), s.par.mode = .m32 → OrdinaryMemory s →
    (segment s a.seg).readable = true → (segment s a.seg).selector.extractLsb' 2 14 ≠ 0#14 →
    let ea : Nat := (effAddr s len a).toNat
    let within (n : Nat) : Prop := ∀ k, k < n → (ea + k) % 2 ^ 32 ≤ (segment s a.seg).limit.toNat
    let addr (k : Nat) : Nat := ((segment s a.seg).base.toNat + ea + k) % 2 ^ 32
    (within 8 → (¬ AlignCheckOn s ∨ addr 0 % 8 = 0) →
      ∃ b, srcMm s len (.mem a) = .next b ∧
        ∀ k, k < 8 → b.extractLsb' (8 * k) 8 = readByte s.mem (addr k)) ∧
    (within 16 → addr 0 % 16 = 0 →
      ∃ b, srcSse s len (.mem a) = .next b ∧
        ∀ k, k < 16 → (s.par.narrowFetch = .full ∨ 8 ≤ k) →
          b.extractLsb' (8 * k) 8 = readByte s.mem (addr k)) ∧
    (within 16 →
      ∃ b, srcVex128 s len (.mem a) = .next b ∧
        ∀ k, k < 16 → (s.par.narrowFetch = .full ∨ 8 ≤ k) →
          b.extractLsb' (8 * k) 8 = readByte s.mem (addr k)) ∧
    (within 32 →
      ∃ b, srcVex256 s len (.mem a) = .next b ∧
        ∀ k, k < 32 → b.extractLsb' (8 * k) 8 = readByte s.mem (addr k))

/-! ### Exceptions -/

/-- R154 to R156, R161: #UD, then #NM, then #MF of the MMX forms, whatever the operands. The last clause is the model's choice
(DEDUCED, log 10): R156 and U15 refuse a launch state with ES = 1 and CR0.NE = 0; the model refuses by name at the MMX form
that would report the exception, after #UD and #NM. -/
def Obligations.MmxGateFaults : Prop :=
  ∀ (s : State) (d : MmReg) (src : Src MmReg) (len : Nat),
    let ud : Prop := s.cr0.getLsbD 2 = true ∨ s.par.hasMMX = false
    let all (r : Host.Outcome State Fault Refusal) : Prop :=
      exec (.punpckhbwMm d src len) s = r ∧
      exec (.punpckhwdMm d src len) s = r ∧
      exec (.punpckhdqMm d src len) s = r
    (ud → all (.fault .ud)) ∧
    (¬ ud → s.cr0.getLsbD 3 = true → all (.fault .nm)) ∧
    (¬ ud → s.cr0.getLsbD 3 = false → s.x87Status.getLsbD 7 = true → s.cr0.getLsbD 5 = true →
      all (.fault .mf)) ∧
    (¬ ud → s.cr0.getLsbD 3 = false → s.x87Status.getLsbD 7 = true → s.cr0.getLsbD 5 = false →
      all (.refused .x87ErrorExternal))

/-- R152, R155, R161: #UD, then #NM of the SSE forms, whatever the operands. -/
def Obligations.SseGateFaults : Prop :=
  ∀ (s : State) (d : XmmReg) (src : Src XmmReg) (len : Nat),
    let ud : Prop := s.cr0.getLsbD 2 = true ∨ s.cr4.getLsbD 9 = false ∨ s.par.hasSSE2 = false
    let all (r : Host.Outcome State Fault Refusal) : Prop :=
      exec (.punpckhbwXmm d src len) s = r ∧
      exec (.punpckhwdXmm d src len) s = r ∧
      exec (.punpckhdqXmm d src len) s = r ∧
      exec (.punpckhqdqXmm d src len) s = r
    (ud → all (.fault .ud)) ∧
    (¬ ud → s.cr0.getLsbD 3 = true → all (.fault .nm))

/-- R153, R155, R161, R101: #UD, then #NM of the VEX forms, whatever the operands; VEX.L = 1 without AVX2 is #UD (the
spec's decision D4). -/
def Obligations.VexGateFaults : Prop :=
  ∀ (s : State) (d a : XmmReg) (src : Src XmmReg) (len : Nat),
    let off : Prop := s.cr4.getLsbD 18 = false ∨ s.xcr0.extractLsb' 1 2 ≠ 3#2 ∨ s.par.mode = .real
    let all128 (r : Host.Outcome State Fault Refusal) : Prop :=
      exec (.vpunpckhbwXmm d a src len) s = r ∧
      exec (.vpunpckhwdXmm d a src len) s = r ∧
      exec (.vpunpckhdqXmm d a src len) s = r ∧
      exec (.vpunpckhqdqXmm d a src len) s = r
    let all256 (r : Host.Outcome State Fault Refusal) : Prop :=
      exec (.vpunpckhbwYmm d a src len) s = r ∧
      exec (.vpunpckhwdYmm d a src len) s = r ∧
      exec (.vpunpckhdqYmm d a src len) s = r ∧
      exec (.vpunpckhqdqYmm d a src len) s = r
    (s.par.hasAVX = false ∨ off → all128 (.fault .ud)) ∧
    (s.par.hasAVX = true → ¬ off → s.cr0.getLsbD 3 = true → all128 (.fault .nm)) ∧
    (s.par.hasAVX2 = false ∨ off → all256 (.fault .ud)) ∧
    (s.par.hasAVX2 = true → ¬ off → s.cr0.getLsbD 3 = true → all256 (.fault .nm))

/-- R56, R158(a): an SSE form whose m128 passes the segment check and is not 16-byte aligned raises #GP(0), whatever
CR0.AM, EFLAGS.AC and CPL say. -/
def Obligations.SseMisalignedOperandFaults : Prop :=
  ∀ (s : State) (d : XmmReg) (a : Mem) (len : Nat) (lin : Quad),
    SseEnabled s → segCheck s a.seg (effAddr s len a) 16 = .next lin → lin.toNat % 16 ≠ 0 →
    exec (.punpckhbwXmm d (.mem a) len) s = .fault .gp0 ∧
    exec (.punpckhwdXmm d (.mem a) len) s = .fault .gp0 ∧
    exec (.punpckhdqXmm d (.mem a) len) s = .fault .gp0 ∧
    exec (.punpckhqdqXmm d (.mem a) len) s = .fault .gp0

/-- R58, R160, R161: with alignment checking on at CPL 3, a misaligned m64 that raises nothing earlier, every byte of it
translating (the identity or a table: log 7), raises #AC(0). (#AC after #PF: log 9.) -/
def Obligations.AlignmentCheckFaults : Prop :=
  ∀ (s : State) (d : MmReg) (a : Mem) (len : Nat) (lin : Quad),
    MmxEnabled s → AlignCheckOn s → segCheck s a.seg (effAddr s len a) 8 = .next lin →
    (∀ j, j < 8 → Translates s (addrAdd s lin j) .read) → lin.toNat % 8 ≠ 0 →
    exec (.punpckhbwMm d (.mem a) len) s = .fault .ac0 ∧
    exec (.punpckhwdMm d (.mem a) len) s = .fault .ac0 ∧
    exec (.punpckhdqMm d (.mem a) len) s = .fault .ac0

/-- R157, R158(b), R62, R63: in 64-bit mode a memory operand with a byte at a non-canonical address raises #SS(0) through
SS and #GP(0) otherwise. -/
def Obligations.NonCanonicalOperandFaults : Prop :=
  ∀ (s : State) (m : MmReg) (d x : XmmReg) (a : Mem) (len : Nat), s.par.mode = .m64 →
    let lin : Quad := linear64 s a.seg (effAddr s len a)
    let e : Fault := if a.seg = .ss then .ss0 else .gp0
    (MmxEnabled s → ¬ CanonicalBytes s lin 8 →
      exec (.punpckhbwMm m (.mem a) len) s = .fault e ∧
      exec (.punpckhwdMm m (.mem a) len) s = .fault e ∧
      exec (.punpckhdqMm m (.mem a) len) s = .fault e) ∧
    (SseEnabled s → ¬ CanonicalBytes s lin 16 →
      exec (.punpckhbwXmm d (.mem a) len) s = .fault e ∧
      exec (.punpckhwdXmm d (.mem a) len) s = .fault e ∧
      exec (.punpckhdqXmm d (.mem a) len) s = .fault e ∧
      exec (.punpckhqdqXmm d (.mem a) len) s = .fault e) ∧
    (s.par.hasAVX = true → VexEnabled s → ¬ CanonicalBytes s lin 16 →
      exec (.vpunpckhbwXmm d x (.mem a) len) s = .fault e ∧
      exec (.vpunpckhwdXmm d x (.mem a) len) s = .fault e ∧
      exec (.vpunpckhdqXmm d x (.mem a) len) s = .fault e ∧
      exec (.vpunpckhqdqXmm d x (.mem a) len) s = .fault e) ∧
    (s.par.hasAVX2 = true → VexEnabled s → ¬ CanonicalBytes s lin 32 →
      exec (.vpunpckhbwYmm d x (.mem a) len) s = .fault e ∧
      exec (.vpunpckhwdYmm d x (.mem a) len) s = .fault e ∧
      exec (.vpunpckhdqYmm d x (.mem a) len) s = .fault e ∧
      exec (.vpunpckhqdqYmm d x (.mem a) len) s = .fault e)

/-- R62, R157, R158(b): the segment check of 32-bit operation: base plus offset modulo 2^32 when the segment is readable,
its selector is not null and every byte is within the limit; else #SS(0) through SS and #GP(0) otherwise (log 6). -/
def Obligations.SegmentCheckIn32BitMode : Prop :=
  ∀ (s : State) (g : SegReg) (ea : Quad) (n : Nat), s.par.mode = .m32 →
    let ok : Prop := (segment s g).readable = true ∧ (segment s g).selector.extractLsb' 2 14 ≠ 0#14 ∧
      ∀ k, k < n → (ea.toNat + k) % 2 ^ 32 ≤ (segment s g).limit.toNat
    (ok → ∃ lin, segCheck s g ea n = .next lin ∧
      lin.toNat = ((segment s g).base.toNat + ea.toNat) % 2 ^ 32) ∧
    (¬ ok → segCheck s g ea n = .fault (if g = .ss then .ss0 else .gp0))

/-- R54, R64, R72, R159, R161: a data read whose first fetched byte without a translation is byte k raises #PF with that
byte's address and W/R = 0, U/S, I/D = 0 in the code, before any #AC; where every fetched byte translates and is readable it
reads them. Under NarrowFetch = high8 the fetched bytes of a 16-byte operand are 8 to 15. (The table as `Translate`, and the
bits of the code that are the row's: log 7; the readable set: log 8; the order: log 9; which byte: log 18.) -/
def Obligations.PageFaultOfAnOperand : Prop :=
  ∀ (s : State) (g : SegReg) (ea lin : Quad) (n : Nat) (rule : AlignRule) (rows : List PageRow) (frame : Nat → Nat),
    s.par.mode ≠ .real → s.par.paging = .table rows →
    segCheck s g ea n = .next lin → (rule = .sse16 → lin.toNat % 16 = 0) →
    let lo : Nat := if n = 16 ∧ s.par.narrowFetch = .high8 then 8 else 0
    let page (j : Nat) : PageResult :=
      findPage rows ((addrAdd s lin j).toNat / 4096) .read (decide (cpl s = 3))
    (∀ (k : Nat) (cause : BitVec 32), lo ≤ k → k < n → (∀ j, lo ≤ j → j < k → page j = .frame (frame j)) →
      page k = .fault cause →
      memRead s g ea n rule =
        .fault (.pf ((cause &&& 0xFFFFFFE9#32) ||| (if cpl s = 3 then 4#32 else 0#32)) (addrAdd s lin k))) ∧
    ((∀ j, lo ≤ j → j < n → page j = .frame (frame j)) →
      (∀ j, lo ≤ j → j < n → readableAt s (addrAdd s lin j) = true) → (rule = .ac8 true → lin.toNat % 8 = 0) →
      ∃ b, memRead s g ea n rule = .next b ∧
        ∀ j, lo ≤ j → j < n →
          b.extractLsb' (8 * j) 8 = readByte s.mem (frame j * 4096 + (addrAdd s lin j).toNat % 4096))

/-- R72, R161, R162, R67: an enabled form whose memory operand raises an exception, or is refused, ends so; and a data read
that raises nothing, of which a fetched byte is outside the launch's readable set, is refused (the readable set and that
it is looked at last: log 8). -/
def Obligations.OperandStopsAreTheFormsStops : Prop :=
  ∀ (s : State) (m : MmReg) (d x : XmmReg) (a : Mem) (len : Nat),
    let mmx (r : Host.Outcome State Fault Refusal) : Prop :=
      exec (.punpckhbwMm m (.mem a) len) s = r ∧
      exec (.punpckhwdMm m (.mem a) len) s = r ∧
      exec (.punpckhdqMm m (.mem a) len) s = r
    let sse (r : Host.Outcome State Fault Refusal) : Prop :=
      exec (.punpckhbwXmm d (.mem a) len) s = r ∧
      exec (.punpckhwdXmm d (.mem a) len) s = r ∧
      exec (.punpckhdqXmm d (.mem a) len) s = r ∧
      exec (.punpckhqdqXmm d (.mem a) len) s = r
    let vex128 (r : Host.Outcome State Fault Refusal) : Prop :=
      exec (.vpunpckhbwXmm d x (.mem a) len) s = r ∧
      exec (.vpunpckhwdXmm d x (.mem a) len) s = r ∧
      exec (.vpunpckhdqXmm d x (.mem a) len) s = r ∧
      exec (.vpunpckhqdqXmm d x (.mem a) len) s = r
    let vex256 (r : Host.Outcome State Fault Refusal) : Prop :=
      exec (.vpunpckhbwYmm d x (.mem a) len) s = r ∧
      exec (.vpunpckhwdYmm d x (.mem a) len) s = r ∧
      exec (.vpunpckhdqYmm d x (.mem a) len) s = r ∧
      exec (.vpunpckhqdqYmm d x (.mem a) len) s = r
    (MmxEnabled s →
      (∀ e, srcMm s len (.mem a) = .fault e → mmx (.fault e)) ∧
      (∀ r, srcMm s len (.mem a) = .refused r → mmx (.refused r))) ∧
    (SseEnabled s →
      (∀ e, srcSse s len (.mem a) = .fault e → sse (.fault e)) ∧
      (∀ r, srcSse s len (.mem a) = .refused r → sse (.refused r))) ∧
    (s.par.hasAVX = true → VexEnabled s →
      (∀ e, srcVex128 s len (.mem a) = .fault e → vex128 (.fault e)) ∧
      (∀ r, srcVex128 s len (.mem a) = .refused r → vex128 (.refused r))) ∧
    (s.par.hasAVX2 = true → VexEnabled s →
      (∀ e, srcVex256 s len (.mem a) = .fault e → vex256 (.fault e)) ∧
      (∀ r, srcVex256 s len (.mem a) = .refused r → vex256 (.refused r))) ∧
    (∀ (g : SegReg) (ea lin : Quad) (n j : Nat) (rule : AlignRule), segCheck s g ea n = .next lin →
      (rule = .sse16 → lin.toNat % 16 = 0) → (rule = .ac8 true → lin.toNat % 8 = 0) →
      let lo : Nat := if n = 16 ∧ s.par.narrowFetch = .high8 then 8 else 0
      (∀ k, lo ≤ k → k < n → Translates s (addrAdd s lin k) .read) → lo ≤ j → j < n →
      readableAt s (addrAdd s lin j) = false → memRead s g ea n rule = .refused .unreadable)

/-- R151 (column forms), R161: #MF and #AC only from MMX forms; a register-only form raises #UD, #NM or #MF; #SS only from
a memory operand through SS. -/
def Obligations.FaultsOfEachForm : Prop :=
  ∀ (i : Instr) (s : State) (e : Fault), exec i s = .fault e →
    ((fieldsOf i).kind ≠ .mmx → e ≠ .mf ∧ e ≠ .ac0) ∧
    ((∃ r, (fieldsOf i).src = .reg r) → e = .ud ∨ e = .nm ∨ e = .mf) ∧
    (e = .ss0 → ∃ a, (fieldsOf i).src = .mem a ∧ a.seg = .ss)

/-! ### Frames: what an instruction leaves unchanged -/

/-- R25, R36, R40: an MMX form that completes changes MM[d], pc and, when they are modelled, TOP, the tag word and the upper
part of R_d; every other register, every flag, every control register and every byte of memory is as before. -/
def Obligations.MmxFrame : Prop :=
  ∀ (s t : State) (d : MmReg) (src : Src MmReg) (len : Nat) (i : Instr),
    (i = .punpckhbwMm d src len ∨
      i = .punpckhwdMm d src len ∨
      i = .punpckhdqMm d src len) →
    exec i s = .next t →
      (∀ q : MmReg, q ≠ d → t.mm[q.toNat] = s.mm[q.toNat] ∧ t.x87Upper[q.toNat] = s.x87Upper[q.toNat]) ∧
      t.ymm = s.ymm ∧ t.par = s.par ∧ t.x = s.x ∧ t.mxcsr = s.mxcsr ∧ t.rflags = s.rflags ∧ t.cr0 = s.cr0 ∧ t.cr2 = s.cr2 ∧
      t.cr3 = s.cr3 ∧ t.cr4 = s.cr4 ∧ t.xcr0 = s.xcr0 ∧ t.x87Control = s.x87Control ∧ t.es = s.es ∧ t.cs = s.cs ∧
      t.ss = s.ss ∧ t.ds = s.ds ∧ t.fs = s.fs ∧ t.gs = s.gs ∧
      t.x87Status &&& 0xC7FF = s.x87Status &&& 0xC7FF ∧
      (s.par.modelX87 = false → t.x87Status = s.x87Status ∧ t.x87Tag = s.x87Tag ∧ t.x87Upper = s.x87Upper) ∧
      ∀ a : Nat, readByte t.mem a = readByte s.mem a

/-- R26, R40: an SSE form that completes changes YMM[d][127:0] and pc; YMM[d][255:128], every other register, every flag,
every control register and every byte of memory is as before. -/
def Obligations.SseFrame : Prop :=
  ∀ (s t : State) (d : XmmReg) (src : Src XmmReg) (len : Nat) (i : Instr),
    (i = .punpckhbwXmm d src len ∨
      i = .punpckhwdXmm d src len ∨
      i = .punpckhdqXmm d src len ∨
      i = .punpckhqdqXmm d src len) →
    exec i s = .next t →
      (∀ q : XmmReg, q ≠ d → t.ymm[q.toNat] = s.ymm[q.toNat]) ∧
      t.ymm[d.toNat].extractLsb' 128 128 = s.ymm[d.toNat].extractLsb' 128 128 ∧
      t.mm = s.mm ∧ t.x87Upper = s.x87Upper ∧ t.x87Status = s.x87Status ∧ t.x87Tag = s.x87Tag ∧
      t.par = s.par ∧ t.x = s.x ∧ t.mxcsr = s.mxcsr ∧ t.rflags = s.rflags ∧ t.cr0 = s.cr0 ∧ t.cr2 = s.cr2 ∧
      t.cr3 = s.cr3 ∧ t.cr4 = s.cr4 ∧ t.xcr0 = s.xcr0 ∧ t.x87Control = s.x87Control ∧ t.es = s.es ∧ t.cs = s.cs ∧
      t.ss = s.ss ∧ t.ds = s.ds ∧ t.fs = s.fs ∧ t.gs = s.gs ∧
      ∀ a : Nat, readByte t.mem a = readByte s.mem a

/-- R26, R40: a VEX form that completes changes YMM[d] and pc, a VEX.128 form zeroing YMM[d][255:128]; every other register,
every flag, every control register and every byte of memory is as before. -/
def Obligations.VexFrame : Prop :=
  ∀ (s t : State) (d x : XmmReg) (src : Src XmmReg) (len : Nat) (i : Instr),
    (i = .vpunpckhbwXmm d x src len ∨
      i = .vpunpckhwdXmm d x src len ∨
      i = .vpunpckhdqXmm d x src len ∨
      i = .vpunpckhqdqXmm d x src len ∨
      i = .vpunpckhbwYmm d x src len ∨
      i = .vpunpckhwdYmm d x src len ∨
      i = .vpunpckhdqYmm d x src len ∨
      i = .vpunpckhqdqYmm d x src len) →
    exec i s = .next t →
      (∀ q : XmmReg, q ≠ d → t.ymm[q.toNat] = s.ymm[q.toNat]) ∧
      ((fieldsOf i).kind = .vex128 → t.ymm[d.toNat].extractLsb' 128 128 = 0#128) ∧
      t.mm = s.mm ∧ t.x87Upper = s.x87Upper ∧ t.x87Status = s.x87Status ∧ t.x87Tag = s.x87Tag ∧
      t.par = s.par ∧ t.x = s.x ∧ t.mxcsr = s.mxcsr ∧ t.rflags = s.rflags ∧ t.cr0 = s.cr0 ∧ t.cr2 = s.cr2 ∧
      t.cr3 = s.cr3 ∧ t.cr4 = s.cr4 ∧ t.xcr0 = s.xcr0 ∧ t.x87Control = s.x87Control ∧ t.es = s.es ∧ t.cs = s.cs ∧
      t.ss = s.ss ∧ t.ds = s.ds ∧ t.fs = s.fs ∧ t.gs = s.gs ∧
      ∀ a : Nat, readByte t.mem a = readByte s.mem a

/-- R103, R134: in a VEX form the old value of operand 1 does not reach the result, other than by being named as operand 2 or
3: whatever YMM[d] held, the outcome is the same. -/
def Obligations.VexDestinationIsNotRead : Prop :=
  ∀ (s : State) (d x : XmmReg) (src : Src XmmReg) (len : Nat) (v : Yword) (i : Instr),
    (i = .vpunpckhbwXmm d x src len ∨
      i = .vpunpckhwdXmm d x src len ∨
      i = .vpunpckhdqXmm d x src len ∨
      i = .vpunpckhqdqXmm d x src len ∨
      i = .vpunpckhbwYmm d x src len ∨
      i = .vpunpckhwdYmm d x src len ∨
      i = .vpunpckhdqYmm d x src len ∨
      i = .vpunpckhqdqYmm d x src len) →
    x ≠ d → src ≠ .reg d →
    exec i (writeYmm s d v) = exec i s

/-! ### The step -/

/-- R106, R31, R77, R161(1), R175: the step runs the instruction decoded from the bytes fetched at pc (exec itself moves pc
past it); an undefined encoding is #UD, one outside the family is refused by name, and where the bytes end too soon the step
stops for the reason they ended, or with #GP(0) when 15 bytes do not complete an instruction. The model's choices here: that a
byte which cannot be fetched stops the step only where the decoder needs it (DEDUCED, log 22), that an undefined or refused
encoding is decided on the bytes fetched before it (DEDUCED, log 13), and that a byte outside the readable set is refused
(DESIGN CHOICE, log 8). -/
def Obligations.StepRunsTheDecodedInstruction : Prop :=
  ∀ (s : State) (ws : List Byte) (stop : Host.Outcome Unit Fault Refusal), fetchRun s 15 0 = (ws, stop) →
    (∀ i, decode s.par.mode ws = .ok i → step s = exec i s) ∧
    (decode s.par.mode ws = .undefinedOpcode → step s = .fault .ud) ∧
    (decode s.par.mode ws = .rejected .notOfFamily → step s = .refused .notOfFamily) ∧
    (decode s.par.mode ws = .rejected .reservedPrefix → step s = .refused .reservedPrefix) ∧
    (decode s.par.mode ws = .short →
      (stop = .next () → step s = .fault .gp0) ∧ (∀ e, stop = .fault e → step s = .fault e) ∧
      (∀ r, stop = .refused r → step s = .refused r))

/-- R51, R59, R64, R175: the fetch reads the bytes of the instruction in address order, at any alignment: in 64-bit mode at
pc, pc + 1, ..., each canonical; in 32-bit operation at CS base + EIP, CS base + EIP + 1, ... modulo 2^32, each within the CS
limit; through the identity translation or a page table (log 7), where every address is readable (log 8). -/
def Obligations.FetchReadsTheBytesAtPc : Prop :=
  ∀ (s : State) (n : Nat), s.par.mode ≠ .real → n ≤ 15 → (∀ k, k < n → CodeByteOk s k) →
    (∀ k, k < n → readableAt s (codeAddr s k) = true) →
    (s.par.paging = .identity →
      fetchRun s n 0 = ((List.range n).map fun k => readByte s.mem (codeAddr s k).toNat, .next ())) ∧
    (∀ (rows : List PageRow) (frame : Nat → Nat), s.par.paging = .table rows →
      (∀ k, k < n →
        findPage rows ((codeAddr s k).toNat / 4096) .fetch (decide (cpl s = 3)) = .frame (frame k)) →
      fetchRun s n 0 =
        ((List.range n).map fun k => readByte s.mem (frame k * 4096 + (codeAddr s k).toNat % 4096), .next ()))

/-- R175, R151 (#PF: instruction fetch), R158, R64: where the first k bytes at pc are fetched and do not complete the
instruction, byte k outside the CS limit, or not canonical in 64-bit mode, raises #GP(0), and without a translation #PF with
its linear address and W/R = 0, U/S, and I/D where execute-disable applies, in the code; and a byte k that translates but is not
readable is refused (log 8). k = 0 is pc itself. (Which byte the
decoder needs: log 22; the table, the I/D parameter and the code's open bits: log 7; real-address mode: log 3.) -/
def Obligations.FetchStops : Prop :=
  ∀ (s : State) (k : Nat) (bs : List Byte), k < 15 → fetchRun s k 0 = (bs, .next ()) →
    decode s.par.mode bs = .short →
    (¬ CodeByteOk s k → step s = .fault .gp0) ∧
    (∀ (rows : List PageRow) (cause : BitVec 32), s.par.mode ≠ .real → s.par.paging = .table rows → CodeByteOk s k →
      findPage rows ((codeAddr s k).toNat / 4096) .fetch (decide (cpl s = 3)) = .fault cause →
      step s = .fault (.pf
        ((cause &&& 0xFFFFFFE9#32) ||| (if cpl s = 3 then 4#32 else 0#32) |||
          (if s.par.executeDisable then 16#32 else 0#32))
        (codeAddr s k))) ∧
    (CodeByteOk s k → Translates s (codeAddr s k) .fetch → readableAt s (codeAddr s k) = false →
      step s = .refused .unreadable)

/-- R77, R158(c): an encoding longer than 15 bytes, possible only by repeating prefixes, raises #GP(0): here fifteen prefix
bytes, of which an instruction could only follow. -/
def Obligations.FifteenPrefixesFault : Prop :=
  ∀ (s : State) (ws : List Byte), fetchRun s 15 0 = (ws, .next ()) →
    (∀ w, w ∈ ws → w ∈ [0x66, 0x67, 0x26, 0x2E, 0x36, 0x3E, 0x64, 0x65, 0xF0, 0xF2, (0xF3 : Byte)]) →
    step s = .fault .gp0

/-- R31, R51, R75, R76, R106, R175: in every mode, the encoding of any well-formed instruction placed at pc (in 32-bit operation
at CS base + EIP), whatever bytes follow it in memory or beyond the limit, is what the next step fetches, decodes and runs.
(That bytes after the instruction do not stop the step: log 22; the encoder's lengths: log 11; real-address mode: log 3.) -/
def Obligations.StoredEncodingRuns : Prop :=
  ∀ (s : State) (i : Instr), Memory.wf s.mem = true → OrdinaryMemory s →
    (∀ k, k < (fieldsOf i).len → CodeByteOk s k) → wellFormed s.par.mode i = true →
    let bytes : List Byte := encode s.par.mode i
    let t : State := placeBytes s 0 bytes
    step t = exec i t ∧ (s.par.mode = .m64 → launchWith s bytes = t)

/-! ### Rules about the whole machine -/

/-- R30, R39: the state after reset meets the invariant every step keeps. -/
def Obligations.ResetMeetsTheInvariant : Prop :=
  MachineInv State.reset

/-- R30, R31, R39: every step that completes keeps memory in canonical form and, outside 64-bit mode, pc[63:32] = 0. -/
def Obligations.StepKeepsTheInvariant : Prop :=
  ∀ s t : State, MachineInv s → step s = .next t → MachineInv t

/-- R28, R29, R31, R32, R40, R50, R71, R77: whatever instruction a step runs, it writes no memory, no flag, no MXCSR, no general,
control or segment register and no parameter; of the x87 status word it writes TOP only; and pc moves on by 3 to 15
bytes. -/
def Obligations.StepChangesOnlySimdStateAndPc : Prop :=
  ∀ s t : State, step s = .next t →
    t = { s with
      mm := t.mm
      x87Upper := t.x87Upper
      ymm := t.ymm
      x87Status := t.x87Status
      x87Tag := t.x87Tag
      pc := t.pc } ∧
    t.x87Status &&& 0xC7FF = s.x87Status &&& 0xC7FF ∧
    ∃ len, 3 ≤ len ∧ len ≤ 15 ∧ t.pc = nextPc s len

/-- R130: no form reads or writes EFLAGS status flags or MXCSR: two runs of an instruction that differ only in MXCSR and in
flags other than AC (bit 18) end alike, with those as they were. -/
def Obligations.FlagsAndMxcsrAreNeitherReadNorWritten : Prop :=
  ∀ (i : Instr) (s : State) (f : Quad) (c : BitVec 32), f.getLsbD 18 = s.rflags.getLsbD 18 →
    match exec i s with
    | .next t => exec i { s with rflags := f, mxcsr := c } = .next { t with rflags := f, mxcsr := c }
    | .fault e => exec i { s with rflags := f, mxcsr := c } = .fault e
    | .refused r => exec i { s with rflags := f, mxcsr := c } = .refused r

/-- R54: where the full fetch of a 128-bit operand completes, the fetch of its upper 8 bytes completes with the same
result. -/
def Obligations.NarrowFetchGivesTheSameResult : Prop :=
  ∀ (i : Instr) (s t : State), s.par.narrowFetch = .full → exec i s = .next t →
    exec i { s with par := { s.par with narrowFetch := .high8 } } =
      .next { t with par := { t.par with narrowFetch := .high8 } }

/-- R191, R32, R71: a run that ends successfully ends at the launch's EndAddr, with the launch's parameters, memory, general
registers and flags. -/
def Obligations.RunEndsAtEndAddr : Prop :=
  ∀ (fuel : Nat) (s t : State), MachineInv s → runToEnd fuel s = .done t →
    t.pc = s.par.endAddr ∧ t.par = s.par ∧ t.mem = s.mem ∧ t.x = s.x ∧ t.rflags = s.rflags ∧ MachineInv t

/-- R41: what reset leaves, for every piece of state the table gives one value (EAX and EDX, whose values the table
leaves to the self-test and the model, are log 4's). -/
def Obligations.ResetValues : Prop :=
  let r := State.reset
  r.mm = Vector.replicate 8 0 ∧ r.ymm = Vector.replicate 16 0 ∧ r.x87Upper = Vector.replicate 8 0 ∧
  (∀ n : Fin 16, n ≠ 0 → n ≠ 2 → r.x[n] = 0) ∧
  r.mxcsr = 0x1F80 ∧ r.rflags = 2 ∧ r.pc = 0xFFF0 ∧ r.cr0 = 0x60000010 ∧ r.cr2 = 0 ∧ r.cr3 = 0 ∧ r.cr4 = 0 ∧
  r.xcr0 = 1 ∧ r.x87Control = 0x40 ∧ r.x87Status = 0 ∧ r.x87Tag = 0x5555 ∧ cpl r = 0 ∧ r.par.mode = .real ∧
  r.cs.selector = 0xF000 ∧ r.cs.base = 0xFFFF0000 ∧ r.cs.limit = 0xFFFF ∧
  (∀ g : SegReg, g ≠ .cs →
    (segment r g).selector = 0 ∧ (segment r g).base = 0 ∧ (segment r g).limit = 0xFFFF)

/-- R41 (consequences at reset; inferences the spec marks as its own): with the control bits reset leaves, the SSE and VEX
forms raise #UD and the MMX forms on registers execute, whatever the registers hold (real-address mode and the feature
flags: log 3, log 1). -/
def Obligations.ConsequencesOfReset : Prop :=
  let bits (s : State) : Prop := s.cr0 = State.reset.cr0 ∧ s.cr4 = State.reset.cr4 ∧ s.xcr0 = State.reset.xcr0 ∧
    s.x87Status = State.reset.x87Status ∧ s.par = State.reset.par
  ∀ s : State, bits s →
    (∀ (i : Instr), (fieldsOf i).kind ≠ .mmx → exec i s = .fault .ud) ∧
    (∀ (i : Instr) (r : BitVec 4), (fieldsOf i).kind = .mmx → (fieldsOf i).src = .reg r →
      ∃ t, exec i s = .next t)

/-- R41 (column after INIT): what INIT leaves and what it does not touch; CR0.CD and CR0.NW, which it leaves, are bits 30 and
29, and memory stays (log 19). -/
def Obligations.InitValues : Prop :=
  ∀ s : State, let r := afterInit s
    r.mm = s.mm ∧ r.x87Upper = s.x87Upper ∧ r.ymm = s.ymm ∧ r.mxcsr = s.mxcsr ∧ r.xcr0 = s.xcr0 ∧
    r.x87Control = s.x87Control ∧ r.x87Status = s.x87Status ∧ r.x87Tag = s.x87Tag ∧ r.mem = s.mem ∧
    (∀ n : Fin 16, n ≠ 2 → r.x[n] = 0) ∧ r.rflags = 2 ∧ r.pc = 0xFFF0 ∧
    (∀ n, n < 64 → r.cr0.getLsbD n = (decide (n = 4) || (decide (n = 29 ∨ n = 30) && s.cr0.getLsbD n))) ∧
    r.cr2 = 0 ∧ r.cr3 = 0 ∧ r.cr4 = 0 ∧ cpl r = 0 ∧ r.par.mode = .real ∧
    r.cs.selector = 0xF000 ∧ r.cs.base = 0xFFFF0000 ∧ r.cs.limit = 0xFFFF ∧
    (∀ g : SegReg, g ≠ .cs →
      (segment r g).selector = 0 ∧ (segment r g).base = 0 ∧ (segment r g).limit = 0xFFFF)

/-- R151, R64: the vector and the error code of every exception; the code of a page fault of an operand has W/R = 0,
I/D = 0 and U/S = 1 exactly at CPL 3. -/
def Obligations.ExceptionVectorsAndCodes : Prop :=
  (∀ e : Fault, faultVector e = match e with
    | .ud => 6
    | .nm => 7
    | .ss0 => 12
    | .gp0 => 13
    | .pf _ _ => 14
    | .mf => 16
    | .ac0 => 17) ∧
  (∀ e : Fault, faultErrorCode e = none ↔ e = .ud ∨ e = .nm ∨ e = .mf) ∧
  (∀ e : Fault, e = .ss0 ∨ e = .gp0 ∨ e = .ac0 → faultErrorCode e = some 0) ∧
  (∀ (i : Instr) (s : State) (code : BitVec 32) (a : Quad), exec i s = .fault (.pf code a) →
    code &&& 0x12#32 = 0#32 ∧ (code.getLsbD 2 = true ↔ cpl s = 3) ∧
    faultErrorCode (.pf code a) = some code ∧ faultCr2 (.pf code a) = some a)
end

