-- ==== Sys2Proof/Laws/Bits.lean ====
section
/-! SUPPORT. The bits of the vectors built by `ofBits`: values read from bytes (R51) and the interleave (R125). -/

namespace Sys2Proof.Machine

@[simp] theorem getLsbD_ofBits (n : Nat) (f : Nat → Bool) (i : Nat) :
    (ofBits n f).getLsbD i = (decide (i < n) && f i) := by
  induction n with
  | zero => simp [ofBits]
  | succ n ih =>
    rw [ofBits, BitVec.getLsbD_cons]
    by_cases h : i = n
    · simp [h]
    · rw [if_neg h, ih, show decide (i < n + 1) = decide (i < n) from by
        congr 1; exact propext ⟨fun _ => by omega, fun _ => by omega⟩]

@[simp] theorem getElem_ofBits (n : Nat) (f : Nat → Bool) (i : Nat) (h : i < n) : (ofBits n f)[i] = f i := by
  rw [← BitVec.getLsbD_eq_getElem, getLsbD_ofBits, decide_eq_true h, Bool.true_and]

/-- R51: byte `k` of a value read in address order is byte `k` of the list. -/
theorem leValue_byte (n k : Nat) (bytes : List Byte) (h : 8 * k + 8 ≤ n) :
    (leValue n bytes).extractLsb' (8 * k) 8 = bytes.getD k 0 := by
  apply BitVec.eq_of_getLsbD_eq
  intro i hi
  have h1 : (8 * k + i) / 8 = k := by omega
  have h2 : (8 * k + i) % 8 = i := by omega
  have h3 : 8 * k + i < n := by omega
  rw [BitVec.getLsbD_extractLsb', leValue, getLsbD_ofBits, h1, h2, decide_eq_true hi, decide_eq_true h3,
    Bool.true_and, Bool.true_and]

/-- R125, bit by bit: bit `p` of the result is bit `p % w` of element `p / w`. -/
@[simp] theorem getLsbD_interleaveHigh {size : Nat} (w lane : Nat) (a b : BitVec size) (p : Nat) :
    (interleaveHigh w lane a b).getLsbD p =
      (decide (p < size) && (highElem w lane a b (p / w)).getLsbD (p % w)) :=
  getLsbD_ofBits _ _ _

@[simp] theorem getLsbD_elem {n : Nat} (w : Nat) (v : BitVec n) (i p : Nat) :
    (elem w v i).getLsbD p = (decide (p < w) && v.getLsbD (w * i + p)) :=
  BitVec.getLsbD_extractLsb' _ _ _ _

/-- R115: the result has element `k` where R125 puts it. -/
theorem elem_interleaveHigh {size : Nat} (w lane k : Nat) (a b : BitVec size) (hw : 0 < w)
    (h : w * k + w ≤ size) : elem w (interleaveHigh w lane a b) k = highElem w lane a b k := by
  apply BitVec.eq_of_getLsbD_eq
  intro p hp
  have h1 : (w * k + p) / w = k := by
    rw [Nat.mul_add_div hw, Nat.div_eq_of_lt hp, Nat.add_zero]
  have h2 : (w * k + p) % w = p := by rw [Nat.mul_add_mod, Nat.mod_eq_of_lt hp]
  have h3 : w * k + p < size := by omega
  rw [getLsbD_elem, getLsbD_interleaveHigh, h1, h2, decide_eq_true hp, decide_eq_true h3, Bool.true_and,
    Bool.true_and]

end Sys2Proof.Machine
end

