-- ==== Sys2Proof/Laws/Decode.lean ====
section
/-! SUPPORT. What the decoder does with the prefix bytes before an opcode. -/

namespace Sys2Proof

open Config (Mode)
open Safety (PrefixByte legacyPrefixBytes)

/-- The byte list of R78 holds exactly the bytes the decoder reads as legacy prefixes. -/
theorem legacyPrefix_isSome (w : Byte) : (legacyPrefix? w).isSome = true ↔ w ∈ legacyPrefixBytes := by
  revert w; decide +kernel

/-- No legacy prefix byte is a REX byte. -/
theorem legacyPrefix_of_rex (w : Byte) (h : w.extractLsb' 4 4 = 4#4) : legacyPrefix? w = none := by
  revert h; revert w; decide +kernel

/-- What one prefix byte does to the prefixes read before it. -/
def prefixStep (p : Prefixes) (w : Byte) : Prefixes :=
  match legacyPrefix? w with
  | some k => addLegacy p k
  | none => addRex p w

/-- A prefix byte is read, and the scan goes on. -/
theorem scanPrefixes_cons {m : Mode} {w : Byte} (h : PrefixByte m w) (p : Prefixes) (ws : List Byte) :
    scanPrefixes m p (w :: ws) = scanPrefixes m (prefixStep p w) ws := by
  rcases h with h | ⟨hm, hr⟩
  · obtain ⟨k, hk⟩ := Option.isSome_iff_exists.1 ((legacyPrefix_isSome w).2 h)
    simp [scanPrefixes, prefixStep, hk]
  · simp [scanPrefixes, prefixStep, legacyPrefix_of_rex w hr, hm, isRex, hr]

/-- Any other byte ends the scan. -/
theorem scanPrefixes_stop {m : Mode} {w : Byte} (h : ¬ PrefixByte m w) (p : Prefixes) (ws : List Byte) :
    scanPrefixes m p (w :: ws) = (p, w :: ws) := by
  have hn : legacyPrefix? w = none := by
    cases hk : legacyPrefix? w with
    | none => rfl
    | some k => exact absurd (.inl ((legacyPrefix_isSome w).1 (by rw [hk]; rfl))) h
  have hr : ¬ (m = .m64 ∧ isRex w = true) := fun hx => h (.inr ⟨hx.1, by simpa [isRex] using hx.2⟩)
  simp only [scanPrefixes, hn, if_neg hr]

/-- A list of prefix bytes is read from its first to its last. -/
theorem scanPrefixes_append {m : Mode} {ps : List Byte} (h : ∀ w, w ∈ ps → PrefixByte m w) (p : Prefixes)
    (ws : List Byte) : scanPrefixes m p (ps ++ ws) = scanPrefixes m (ps.foldl prefixStep p) ws := by
  induction ps generalizing p with
  | nil => rfl
  | cons w ps ih =>
    rw [List.cons_append, scanPrefixes_cons (h w List.mem_cons_self)]
    exact ih (fun x hx => h x (List.mem_cons_of_mem _ hx)) _

/-- R106 steps 1 and 2: where prefix bytes stand before a byte that is none, the decoder reads on from that byte. -/
theorem decode_prefixes {m : Mode} {ps : List Byte} {w : Byte} (h : ∀ b, b ∈ ps → PrefixByte m b)
    (hw : ¬ PrefixByte m w) (ws : List Byte) :
    decode m (ps ++ w :: ws) = decodeBody m (ps.foldl prefixStep {}) (ps ++ w :: ws).length (w :: ws) := by
  unfold decode
  rw [scanPrefixes_append h, scanPrefixes_stop hw]

end Sys2Proof
end

