-- ==== Sys2Proof/Laws/Ops.lean ====
section
/-! SUPPORT. One lemma per shared operation that says once everything it can do. -/

namespace Sys2Proof.Machine

open Config

/-! ### Sequencing -/

@[simp] theorem andThen_next {α β : Type} (a : α) (f : α → Res β) : andThen (.next a) f = f a := rfl

@[simp] theorem andThen_fault {α β : Type} (e : Fault) (f : α → Res β) :
    andThen (.fault e) f = .fault e := rfl

@[simp] theorem andThen_refused {α β : Type} (e : Refusal) (f : α → Res β) :
    andThen (.refused e) f = .refused e := rfl

/-- A sequence answers a value exactly when both its parts do. -/
theorem andThen_eq_next {α β : Type} (r : Res α) (f : α → Res β) (b : β) :
    andThen r f = .next b ↔ ∃ a, r = .next a ∧ f a = .next b := by
  cases r <;> simp [andThen]

/-- A sequence faults when its first part does, or its second on the first's value. -/
theorem andThen_eq_fault {α β : Type} (r : Res α) (f : α → Res β) (e : Fault) :
    andThen r f = .fault e ↔ r = .fault e ∨ ∃ a, r = .next a ∧ f a = .fault e := by
  cases r <;> simp [andThen]

theorem andThen_eq_refused {α β : Type} (r : Res α) (f : α → Res β) (e : Refusal) :
    andThen r f = .refused e ↔ r = .refused e ∨ ∃ a, r = .next a ∧ f a = .refused e := by
  cases r <;> simp [andThen]

/-! ### Addresses -/

theorem addrAdd_m64 {s : State} (h : s.par.mode = .m64) (a : Quad) (n : Nat) :
    addrAdd s a n = a + BitVec.ofNat 64 n := by
  simp [addrAdd, h]

theorem addrAdd_low {s : State} (h : s.par.mode ≠ .m64) (a : Quad) (n : Nat) :
    addrAdd s a n = low32 (a + BitVec.ofNat 64 n) := by
  unfold addrAdd
  split
  · next hm => exact absurd hm h
  · rfl

/-- A 32-bit address has 0 in bits 63:32. -/
theorem high_low32 (a : Quad) : (low32 a).extractLsb' 32 32 = 0#32 := by
  apply BitVec.eq_of_getLsbD_eq
  intro i hi
  simp [low32, hi]

/-- R62: what the segment check can answer: an address, or #SS(0) through SS and #GP(0) otherwise. -/
theorem segCheck_cases (s : State) (g : SegReg) (ea : Quad) (n : Nat) :
    (∃ lin, segCheck s g ea n = .next lin) ∨ segCheck s g ea n = .fault .gp0 ∨
      (g = .ss ∧ segCheck s g ea n = .fault .ss0) := by
  have hf : segFault g = .gp0 ∨ (g = .ss ∧ segFault g = .ss0) := by cases g <;> simp [segFault]
  unfold segCheck
  split
  · dsimp only
    split
    · exact .inl ⟨_, rfl⟩
    · rcases hf with h | ⟨h, h'⟩
      · exact .inr (.inl (by rw [h]))
      · exact .inr (.inr ⟨h, by rw [h']⟩)
  · split
    · exact .inl ⟨_, rfl⟩
    · rcases hf with h | ⟨h, h'⟩
      · exact .inr (.inl (by rw [h]))
      · exact .inr (.inr ⟨h, by rw [h']⟩)
  · split
    · exact .inl ⟨_, rfl⟩
    · exact .inr (.inl rfl)

/-! ### Translation -/

@[simp] theorem translate_identity {s : State} (h : s.par.paging = .identity) (lin : Quad) (acc : Access) :
    translate s lin acc = .next lin.toNat := by
  unfold translate
  split <;> simp_all

/-- R64: what `Translate` can answer: an address, or #PF that names the address it was asked for. -/
theorem translate_cases (s : State) (lin : Quad) (acc : Access) :
    (∃ p, translate s lin acc = .next p) ∨ ∃ code, translate s lin acc = .fault (.pf code lin) := by
  unfold translate
  split
  · exact .inl ⟨_, rfl⟩
  · exact .inl ⟨_, rfl⟩
  · dsimp only
    split
    · exact .inl ⟨_, rfl⟩
    · exact .inr ⟨_, rfl⟩

/-- With the identity translation the bytes of an operand are at their linear addresses. -/
theorem translateAll_identity {s : State} (h : s.par.paging = .identity) (lin : Quad) (ks : List Nat) :
    translateAll s lin ks = .next (ks.map fun k => (addrAdd s lin k).toNat) := by
  induction ks with
  | nil => rfl
  | cons k ks ih => simp [translateAll, h, ih]

/-- The translation of an operand's bytes answers their addresses, or a page fault at one of them. -/
theorem translateAll_cases (s : State) (lin : Quad) (ks : List Nat) :
    (∃ ps, translateAll s lin ks = .next ps) ∨
      ∃ k ∈ ks, ∃ code, translateAll s lin ks = .fault (.pf code (addrAdd s lin k)) := by
  induction ks with
  | nil => exact .inl ⟨_, rfl⟩
  | cons k ks ih =>
    unfold translateAll
    rcases translate_cases s (addrAdd s lin k) .read with ⟨p, hp⟩ | ⟨code, hp⟩
    · rcases ih with ⟨ps, h⟩ | ⟨j, hj, code, h⟩
      · exact .inl ⟨p :: ps, by simp [hp, h]⟩
      · exact .inr ⟨j, List.mem_cons_of_mem _ hj, code, by simp [hp, h]⟩
    · exact .inr ⟨k, List.mem_cons_self, code, by simp [hp]⟩

/-! ### The data read -/

/-- R72: everything a data read can do. -/
theorem memRead_cases (s : State) (g : SegReg) (ea : Quad) (n : Nat) (rule : AlignRule) :
    (∃ v, memRead s g ea n rule = .next v) ∨ memRead s g ea n rule = .fault .gp0 ∨
      (g = .ss ∧ memRead s g ea n rule = .fault .ss0) ∨
      (∃ code a, memRead s g ea n rule = .fault (.pf code a)) ∨
      (rule = .ac8 true ∧ memRead s g ea n rule = .fault .ac0) ∨
      memRead s g ea n rule = .refused .unreadable := by
  unfold memRead
  rcases segCheck_cases s g ea n with ⟨lin, h⟩ | h | ⟨hg, h⟩
  · simp only [h, andThen_next]
    split
    · exact .inr (.inl rfl)
    · rcases translateAll_cases s lin (fetchedOffsets s n) with ⟨ps, hp⟩ | ⟨k, -, code, hp⟩
      · simp only [hp, andThen_next]
        split
        · next hac =>
          refine .inr (.inr (.inr (.inr (.inl ⟨?_, rfl⟩))))
          cases rule with
          | any => simp [misalignedAc] at hac
          | sse16 => simp [misalignedAc] at hac
          | ac8 on => simp only [misalignedAc, Bool.and_eq_true] at hac; rw [hac.1]
        · split
          · exact .inl ⟨_, rfl⟩
          · exact .inr (.inr (.inr (.inr (.inr rfl))))
      · exact .inr (.inr (.inr (.inl ⟨code, addrAdd s lin k, by rw [hp]; rfl⟩)))
  · exact .inr (.inl (by simp [h]))
  · exact .inr (.inr (.inl ⟨hg, by simp [h]⟩))

/-- R72, when the read answers: its parts answered, and the value is that of the bytes read. -/
theorem memRead_next {s : State} {g : SegReg} {ea : Quad} {n : Nat} {rule : AlignRule} {v : BitVec (8 * n)} :
    memRead s g ea n rule = .next v ↔
      ∃ lin ps, segCheck s g ea n = .next lin ∧ misalignedGp rule lin = false ∧
        translateAll s lin (fetchedOffsets s n) = .next ps ∧ misalignedAc rule lin = false ∧
        (fetchedOffsets s n).all (fun k => readableAt s (addrAdd s lin k)) = true ∧
        v = leValue (8 * n) (List.replicate (n - (fetchedOffsets s n).length) 0 ++ ps.map (readByte s.mem)) := by
  unfold memRead
  rw [andThen_eq_next]
  constructor
  · rintro ⟨lin, hl, h⟩
    split at h
    · cases h
    · next hgp =>
      rw [andThen_eq_next] at h
      obtain ⟨ps, hp, h⟩ := h
      split at h
      · cases h
      · next hac =>
        split at h
        · next hr =>
          cases h
          exact ⟨lin, ps, hl, by simpa using hgp, hp, by simpa using hac, hr, rfl⟩
        · cases h
  · rintro ⟨lin, ps, hl, hgp, hp, hac, hr, rfl⟩
    exact ⟨lin, hl, by simp [hgp, hp, hac, hr]⟩

/-! ### The gates before the operands -/

/-- R155: what the first gate can do. -/
theorem gateNm_cases (ud : Bool) (s : State) :
    (ud = true ∧ gateNm ud s = .fault .ud) ∨ (ud = false ∧ cr0TS s = true ∧ gateNm ud s = .fault .nm) ∨
      (ud = false ∧ cr0TS s = false ∧ gateNm ud s = .next ()) := by
  unfold gateNm
  cases ud <;> cases cr0TS s <;> simp

/-- R156: what the x87 gate can do. -/
theorem gateMf_cases (s : State) :
    (x87Pending s = true ∧ cr0NE s = true ∧ gateMf s = .fault .mf) ∨
      (x87Pending s = true ∧ cr0NE s = false ∧ gateMf s = .refused .x87ErrorExternal) ∨
      (x87Pending s = false ∧ gateMf s = .next ()) := by
  unfold gateMf
  cases x87Pending s <;> cases cr0NE s <;> simp

/-! ### The steps of the four kinds of form -/

/-- R131: an MMX form answers a state exactly when its gate and its operand do. -/
theorem stepMmx_next {w : Nat} {d : MmReg} {src : Src MmReg} {len : Nat} {s t : State} :
    stepMmx w d src len s = .next t ↔
      gateMmx s = .next () ∧ ∃ b, srcMm s len src = .next b ∧
        t = finishMmx s d (high64 w (readMm s d) b) len := by
  unfold stepMmx
  simp only [andThen_eq_next]
  constructor
  · rintro ⟨⟨⟩, hg, b, hb, h⟩
    cases h
    exact ⟨hg, b, hb, rfl⟩
  · rintro ⟨hg, b, hb, rfl⟩
    exact ⟨(), hg, b, hb, rfl⟩

/-- R132: an SSE form answers a state exactly when its gate and its operand do. -/
theorem stepSse_next {w : Nat} {d : XmmReg} {src : Src XmmReg} {len : Nat} {s t : State} :
    stepSse w d src len s = .next t ↔
      gateSse s = .next () ∧ ∃ b, srcSse s len src = .next b ∧
        t = advance (writeXmmKeep s d (high128 w (readXmm s d) b)) len := by
  unfold stepSse
  simp only [andThen_eq_next]
  constructor
  · rintro ⟨⟨⟩, hg, b, hb, h⟩
    cases h
    exact ⟨hg, b, hb, rfl⟩
  · rintro ⟨hg, b, hb, rfl⟩
    exact ⟨(), hg, b, hb, rfl⟩

/-- R133, N = 128: a VEX.128 form answers a state exactly when its gate and its operand do. -/
theorem stepVex128_next {w : Nat} {d a : XmmReg} {src : Src XmmReg} {len : Nat} {s t : State} :
    stepVex128 w d a src len s = .next t ↔
      gateVex128 s = .next () ∧ ∃ b, srcVex128 s len src = .next b ∧
        t = advance (writeXmmZero s d (high128 w (readXmm s a) b)) len := by
  unfold stepVex128
  simp only [andThen_eq_next]
  constructor
  · rintro ⟨⟨⟩, hg, b, hb, h⟩
    cases h
    exact ⟨hg, b, hb, rfl⟩
  · rintro ⟨hg, b, hb, rfl⟩
    exact ⟨(), hg, b, hb, rfl⟩

/-- R133, N = 256: a VEX.256 form answers a state exactly when its gate and its operand do. -/
theorem stepVex256_next {w : Nat} {d a : XmmReg} {src : Src XmmReg} {len : Nat} {s t : State} :
    stepVex256 w d a src len s = .next t ↔
      gateVex256 s = .next () ∧ ∃ b, srcVex256 s len src = .next b ∧
        t = advance (writeYmm s d (high256 w (readYmm s a) b)) len := by
  unfold stepVex256
  simp only [andThen_eq_next]
  constructor
  · rintro ⟨⟨⟩, hg, b, hb, h⟩
    cases h
    exact ⟨hg, b, hb, rfl⟩
  · rintro ⟨hg, b, hb, rfl⟩
    exact ⟨(), hg, b, hb, rfl⟩

/-! ### Fetch and step -/

/-- What a step can do: stop at the fetch, or run the instruction it decoded. -/
theorem step_cases (s : State) :
    (∃ i, fetchDecode s = .next i ∧ step s = exec i s) ∨
      (∃ e, fetchDecode s = .fault e ∧ step s = .fault e) ∨
      ∃ r, fetchDecode s = .refused r ∧ step s = .refused r := by
  unfold step
  cases fetchDecode s <;> simp

/-- A step that answers a state ran an instruction the decoder read at `pc`. -/
theorem step_next {s t : State} (h : step s = .next t) : ∃ i, fetchDecode s = .next i ∧ exec i s = .next t := by
  rcases step_cases s with ⟨i, hi, hs⟩ | ⟨e, -, hs⟩ | ⟨r, -, hs⟩
  · exact ⟨i, hi, hs ▸ h⟩
  · rw [hs] at h; cases h
  · rw [hs] at h; cases h

/-- The fetch answers an instruction exactly when the decoder reads it from the bytes fetched. -/
theorem fetchDecode_next {s : State} {i : Instr} :
    fetchDecode s = .next i ↔ decode s.par.mode (fetchRun s maxLen 0).1 = .ok i := by
  unfold fetchDecode
  dsimp only
  cases h : decode s.par.mode (fetchRun s maxLen 0).1 with
  | ok j => simp [decoded]
  | undefinedOpcode => simp [decoded]
  | rejected r => cases r <;> simp [decoded]
  | short => simp [decoded, andThen_eq_next]

end Sys2Proof.Machine
end

