-- ==== Sys2Proof/Laws/Fetch.lean ====
section
/-! SUPPORT. What the fetch and a translation through a table can do, in the terms of Sys2Proof.Safety. -/

namespace Sys2Proof.Machine

open Config Safety

/-- The low 32 bits of an address as a number. -/
theorem toNat_low32 (a : Quad) : (low32 a).toNat = a.toNat % 2 ^ 32 := by
  simp only [low32, BitVec.toNat_setWidth]
  omega

/-- R175: a byte of the instruction that passes the check of its mode is at its linear address; any other is
#GP(0). -/
theorem fetchLinear_eq (s : State) (k : Nat) :
    (CodeByteOk s k → fetchLinear s k = .next (codeAddr s k)) ∧
      (¬ CodeByteOk s k → fetchLinear s k = .fault .gp0) := by
  by_cases hm : s.par.mode = .m64
  · have h := addrAdd_m64 hm s.pc k
    simp only [CodeByteOk, codeAddr, fetchLinear, hm, h, if_true]
    constructor <;> intro hc <;> simp [hc]
  · have hoff : ((addrAdd s s.pc k).setWidth 32).ule s.cs.limit = decide ((s.pc.toNat + k) % 2 ^ 32 ≤ s.cs.limit.toNat) := by
      simp only [BitVec.ule, BitVec.toNat_setWidth, addrAdd_low hm, toNat_low32, BitVec.toNat_add, BitVec.toNat_ofNat]
      congr 2
      omega
    have hlin : low32 (s.cs.base + addrAdd s s.pc k) =
        BitVec.ofNat 64 ((s.cs.base.toNat + s.pc.toNat + k) % 2 ^ 32) := by
      apply BitVec.eq_of_toNat_eq
      simp only [addrAdd_low hm, toNat_low32, BitVec.toNat_add, BitVec.toNat_ofNat]
      omega
    have hf : fetchLinear s k =
        if ((addrAdd s s.pc k).setWidth 32).ule s.cs.limit then .next (low32 (s.cs.base + addrAdd s s.pc k))
        else .fault .gp0 := by
      unfold fetchLinear
      dsimp only
      split
      · next h => exact absurd h hm
      · rfl
    simp only [CodeByteOk, codeAddr, if_neg hm, hf, hoff, hlin, decide_eq_true_eq]
    exact ⟨fun hc => if_pos hc, fun hc => if_neg hc⟩

/-- R64: what a table answers for an address. -/
theorem translate_table {s : State} {rows : List PageRow} (hm : s.par.mode ≠ .real) (h : s.par.paging = .table rows)
    (lin : Quad) (acc : Access) :
    translate s lin acc =
      match findPage rows (lin.toNat / 4096) acc (decide (cpl s = 3)) with
      | .frame n => .next (n * 4096 + lin.toNat % 4096)
      | .fault cause =>
        .fault (.pf (pfCode cause (decide (cpl s = 3)) (decide (acc = .fetch) && s.par.executeDisable)) lin) := by
  have hcases : s.par.mode = .m64 ∨ s.par.mode = .m32 := by
    cases hs : s.par.mode
    · exact .inl rfl
    · exact .inr rfl
    · exact absurd hs hm
  unfold translate
  rcases hcases with h' | h' <;> rw [h', h] <;> rfl

/-- A byte that answers stands before those fetched after it. -/
theorem fetchRun_next {s : State} {b : Byte} (n k : Nat) (h : fetchByte s k = .next b) :
    fetchRun s (n + 1) k = (b :: (fetchRun s n (k + 1)).1, (fetchRun s n (k + 1)).2) := by
  conv => lhs; unfold fetchRun
  rw [h]

/-- A byte that faults ends the fetch. -/
theorem fetchRun_fault {s : State} {e : Fault} (n k : Nat) (h : fetchByte s k = .fault e) :
    fetchRun s (n + 1) k = ([], .fault e) := by
  conv => lhs; unfold fetchRun
  rw [h]

/-- A byte that is refused ends the fetch. -/
theorem fetchRun_refused {s : State} {r : Refusal} (n k : Nat) (h : fetchByte s k = .refused r) :
    fetchRun s (n + 1) k = ([], .refused r) := by
  conv => lhs; unfold fetchRun
  rw [h]

/-- Where every byte answers, the fetch gives them in address order. -/
theorem fetchRun_map {s : State} {f : Nat → Byte} (n k : Nat)
    (h : ∀ j, j < n → fetchByte s (k + j) = .next (f (k + j))) :
    fetchRun s n k = ((List.range n).map fun j => f (k + j), .next ()) := by
  induction n generalizing k with
  | zero => rfl
  | succ n ih =>
    rw [fetchRun_next n k (h 0 (by omega)), ih (k + 1) fun j hj => by
      have := h (j + 1) (by omega)
      rwa [show k + (j + 1) = k + 1 + j by omega] at this]
    simp [List.range_succ_eq_map, Function.comp_def, Nat.add_left_comm, Nat.add_comm]

/-- A fetch that gives `n` bytes goes on with the bytes after them. -/
theorem fetchRun_add {s : State} {bs : List Byte} (n m k : Nat) (h : fetchRun s n k = (bs, .next ())) :
    fetchRun s (n + m) k = (bs ++ (fetchRun s m (k + n)).1, (fetchRun s m (k + n)).2) := by
  induction n generalizing k bs with
  | zero => cases h; simp
  | succ n ih =>
    cases hb : fetchByte s k with
    | next b =>
      rw [fetchRun_next n k hb] at h
      obtain ⟨rfl, hstop⟩ := Prod.mk.inj h
      rw [show n + 1 + m = (n + m) + 1 by omega, fetchRun_next (n + m) k hb,
        ih (k + 1) (Prod.ext rfl hstop), show k + 1 + n = k + (n + 1) by omega]
      rfl
    | fault e => rw [fetchRun_fault n k hb] at h; cases h
    | refused r => rw [fetchRun_refused n k hb] at h; cases h

/-- Where a byte faults and the bytes before it do not complete an instruction, the step is that fault. -/
theorem step_of_fetch_fault {s : State} {k : Nat} {bs : List Byte} {e : Fault} (hk : k < maxLen)
    (hb : fetchRun s k 0 = (bs, .next ())) (hs : decode s.par.mode bs = .short) (he : fetchByte s k = .fault e) :
    step s = .fault e := by
  have hr := fetchRun_add k (maxLen - k) 0 hb
  rw [show k + (maxLen - k) = maxLen by omega, Nat.zero_add] at hr
  obtain ⟨m, hm⟩ : ∃ m, maxLen - k = m + 1 := ⟨maxLen - k - 1, by omega⟩
  rw [hm, fetchRun_fault m k he, List.append_nil] at hr
  simp [step, fetchDecode, hr, hs, decoded]

/-- The same where the byte is refused. -/
theorem step_of_fetch_refused {s : State} {k : Nat} {bs : List Byte} {r : Refusal} (hk : k < maxLen)
    (hb : fetchRun s k 0 = (bs, .next ())) (hs : decode s.par.mode bs = .short) (hr : fetchByte s k = .refused r) :
    step s = .refused r := by
  have ha := fetchRun_add k (maxLen - k) 0 hb
  rw [show k + (maxLen - k) = maxLen by omega, Nat.zero_add] at ha
  obtain ⟨m, hm⟩ : ∃ m, maxLen - k = m + 1 := ⟨maxLen - k - 1, by omega⟩
  rw [hm, fetchRun_refused m k hr, List.append_nil] at ha
  simp [step, fetchDecode, ha, hs, decoded]

/-- R64: an access that translates answers an address. -/
theorem translate_of_translates {s : State} {lin : Quad} {acc : Access} (h : Translates s lin acc) :
    ∃ p, translate s lin acc = .next p := by
  rcases h with h | h | ⟨rows, f, h, hf⟩
  · exact ⟨lin.toNat, by simp [translate, h]⟩
  · exact ⟨lin.toNat, translate_identity h lin acc⟩
  · by_cases hm : s.par.mode = .real
    · exact ⟨lin.toNat, by simp [translate, hm]⟩
    · exact ⟨_, by rw [translate_table hm h, hf]⟩

/-- Where every byte of an operand translates, they do together. -/
theorem translateAll_of_translates {s : State} {lin : Quad} (ks : List Nat)
    (h : ∀ k, k ∈ ks → Translates s (addrAdd s lin k) .read) : ∃ ps, translateAll s lin ks = .next ps := by
  induction ks with
  | nil => exact ⟨[], rfl⟩
  | cons k ks ih =>
    obtain ⟨p, hp⟩ := translate_of_translates (h k List.mem_cons_self)
    obtain ⟨ps, hps⟩ := ih fun j hj => h j (List.mem_cons_of_mem _ hj)
    exact ⟨p :: ps, by simp [translateAll, hp, hps]⟩

end Sys2Proof.Machine
end

