-- ==== Sys2Proof/Laws/Memory.lean ====
section
/-! SUPPORT. Memory: a read after a write, and that every operation on it keeps the canonical form. -/

namespace Sys2Proof.Machine

theorem readByte_insertByte (mem : List Host.Cell) (a b : Nat) (v : Byte) :
    readByte (insertByte mem a v) b = if b = a then v else readByte mem b := by
  induction mem with
  | nil =>
    by_cases h : b = a
    · simp [insertByte, readByte, h]
    · have h' : a ≠ b := fun e => h e.symm
      simp [insertByte, readByte, h, h']
  | cons c cs ih =>
    unfold insertByte
    split
    · by_cases h : b = a
      · simp [readByte, h]
      · have h' : a ≠ b := fun e => h e.symm
        simp [readByte, h, h']
    · split
      · next h =>
        by_cases hb : b = a
        · simp [readByte, hb]
        · have h' : a ≠ b := fun e => hb e.symm
          have h'' : c.1 ≠ b := fun e => hb (by omega)
          simp [readByte, hb, h', h'']
      · simp only [readByte, ih]
        by_cases hc : c.1 = b
        · have : b ≠ a := by omega
          simp [hc, this]
        · simp [hc]

/-- From a bound on, a list whose addresses rise lists nothing below the bound. -/
theorem readByte_below (mem : List Host.Cell) (lo a : Nat) (h : risingFrom lo mem = true) (ha : a < lo) :
    readByte mem a = unlisted := by
  induction mem generalizing lo with
  | nil => rfl
  | cons c cs ih =>
    simp only [risingFrom, Bool.and_eq_true, decide_eq_true_eq] at h
    have hc : c.1 ≠ a := by omega
    simp only [readByte, if_neg hc]
    exact ih (c.1 + 1) h.2 (by omega)

theorem risingFrom_mono (mem : List Host.Cell) (lo lo' : Nat) (h : risingFrom lo mem = true) (hl : lo' ≤ lo) :
    risingFrom lo' mem = true := by
  cases mem with
  | nil => rfl
  | cons c cs =>
    simp only [risingFrom, Bool.and_eq_true, decide_eq_true_eq] at h ⊢
    exact ⟨by omega, h.2⟩

theorem readByte_dropByte (mem : List Host.Cell) (lo a b : Nat) (h : risingFrom lo mem = true) :
    readByte (dropByte mem a) b = if b = a then unlisted else readByte mem b := by
  induction mem generalizing lo with
  | nil => simp [dropByte, readByte]
  | cons c cs ih =>
    simp only [risingFrom, Bool.and_eq_true, decide_eq_true_eq] at h
    unfold dropByte
    split
    · next hc =>
      by_cases hb : b = a
      · rw [if_pos hb]; exact readByte_below cs (c.1 + 1) b h.2 (by omega)
      · have : c.1 ≠ b := by omega
        simp [readByte, hb, this]
    · next hc =>
      simp only [readByte, ih (c.1 + 1) h.2]
      by_cases hb : c.1 = b
      · have : b ≠ a := by omega
        simp [hb, this]
      · simp [hb]

theorem rising_insertByte (mem : List Host.Cell) (lo a : Nat) (v : Byte) (h : risingFrom lo mem = true)
    (ha : lo ≤ a) : risingFrom lo (insertByte mem a v) = true := by
  induction mem generalizing lo with
  | nil => simp [insertByte, risingFrom, ha]
  | cons c cs ih =>
    simp only [risingFrom, Bool.and_eq_true, decide_eq_true_eq] at h
    unfold insertByte
    split
    · simp only [risingFrom, Bool.and_eq_true, decide_eq_true_eq]
      exact ⟨ha, by omega, h.2⟩
    · split
      · next hc => simp only [risingFrom, Bool.and_eq_true, decide_eq_true_eq]; exact ⟨ha, hc ▸ h.2⟩
      · simp only [risingFrom, Bool.and_eq_true, decide_eq_true_eq]
        exact ⟨h.1, ih (c.1 + 1) h.2 (by omega)⟩

theorem rising_dropByte (mem : List Host.Cell) (lo a : Nat) (h : risingFrom lo mem = true) :
    risingFrom lo (dropByte mem a) = true := by
  induction mem generalizing lo with
  | nil => rfl
  | cons c cs ih =>
    simp only [risingFrom, Bool.and_eq_true, decide_eq_true_eq] at h
    unfold dropByte
    split
    · exact risingFrom_mono cs (c.1 + 1) lo h.2 (by omega)
    · simp only [risingFrom, Bool.and_eq_true, decide_eq_true_eq]
      exact ⟨h.1, ih (c.1 + 1) h.2⟩

theorem mem_insertByte (mem : List Host.Cell) (a : Nat) (v : Byte) (c : Host.Cell)
    (h : c ∈ insertByte mem a v) : c = (a, v) ∨ c ∈ mem := by
  induction mem with
  | nil => simpa [insertByte] using h
  | cons d ds ih =>
    unfold insertByte at h
    split at h
    · simpa using h
    · split at h
      · rcases List.mem_cons.1 h with h | h
        · exact .inl h
        · exact .inr (List.mem_cons_of_mem _ h)
      · rcases List.mem_cons.1 h with h | h
        · exact .inr (h ▸ List.mem_cons_self)
        · exact (ih h).imp id (List.mem_cons_of_mem _)

theorem mem_dropByte (mem : List Host.Cell) (a : Nat) (c : Host.Cell) (h : c ∈ dropByte mem a) : c ∈ mem := by
  induction mem with
  | nil => exact h
  | cons d ds ih =>
    unfold dropByte at h
    split at h
    · exact List.mem_cons_of_mem _ h
    · rcases List.mem_cons.1 h with h | h
      · exact h ▸ List.mem_cons_self
      · exact List.mem_cons_of_mem _ (ih h)

/-- The one operation that changes memory keeps its canonical form. -/
theorem writeByte_wf (mem : List Host.Cell) (a : Nat) (v : Byte) (h : Memory.wf mem = true) :
    Memory.wf (writeByte mem a v) = true := by
  simp only [Memory.wf, Bool.and_eq_true, List.all_eq_true, decide_eq_true_eq] at h ⊢
  unfold writeByte
  split
  · exact ⟨rising_dropByte mem 0 a h.1, fun c hc => h.2 c (mem_dropByte mem a c hc)⟩
  · next hv =>
    refine ⟨rising_insertByte mem 0 a v h.1 (Nat.zero_le a), fun c hc => ?_⟩
    rcases mem_insertByte mem a v c hc with rfl | hc
    · exact hv
    · exact h.2 c hc

/-- A read after a write to the same place gives the value written; every other place is as it was. -/
theorem readByte_writeByte (mem : List Host.Cell) (a b : Nat) (v : Byte) (h : Memory.wf mem = true) :
    readByte (writeByte mem a v) b = if b = a then v else readByte mem b := by
  simp only [Memory.wf, Bool.and_eq_true] at h
  unfold writeByte
  split
  · next hv => rw [readByte_dropByte mem 0 a b h.1, hv]
  · exact readByte_insertByte mem a b v

theorem placeBytes_wf (bs : List Byte) (s : State) (k : Nat) (h : Memory.wf s.mem = true) :
    Memory.wf (placeBytes s k bs).mem = true := by
  induction bs generalizing s k with
  | nil => exact h
  | cons b bs ih => exact ih _ _ (writeByte_wf s.mem _ b h)

/-- Placing bytes changes memory and nothing else. -/
theorem placeBytes_eq (bs : List Byte) (s : State) (k : Nat) :
    placeBytes s k bs = { s with mem := (placeBytes s k bs).mem } := by
  induction bs generalizing s k with
  | nil => rfl
  | cons b bs ih => unfold placeBytes; rw [ih]

theorem withFetchWord_wf (s : State) (nbits w : Nat) (h : Memory.wf s.mem = true) :
    Memory.wf (s.withFetchWord nbits w).mem = true := by
  unfold State.withFetchWord launchWith
  apply placeBytes_wf
  split
  · exact h
  · exact h

/-- The launch itself leaves memory as it is, and so does INIT. -/
theorem launch_wf (s : State) (h : Memory.wf s.mem = true) : Memory.wf (launch s).mem = true := h

theorem afterInit_wf (s : State) (h : Memory.wf s.mem = true) : Memory.wf (afterInit s).mem = true := h

theorem reset_mem_wf : Memory.wf State.reset.mem = true := by decide

end Sys2Proof.Machine
end

