-- ==== Sys2Proof/Laws/PerInstr.lean ====
section
/-! SUPPORT. The encoder's bytes are as many as the instruction says, one lemma per constructor. -/

namespace Sys2Proof.Laws

open Config

theorem dispBytes_length (d : Disp) : (dispBytes d).length = dispLen d := by
  cases d <;> rfl

theorem rexBytes_length (e : ExtBits) : (rexBytes e).length = if e.r || e.x || e.b then 1 else 0 := by
  unfold rexBytes; split <;> rfl

theorem vexBytes_length (e : ExtBits) (v : BitVec 4) (l : Bool) :
    (vexBytes e v l).length = if e.x || e.b then 3 else 2 := by
  unfold vexBytes; split <;> rfl

theorem opcodeBytes_length (f : Fields) : (opcodeBytes f).length = opcodeLen f := by
  unfold opcodeBytes opcodeLen
  cases f.kind <;> simp [rexBytes_length, vexBytes_length]
  omega

theorem memBytes_length (m : Mode) (reg : BitVec 3) (a : Mem) :
    (memBytes m reg a).length = 1 + (if needsSib m a then 1 else 0) + dispLen a.disp := by
  unfold memBytes
  split
  · next h => simp [needsSib, h, dispBytes_length]; omega
  · split
    · dsimp only
      split <;> simp [dispBytes_length] <;> omega
    · split <;> simp [dispBytes_length] <;> omega

theorem operand_length (m : Mode) (reg : BitVec 4) (src : Src (BitVec 4)) :
    (overrideBytes m src).length + (operandBytes m reg src).length = operandLen m src := by
  cases src with
  | reg r => rfl
  | mem a =>
    simp only [overrideBytes, operandBytes, operandLen, List.length_append, memBytes_length]
    by_cases h1 : a.seg = defaultSeg a.base <;> by_cases h2 : a.asize = defaultAddrSize m <;>
      simp [h1, h2] <;> omega

theorem encode_length (m : Mode) (i : Instr) (h : minLen m (fieldsOf i) ≤ (fieldsOf i).len) :
    (encode m i).length = (fieldsOf i).len := by
  have ho := operand_length m (fieldsOf i).reg (fieldsOf i).src
  have hp := opcodeBytes_length (fieldsOf i)
  unfold minLen at h
  simp only [encode, List.length_append, List.length_replicate, minLen]
  omega

/-- In every mode the encoding of a well-formed instruction is as long as the instruction says. -/
def EncodedLength.Statement (i : Instr) : Prop :=
  ∀ m : Mode, wellFormed m i = true → (encode m i).length = (fieldsOf i).len

theorem EncodedLength.of_wellFormed (i : Instr) : EncodedLength.Statement i := by
  intro m h
  simp only [wellFormed, lenOk, Bool.and_eq_true, decide_eq_true_eq] at h
  exact encode_length m i h.2.1

theorem EncodedLength.punpckhbwMm (d : MmReg) (src : Src MmReg) (len : Nat) :
    EncodedLength.Statement (.punpckhbwMm d src len) :=
  of_wellFormed _

theorem EncodedLength.punpckhbwXmm (d : XmmReg) (src : Src XmmReg) (len : Nat) :
    EncodedLength.Statement (.punpckhbwXmm d src len) :=
  of_wellFormed _

theorem EncodedLength.punpckhwdMm (d : MmReg) (src : Src MmReg) (len : Nat) :
    EncodedLength.Statement (.punpckhwdMm d src len) :=
  of_wellFormed _

theorem EncodedLength.punpckhwdXmm (d : XmmReg) (src : Src XmmReg) (len : Nat) :
    EncodedLength.Statement (.punpckhwdXmm d src len) :=
  of_wellFormed _

theorem EncodedLength.punpckhdqMm (d : MmReg) (src : Src MmReg) (len : Nat) :
    EncodedLength.Statement (.punpckhdqMm d src len) :=
  of_wellFormed _

theorem EncodedLength.punpckhdqXmm (d : XmmReg) (src : Src XmmReg) (len : Nat) :
    EncodedLength.Statement (.punpckhdqXmm d src len) :=
  of_wellFormed _

theorem EncodedLength.punpckhqdqXmm (d : XmmReg) (src : Src XmmReg) (len : Nat) :
    EncodedLength.Statement (.punpckhqdqXmm d src len) :=
  of_wellFormed _

theorem EncodedLength.vpunpckhbwXmm (d a : XmmReg) (src : Src XmmReg) (len : Nat) :
    EncodedLength.Statement (.vpunpckhbwXmm d a src len) :=
  of_wellFormed _

theorem EncodedLength.vpunpckhwdXmm (d a : XmmReg) (src : Src XmmReg) (len : Nat) :
    EncodedLength.Statement (.vpunpckhwdXmm d a src len) :=
  of_wellFormed _

theorem EncodedLength.vpunpckhdqXmm (d a : XmmReg) (src : Src XmmReg) (len : Nat) :
    EncodedLength.Statement (.vpunpckhdqXmm d a src len) :=
  of_wellFormed _

theorem EncodedLength.vpunpckhqdqXmm (d a : XmmReg) (src : Src XmmReg) (len : Nat) :
    EncodedLength.Statement (.vpunpckhqdqXmm d a src len) :=
  of_wellFormed _

theorem EncodedLength.vpunpckhbwYmm (d a : XmmReg) (src : Src XmmReg) (len : Nat) :
    EncodedLength.Statement (.vpunpckhbwYmm d a src len) :=
  of_wellFormed _

theorem EncodedLength.vpunpckhwdYmm (d a : XmmReg) (src : Src XmmReg) (len : Nat) :
    EncodedLength.Statement (.vpunpckhwdYmm d a src len) :=
  of_wellFormed _

theorem EncodedLength.vpunpckhdqYmm (d a : XmmReg) (src : Src XmmReg) (len : Nat) :
    EncodedLength.Statement (.vpunpckhdqYmm d a src len) :=
  of_wellFormed _

theorem EncodedLength.vpunpckhqdqYmm (d a : XmmReg) (src : Src XmmReg) (len : Nat) :
    EncodedLength.Statement (.vpunpckhqdqYmm d a src len) :=
  of_wellFormed _

end Sys2Proof.Laws
end

