-- ==== Sys2Proof/Laws/State.lean ====
section
/-! SUPPORT. One lemma per field per update of State, so that no later proof unfolds a record update. -/

namespace Sys2Proof.Machine

/-! ### writeYmm -/

@[simp] theorem writeYmm_par (s : State) (r : XmmReg) (v : Yword) : (writeYmm s r v).par = s.par := rfl
@[simp] theorem writeYmm_pc (s : State) (r : XmmReg) (v : Yword) : (writeYmm s r v).pc = s.pc := rfl
@[simp] theorem writeYmm_x (s : State) (r : XmmReg) (v : Yword) : (writeYmm s r v).x = s.x := rfl
@[simp] theorem writeYmm_mm (s : State) (r : XmmReg) (v : Yword) : (writeYmm s r v).mm = s.mm := rfl
@[simp] theorem writeYmm_x87Upper (s : State) (r : XmmReg) (v : Yword) : (writeYmm s r v).x87Upper = s.x87Upper := rfl
@[simp] theorem writeYmm_ymm (s : State) (r : XmmReg) (v : Yword) : (writeYmm s r v).ymm = s.ymm.set r.toNat v := rfl
@[simp] theorem writeYmm_mxcsr (s : State) (r : XmmReg) (v : Yword) : (writeYmm s r v).mxcsr = s.mxcsr := rfl
@[simp] theorem writeYmm_rflags (s : State) (r : XmmReg) (v : Yword) : (writeYmm s r v).rflags = s.rflags := rfl
@[simp] theorem writeYmm_cr0 (s : State) (r : XmmReg) (v : Yword) : (writeYmm s r v).cr0 = s.cr0 := rfl
@[simp] theorem writeYmm_cr2 (s : State) (r : XmmReg) (v : Yword) : (writeYmm s r v).cr2 = s.cr2 := rfl
@[simp] theorem writeYmm_cr3 (s : State) (r : XmmReg) (v : Yword) : (writeYmm s r v).cr3 = s.cr3 := rfl
@[simp] theorem writeYmm_cr4 (s : State) (r : XmmReg) (v : Yword) : (writeYmm s r v).cr4 = s.cr4 := rfl
@[simp] theorem writeYmm_xcr0 (s : State) (r : XmmReg) (v : Yword) : (writeYmm s r v).xcr0 = s.xcr0 := rfl
@[simp] theorem writeYmm_x87Control (s : State) (r : XmmReg) (v : Yword) : (writeYmm s r v).x87Control = s.x87Control := rfl
@[simp] theorem writeYmm_x87Status (s : State) (r : XmmReg) (v : Yword) : (writeYmm s r v).x87Status = s.x87Status := rfl
@[simp] theorem writeYmm_x87Tag (s : State) (r : XmmReg) (v : Yword) : (writeYmm s r v).x87Tag = s.x87Tag := rfl
@[simp] theorem writeYmm_es (s : State) (r : XmmReg) (v : Yword) : (writeYmm s r v).es = s.es := rfl
@[simp] theorem writeYmm_cs (s : State) (r : XmmReg) (v : Yword) : (writeYmm s r v).cs = s.cs := rfl
@[simp] theorem writeYmm_ss (s : State) (r : XmmReg) (v : Yword) : (writeYmm s r v).ss = s.ss := rfl
@[simp] theorem writeYmm_ds (s : State) (r : XmmReg) (v : Yword) : (writeYmm s r v).ds = s.ds := rfl
@[simp] theorem writeYmm_fs (s : State) (r : XmmReg) (v : Yword) : (writeYmm s r v).fs = s.fs := rfl
@[simp] theorem writeYmm_gs (s : State) (r : XmmReg) (v : Yword) : (writeYmm s r v).gs = s.gs := rfl
@[simp] theorem writeYmm_mem (s : State) (r : XmmReg) (v : Yword) : (writeYmm s r v).mem = s.mem := rfl

/-! ### writeXmmKeep -/

@[simp] theorem writeXmmKeep_par (s : State) (r : XmmReg) (v : Xword) : (writeXmmKeep s r v).par = s.par := rfl
@[simp] theorem writeXmmKeep_pc (s : State) (r : XmmReg) (v : Xword) : (writeXmmKeep s r v).pc = s.pc := rfl
@[simp] theorem writeXmmKeep_x (s : State) (r : XmmReg) (v : Xword) : (writeXmmKeep s r v).x = s.x := rfl
@[simp] theorem writeXmmKeep_mm (s : State) (r : XmmReg) (v : Xword) : (writeXmmKeep s r v).mm = s.mm := rfl
@[simp] theorem writeXmmKeep_x87Upper (s : State) (r : XmmReg) (v : Xword) : (writeXmmKeep s r v).x87Upper = s.x87Upper := rfl
@[simp] theorem writeXmmKeep_ymm (s : State) (r : XmmReg) (v : Xword) : (writeXmmKeep s r v).ymm = s.ymm.set r.toNat ((readYmm s r).extractLsb' 128 128 ++ v) := rfl
@[simp] theorem writeXmmKeep_mxcsr (s : State) (r : XmmReg) (v : Xword) : (writeXmmKeep s r v).mxcsr = s.mxcsr := rfl
@[simp] theorem writeXmmKeep_rflags (s : State) (r : XmmReg) (v : Xword) : (writeXmmKeep s r v).rflags = s.rflags := rfl
@[simp] theorem writeXmmKeep_cr0 (s : State) (r : XmmReg) (v : Xword) : (writeXmmKeep s r v).cr0 = s.cr0 := rfl
@[simp] theorem writeXmmKeep_cr2 (s : State) (r : XmmReg) (v : Xword) : (writeXmmKeep s r v).cr2 = s.cr2 := rfl
@[simp] theorem writeXmmKeep_cr3 (s : State) (r : XmmReg) (v : Xword) : (writeXmmKeep s r v).cr3 = s.cr3 := rfl
@[simp] theorem writeXmmKeep_cr4 (s : State) (r : XmmReg) (v : Xword) : (writeXmmKeep s r v).cr4 = s.cr4 := rfl
@[simp] theorem writeXmmKeep_xcr0 (s : State) (r : XmmReg) (v : Xword) : (writeXmmKeep s r v).xcr0 = s.xcr0 := rfl
@[simp] theorem writeXmmKeep_x87Control (s : State) (r : XmmReg) (v : Xword) : (writeXmmKeep s r v).x87Control = s.x87Control := rfl
@[simp] theorem writeXmmKeep_x87Status (s : State) (r : XmmReg) (v : Xword) : (writeXmmKeep s r v).x87Status = s.x87Status := rfl
@[simp] theorem writeXmmKeep_x87Tag (s : State) (r : XmmReg) (v : Xword) : (writeXmmKeep s r v).x87Tag = s.x87Tag := rfl
@[simp] theorem writeXmmKeep_es (s : State) (r : XmmReg) (v : Xword) : (writeXmmKeep s r v).es = s.es := rfl
@[simp] theorem writeXmmKeep_cs (s : State) (r : XmmReg) (v : Xword) : (writeXmmKeep s r v).cs = s.cs := rfl
@[simp] theorem writeXmmKeep_ss (s : State) (r : XmmReg) (v : Xword) : (writeXmmKeep s r v).ss = s.ss := rfl
@[simp] theorem writeXmmKeep_ds (s : State) (r : XmmReg) (v : Xword) : (writeXmmKeep s r v).ds = s.ds := rfl
@[simp] theorem writeXmmKeep_fs (s : State) (r : XmmReg) (v : Xword) : (writeXmmKeep s r v).fs = s.fs := rfl
@[simp] theorem writeXmmKeep_gs (s : State) (r : XmmReg) (v : Xword) : (writeXmmKeep s r v).gs = s.gs := rfl
@[simp] theorem writeXmmKeep_mem (s : State) (r : XmmReg) (v : Xword) : (writeXmmKeep s r v).mem = s.mem := rfl

/-! ### writeXmmZero -/

@[simp] theorem writeXmmZero_par (s : State) (r : XmmReg) (v : Xword) : (writeXmmZero s r v).par = s.par := rfl
@[simp] theorem writeXmmZero_pc (s : State) (r : XmmReg) (v : Xword) : (writeXmmZero s r v).pc = s.pc := rfl
@[simp] theorem writeXmmZero_x (s : State) (r : XmmReg) (v : Xword) : (writeXmmZero s r v).x = s.x := rfl
@[simp] theorem writeXmmZero_mm (s : State) (r : XmmReg) (v : Xword) : (writeXmmZero s r v).mm = s.mm := rfl
@[simp] theorem writeXmmZero_x87Upper (s : State) (r : XmmReg) (v : Xword) : (writeXmmZero s r v).x87Upper = s.x87Upper := rfl
@[simp] theorem writeXmmZero_ymm (s : State) (r : XmmReg) (v : Xword) : (writeXmmZero s r v).ymm = s.ymm.set r.toNat (zeros 128 ++ v) := rfl
@[simp] theorem writeXmmZero_mxcsr (s : State) (r : XmmReg) (v : Xword) : (writeXmmZero s r v).mxcsr = s.mxcsr := rfl
@[simp] theorem writeXmmZero_rflags (s : State) (r : XmmReg) (v : Xword) : (writeXmmZero s r v).rflags = s.rflags := rfl
@[simp] theorem writeXmmZero_cr0 (s : State) (r : XmmReg) (v : Xword) : (writeXmmZero s r v).cr0 = s.cr0 := rfl
@[simp] theorem writeXmmZero_cr2 (s : State) (r : XmmReg) (v : Xword) : (writeXmmZero s r v).cr2 = s.cr2 := rfl
@[simp] theorem writeXmmZero_cr3 (s : State) (r : XmmReg) (v : Xword) : (writeXmmZero s r v).cr3 = s.cr3 := rfl
@[simp] theorem writeXmmZero_cr4 (s : State) (r : XmmReg) (v : Xword) : (writeXmmZero s r v).cr4 = s.cr4 := rfl
@[simp] theorem writeXmmZero_xcr0 (s : State) (r : XmmReg) (v : Xword) : (writeXmmZero s r v).xcr0 = s.xcr0 := rfl
@[simp] theorem writeXmmZero_x87Control (s : State) (r : XmmReg) (v : Xword) : (writeXmmZero s r v).x87Control = s.x87Control := rfl
@[simp] theorem writeXmmZero_x87Status (s : State) (r : XmmReg) (v : Xword) : (writeXmmZero s r v).x87Status = s.x87Status := rfl
@[simp] theorem writeXmmZero_x87Tag (s : State) (r : XmmReg) (v : Xword) : (writeXmmZero s r v).x87Tag = s.x87Tag := rfl
@[simp] theorem writeXmmZero_es (s : State) (r : XmmReg) (v : Xword) : (writeXmmZero s r v).es = s.es := rfl
@[simp] theorem writeXmmZero_cs (s : State) (r : XmmReg) (v : Xword) : (writeXmmZero s r v).cs = s.cs := rfl
@[simp] theorem writeXmmZero_ss (s : State) (r : XmmReg) (v : Xword) : (writeXmmZero s r v).ss = s.ss := rfl
@[simp] theorem writeXmmZero_ds (s : State) (r : XmmReg) (v : Xword) : (writeXmmZero s r v).ds = s.ds := rfl
@[simp] theorem writeXmmZero_fs (s : State) (r : XmmReg) (v : Xword) : (writeXmmZero s r v).fs = s.fs := rfl
@[simp] theorem writeXmmZero_gs (s : State) (r : XmmReg) (v : Xword) : (writeXmmZero s r v).gs = s.gs := rfl
@[simp] theorem writeXmmZero_mem (s : State) (r : XmmReg) (v : Xword) : (writeXmmZero s r v).mem = s.mem := rfl

/-! ### writeMm -/

@[simp] theorem writeMm_par (s : State) (r : MmReg) (v : Quad) : (writeMm s r v).par = s.par := rfl
@[simp] theorem writeMm_pc (s : State) (r : MmReg) (v : Quad) : (writeMm s r v).pc = s.pc := rfl
@[simp] theorem writeMm_x (s : State) (r : MmReg) (v : Quad) : (writeMm s r v).x = s.x := rfl
@[simp] theorem writeMm_mm (s : State) (r : MmReg) (v : Quad) : (writeMm s r v).mm = s.mm.set r.toNat v := rfl
@[simp] theorem writeMm_x87Upper (s : State) (r : MmReg) (v : Quad) : (writeMm s r v).x87Upper = s.x87Upper := rfl
@[simp] theorem writeMm_ymm (s : State) (r : MmReg) (v : Quad) : (writeMm s r v).ymm = s.ymm := rfl
@[simp] theorem writeMm_mxcsr (s : State) (r : MmReg) (v : Quad) : (writeMm s r v).mxcsr = s.mxcsr := rfl
@[simp] theorem writeMm_rflags (s : State) (r : MmReg) (v : Quad) : (writeMm s r v).rflags = s.rflags := rfl
@[simp] theorem writeMm_cr0 (s : State) (r : MmReg) (v : Quad) : (writeMm s r v).cr0 = s.cr0 := rfl
@[simp] theorem writeMm_cr2 (s : State) (r : MmReg) (v : Quad) : (writeMm s r v).cr2 = s.cr2 := rfl
@[simp] theorem writeMm_cr3 (s : State) (r : MmReg) (v : Quad) : (writeMm s r v).cr3 = s.cr3 := rfl
@[simp] theorem writeMm_cr4 (s : State) (r : MmReg) (v : Quad) : (writeMm s r v).cr4 = s.cr4 := rfl
@[simp] theorem writeMm_xcr0 (s : State) (r : MmReg) (v : Quad) : (writeMm s r v).xcr0 = s.xcr0 := rfl
@[simp] theorem writeMm_x87Control (s : State) (r : MmReg) (v : Quad) : (writeMm s r v).x87Control = s.x87Control := rfl
@[simp] theorem writeMm_x87Status (s : State) (r : MmReg) (v : Quad) : (writeMm s r v).x87Status = s.x87Status := rfl
@[simp] theorem writeMm_x87Tag (s : State) (r : MmReg) (v : Quad) : (writeMm s r v).x87Tag = s.x87Tag := rfl
@[simp] theorem writeMm_es (s : State) (r : MmReg) (v : Quad) : (writeMm s r v).es = s.es := rfl
@[simp] theorem writeMm_cs (s : State) (r : MmReg) (v : Quad) : (writeMm s r v).cs = s.cs := rfl
@[simp] theorem writeMm_ss (s : State) (r : MmReg) (v : Quad) : (writeMm s r v).ss = s.ss := rfl
@[simp] theorem writeMm_ds (s : State) (r : MmReg) (v : Quad) : (writeMm s r v).ds = s.ds := rfl
@[simp] theorem writeMm_fs (s : State) (r : MmReg) (v : Quad) : (writeMm s r v).fs = s.fs := rfl
@[simp] theorem writeMm_gs (s : State) (r : MmReg) (v : Quad) : (writeMm s r v).gs = s.gs := rfl
@[simp] theorem writeMm_mem (s : State) (r : MmReg) (v : Quad) : (writeMm s r v).mem = s.mem := rfl

/-! ### advance -/

@[simp] theorem advance_par (s : State) (len : Nat) : (advance s len).par = s.par := rfl
@[simp] theorem advance_pc (s : State) (len : Nat) : (advance s len).pc = addrAdd s s.pc len := rfl
@[simp] theorem advance_x (s : State) (len : Nat) : (advance s len).x = s.x := rfl
@[simp] theorem advance_mm (s : State) (len : Nat) : (advance s len).mm = s.mm := rfl
@[simp] theorem advance_x87Upper (s : State) (len : Nat) : (advance s len).x87Upper = s.x87Upper := rfl
@[simp] theorem advance_ymm (s : State) (len : Nat) : (advance s len).ymm = s.ymm := rfl
@[simp] theorem advance_mxcsr (s : State) (len : Nat) : (advance s len).mxcsr = s.mxcsr := rfl
@[simp] theorem advance_rflags (s : State) (len : Nat) : (advance s len).rflags = s.rflags := rfl
@[simp] theorem advance_cr0 (s : State) (len : Nat) : (advance s len).cr0 = s.cr0 := rfl
@[simp] theorem advance_cr2 (s : State) (len : Nat) : (advance s len).cr2 = s.cr2 := rfl
@[simp] theorem advance_cr3 (s : State) (len : Nat) : (advance s len).cr3 = s.cr3 := rfl
@[simp] theorem advance_cr4 (s : State) (len : Nat) : (advance s len).cr4 = s.cr4 := rfl
@[simp] theorem advance_xcr0 (s : State) (len : Nat) : (advance s len).xcr0 = s.xcr0 := rfl
@[simp] theorem advance_x87Control (s : State) (len : Nat) : (advance s len).x87Control = s.x87Control := rfl
@[simp] theorem advance_x87Status (s : State) (len : Nat) : (advance s len).x87Status = s.x87Status := rfl
@[simp] theorem advance_x87Tag (s : State) (len : Nat) : (advance s len).x87Tag = s.x87Tag := rfl
@[simp] theorem advance_es (s : State) (len : Nat) : (advance s len).es = s.es := rfl
@[simp] theorem advance_cs (s : State) (len : Nat) : (advance s len).cs = s.cs := rfl
@[simp] theorem advance_ss (s : State) (len : Nat) : (advance s len).ss = s.ss := rfl
@[simp] theorem advance_ds (s : State) (len : Nat) : (advance s len).ds = s.ds := rfl
@[simp] theorem advance_fs (s : State) (len : Nat) : (advance s len).fs = s.fs := rfl
@[simp] theorem advance_gs (s : State) (len : Nat) : (advance s len).gs = s.gs := rfl
@[simp] theorem advance_mem (s : State) (len : Nat) : (advance s len).mem = s.mem := rfl

/-! ### x87Effects -/

@[simp] theorem x87Effects_par (s : State) (r : MmReg) : (x87Effects s r).par = s.par := by
  unfold x87Effects; split <;> rfl
@[simp] theorem x87Effects_pc (s : State) (r : MmReg) : (x87Effects s r).pc = s.pc := by
  unfold x87Effects; split <;> rfl
@[simp] theorem x87Effects_x (s : State) (r : MmReg) : (x87Effects s r).x = s.x := by
  unfold x87Effects; split <;> rfl
@[simp] theorem x87Effects_mm (s : State) (r : MmReg) : (x87Effects s r).mm = s.mm := by
  unfold x87Effects; split <;> rfl
@[simp] theorem x87Effects_x87Upper (s : State) (r : MmReg) :
    (x87Effects s r).x87Upper = if s.par.modelX87 then s.x87Upper.set r.toNat 0xFFFF else s.x87Upper := by
  unfold x87Effects; split <;> rfl
@[simp] theorem x87Effects_ymm (s : State) (r : MmReg) : (x87Effects s r).ymm = s.ymm := by
  unfold x87Effects; split <;> rfl
@[simp] theorem x87Effects_mxcsr (s : State) (r : MmReg) : (x87Effects s r).mxcsr = s.mxcsr := by
  unfold x87Effects; split <;> rfl
@[simp] theorem x87Effects_rflags (s : State) (r : MmReg) : (x87Effects s r).rflags = s.rflags := by
  unfold x87Effects; split <;> rfl
@[simp] theorem x87Effects_cr0 (s : State) (r : MmReg) : (x87Effects s r).cr0 = s.cr0 := by
  unfold x87Effects; split <;> rfl
@[simp] theorem x87Effects_cr2 (s : State) (r : MmReg) : (x87Effects s r).cr2 = s.cr2 := by
  unfold x87Effects; split <;> rfl
@[simp] theorem x87Effects_cr3 (s : State) (r : MmReg) : (x87Effects s r).cr3 = s.cr3 := by
  unfold x87Effects; split <;> rfl
@[simp] theorem x87Effects_cr4 (s : State) (r : MmReg) : (x87Effects s r).cr4 = s.cr4 := by
  unfold x87Effects; split <;> rfl
@[simp] theorem x87Effects_xcr0 (s : State) (r : MmReg) : (x87Effects s r).xcr0 = s.xcr0 := by
  unfold x87Effects; split <;> rfl
@[simp] theorem x87Effects_x87Control (s : State) (r : MmReg) : (x87Effects s r).x87Control = s.x87Control := by
  unfold x87Effects; split <;> rfl
@[simp] theorem x87Effects_x87Status (s : State) (r : MmReg) :
    (x87Effects s r).x87Status = if s.par.modelX87 then s.x87Status &&& 0xC7FF else s.x87Status := by
  unfold x87Effects; split <;> rfl
@[simp] theorem x87Effects_x87Tag (s : State) (r : MmReg) :
    (x87Effects s r).x87Tag = if s.par.modelX87 then 0 else s.x87Tag := by
  unfold x87Effects; split <;> rfl
@[simp] theorem x87Effects_es (s : State) (r : MmReg) : (x87Effects s r).es = s.es := by
  unfold x87Effects; split <;> rfl
@[simp] theorem x87Effects_cs (s : State) (r : MmReg) : (x87Effects s r).cs = s.cs := by
  unfold x87Effects; split <;> rfl
@[simp] theorem x87Effects_ss (s : State) (r : MmReg) : (x87Effects s r).ss = s.ss := by
  unfold x87Effects; split <;> rfl
@[simp] theorem x87Effects_ds (s : State) (r : MmReg) : (x87Effects s r).ds = s.ds := by
  unfold x87Effects; split <;> rfl
@[simp] theorem x87Effects_fs (s : State) (r : MmReg) : (x87Effects s r).fs = s.fs := by
  unfold x87Effects; split <;> rfl
@[simp] theorem x87Effects_gs (s : State) (r : MmReg) : (x87Effects s r).gs = s.gs := by
  unfold x87Effects; split <;> rfl
@[simp] theorem x87Effects_mem (s : State) (r : MmReg) : (x87Effects s r).mem = s.mem := by
  unfold x87Effects; split <;> rfl

/-! ### launch -/

@[simp] theorem launch_par (s : State) : (launch s).par = { s.par with mode := .m64 } := rfl
@[simp] theorem launch_pc (s : State) : (launch s).pc = s.pc := rfl
@[simp] theorem launch_x (s : State) : (launch s).x = s.x := rfl
@[simp] theorem launch_mm (s : State) : (launch s).mm = s.mm := rfl
@[simp] theorem launch_x87Upper (s : State) : (launch s).x87Upper = s.x87Upper := rfl
@[simp] theorem launch_ymm (s : State) : (launch s).ymm = s.ymm := rfl
@[simp] theorem launch_mxcsr (s : State) : (launch s).mxcsr = s.mxcsr := rfl
@[simp] theorem launch_rflags (s : State) : (launch s).rflags = s.rflags &&& ~~~0x100 := rfl
@[simp] theorem launch_cr0 (s : State) : (launch s).cr0 = s.cr0 &&& ~~~0xC := rfl
@[simp] theorem launch_cr2 (s : State) : (launch s).cr2 = s.cr2 := rfl
@[simp] theorem launch_cr3 (s : State) : (launch s).cr3 = s.cr3 := rfl
@[simp] theorem launch_cr4 (s : State) : (launch s).cr4 = s.cr4 ||| 0x40200 := rfl
@[simp] theorem launch_xcr0 (s : State) : (launch s).xcr0 = s.xcr0 ||| 6 := rfl
@[simp] theorem launch_x87Control (s : State) : (launch s).x87Control = s.x87Control := rfl
@[simp] theorem launch_x87Status (s : State) : (launch s).x87Status = s.x87Status &&& ~~~0x80 := rfl
@[simp] theorem launch_x87Tag (s : State) : (launch s).x87Tag = s.x87Tag := rfl
@[simp] theorem launch_es (s : State) : (launch s).es = s.es := rfl
@[simp] theorem launch_cs (s : State) : (launch s).cs = s.cs := rfl
@[simp] theorem launch_ss (s : State) : (launch s).ss = s.ss := rfl
@[simp] theorem launch_ds (s : State) : (launch s).ds = s.ds := rfl
@[simp] theorem launch_fs (s : State) : (launch s).fs = s.fs := rfl
@[simp] theorem launch_gs (s : State) : (launch s).gs = s.gs := rfl
@[simp] theorem launch_mem (s : State) : (launch s).mem = s.mem := rfl

/-! ### Reading a register after a write -/

theorem readYmm_writeYmm (s : State) (r q : XmmReg) (v : Yword) :
    readYmm (writeYmm s r v) q = if q = r then v else readYmm s q := by
  simp only [readYmm, writeYmm, Vector.getElem_set]
  by_cases h : q = r
  · simp [h]
  · have : r.toNat ≠ q.toNat := fun e => h (BitVec.eq_of_toNat_eq e.symm)
    simp [h, this]

theorem readMm_writeMm (s : State) (r q : MmReg) (v : Quad) :
    readMm (writeMm s r v) q = if q = r then v else readMm s q := by
  simp only [readMm, writeMm, Vector.getElem_set]
  by_cases h : q = r
  · simp [h]
  · have : r.toNat ≠ q.toNat := fun e => h (BitVec.eq_of_toNat_eq e.symm)
    simp [h, this]

/-- A legacy SSE write leaves bits [255:128] and sets bits [127:0] (R26). -/
theorem readYmm_writeXmmKeep (s : State) (r q : XmmReg) (v : Xword) :
    readYmm (writeXmmKeep s r v) q =
      if q = r then (readYmm s r).extractLsb' 128 128 ++ v else readYmm s q :=
  readYmm_writeYmm s r q _

/-- A VEX.128 write zeroes bits [255:128] and sets bits [127:0] (R26). -/
theorem readYmm_writeXmmZero (s : State) (r q : XmmReg) (v : Xword) :
    readYmm (writeXmmZero s r v) q = if q = r then zeros 128 ++ v else readYmm s q :=
  readYmm_writeYmm s r q _

end Sys2Proof.Machine
end

