-- ==== Sys2Proof/Tests/Slice0.lean ====
section
/-! SUPPORT. Tests of the model: well-formedness refuses ill-formed terms, decoding of words written out from the
spec's encodings, one-step tests whose values are those of 95_test_vectors (V and F rows), and a witness for every
obligation that has hypotheses. -/

namespace Sys2Proof.Tests

set_option Elab.async false

open Sys2Proof.Config Sys2Proof.Machine Sys2Proof.Safety

/-! ### Helpers -/

/-- The value of an outcome that has one. -/
def valueOf {α : Type} (r : Res α) : Option α :=
  match r with
  | .next a => some a
  | .fault _ => none
  | .refused _ => none

/-- The fault of an outcome that is one. -/
def faultOf {α : Type} (r : Res α) : Option Fault :=
  match r with
  | .fault e => some e
  | .next _ => none
  | .refused _ => none

/-- The refusal of an outcome that is one. -/
def refusalOf {α : Type} (r : Res α) : Option Refusal :=
  match r with
  | .refused e => some e
  | .next _ => none
  | .fault _ => none

theorem next_of_valueOf {α : Type} {r : Res α} {a : α} (h : valueOf r = some a) : r = .next a := by
  cases r <;> simp_all [valueOf]

theorem next_of_isSome {α : Type} {r : Res α} (h : (valueOf r).isSome = true) : ∃ a, r = .next a := by
  cases r <;> simp_all [valueOf]

theorem fault_of_faultOf {α : Type} {r : Res α} {e : Fault} (h : faultOf r = some e) : r = .fault e := by
  cases r <;> simp_all [faultOf]

theorem refused_of_refusalOf {α : Type} {r : Res α} {e : Refusal} (h : refusalOf r = some e) : r = .refused e := by
  cases r <;> simp_all [refusalOf]

/-- A launch in 64-bit mode. -/
def s64 : State := launch State.reset

/-- A flat segment. -/
def flat : Segment := ⟨8, 0, 0xFFFFFFFF, true⟩

/-- The same in 32-bit operation, with flat segments, but for DS (limit FFH) and SS (base 1000H, limit FFH). -/
def s32 : State :=
  { s64 with
    par := { s64.par with mode := .m32 }
    cs := flat
    es := flat
    fs := flat
    gs := flat
    ds := ⟨8, 0, 0xFF, true⟩
    ss := ⟨8, 0x1000, 0xFF, true⟩ }

/-- A general register set. -/
def setX (s : State) (r : Gpr) (v : Quad) : State := { s with x := s.x.set r.toNat v }

/-- Memory holding the bytes first, first + 1, ... from an address on (none of them 0). -/
def withBytes (s : State) (a n : Nat) (first : Byte) : State :=
  { s with mem := (List.range n).map fun k => (a + k, first + BitVec.ofNat 8 k) }

/-- One step on an instruction's bytes. -/
def run1 (s : State) (bytes : List Byte) : Res State := step (launchWith s bytes)

/-- What one step on an instruction's bytes leaves in an MMX register, and how far it moves pc. -/
def mmAfter (s : State) (bytes : List Byte) (r : MmReg) : Option (Quad × Quad) :=
  (valueOf (run1 s bytes)).map fun t => (readMm t r, t.pc - s.pc)

/-- The same of a YMM register. -/
def ymmAfter (s : State) (bytes : List Byte) (r : XmmReg) : Option (Yword × Quad) :=
  (valueOf (run1 s bytes)).map fun t => (readYmm t r, t.pc - s.pc)

def x64 : Quad := 0x0706050403020100
def y64 : Quad := 0x1716151413121110
def a64 : Quad := 0xFFEEDDCCBBAA9988
def upper : Xword := 0x5555555555555555AAAAAAAAAAAAAAAA
def x128 : Xword := 0x0F0E0D0C0B0A09080706050403020100
def y128 : Xword := 0x1F1E1D1C1B1A19181716151413121110
def a128 : Xword := 0xFFEEDDCCBBAA99887766554433221100
def x256 : Yword := 0x1F1E1D1C1B1A191817161514131211100F0E0D0C0B0A09080706050403020100
def y256 : Yword := 0x3F3E3D3C3B3A393837363534333231302F2E2D2C2B2A29282726252423222120
def b256 : Yword := 0xFFFEFDFCFBFAF9F8F7F6F5F4F3F2F1F0EFEEEDECEBEAE9E8E7E6E5E4E3E2E1E0

/-- MM0 and MM1. -/
def mm01 (a b : Quad) : State := writeMm (writeMm s64 0 a) 1 b

/-- XMM1 and XMM2, with a pattern in YMM1[255:128]. -/
def xmm12 (a b : Xword) : State := writeYmm (writeYmm s64 1 (upper ++ a)) 2 (zeros 128 ++ b)

/-- YMM1 and YMM2, with a pattern in YMM0[255:128]. -/
def ymm12 (a b : Yword) : State := writeYmm (writeYmm (writeYmm s64 0 (upper ++ zeros 128)) 1 a) 2 b

/-! ### Well-formedness: an ill-formed term for each check -/

/-- [reg] in 64-bit mode. -/
def atReg (r : Gpr) : Mem := ⟨defaultSeg (.gpr r), .a64, .gpr r, none, .absent⟩

/-- An address form in 32-bit addressing, and in 16-bit addressing, through DS. -/
def mem32 (b : Base) (ix : Option Index) (d : Disp) : Mem := ⟨.ds, .a32, b, ix, d⟩
def mem16 (b : Base) (ix : Option Index) (d : Disp) : Mem := ⟨.ds, .a16, b, ix, d⟩

theorem test_wf_good :
    wellFormed .m64 (.punpckhqdqXmm 8 (.mem (atReg 0)) 5) = true ∧
    wellFormed .m32 (.punpckhbwMm 0 (.mem ⟨.ds, .a16, .gpr 3, none, .d8 8⟩) 5) = true ∧
    wellFormed .m64 (.vpunpckhqdqYmm 12 13 (.mem ⟨.ds, .a64, .gpr 8, some ⟨9, 3⟩, .d8 0x80⟩) 7) = true := by decide
theorem test_wf_reg : wellFormed .m32 (.punpckhbwXmm 8 (.reg 0) 15) = false := by decide
theorem test_wf_vvvv : wellFormed .m32 (.vpunpckhbwXmm 0 8 (.reg 0) 15) = false := by decide
theorem test_wf_src : wellFormed .m32 (.punpckhbwXmm 0 (.reg 8) 15) = false := by decide
theorem test_wf_asize :
    wellFormed .m64 (.punpckhbwXmm 0 (.mem (mem16 (.gpr 3) none .absent)) 15) = false ∧
    wellFormed .m32 (.punpckhbwXmm 0 (.mem (atReg 0)) 15) = false := by decide
theorem test_wf_pair16 :
    wellFormed .m32 (.punpckhbwXmm 0 (.mem (mem16 (.gpr 0) none .absent)) 15) = false ∧
    wellFormed .m32 (.punpckhbwXmm 0 (.mem (mem16 (.gpr 3) (some ⟨6, 1⟩) .absent)) 15) = false ∧
    wellFormed .m32 (.punpckhbwXmm 0 (.mem (mem16 .absent (some ⟨6, 0⟩) (.d16 0))) 15) = false ∧
    wellFormed .m32 (.punpckhbwXmm 0 (.mem (mem16 .rip none (.d16 0))) 15) = false := by decide
theorem test_wf_disp16 :
    wellFormed .m32 (.punpckhbwXmm 0 (.mem (mem16 (.gpr 5) none .absent)) 15) = false ∧
    wellFormed .m32 (.punpckhbwXmm 0 (.mem (mem16 .absent none .absent)) 15) = false ∧
    wellFormed .m32 (.punpckhbwXmm 0 (.mem (mem16 (.gpr 3) none (.d32 0))) 15) = false := by decide
theorem test_wf_base :
    wellFormed .m32 (.punpckhbwXmm 0 (.mem (mem32 .rip none (.d32 0))) 15) = false ∧
    wellFormed .m64 (.punpckhbwXmm 0 (.mem (mem32 .rip (some ⟨0, 0⟩) (.d32 0))) 15) = false ∧
    wellFormed .m32 (.punpckhbwXmm 0 (.mem (mem32 (.gpr 8) none .absent)) 15) = false := by decide
theorem test_wf_index :
    wellFormed .m64 (.punpckhbwXmm 0 (.mem (mem32 (.gpr 0) (some ⟨4, 0⟩) .absent)) 15) = false ∧
    wellFormed .m32 (.punpckhbwXmm 0 (.mem (mem32 (.gpr 0) (some ⟨8, 0⟩) .absent)) 15) = false := by decide
theorem test_wf_disp :
    wellFormed .m64 (.punpckhbwXmm 0 (.mem (mem32 .absent none (.d8 0))) 15) = false ∧
    wellFormed .m64 (.punpckhbwXmm 0 (.mem (mem32 .rip none .absent)) 15) = false ∧
    wellFormed .m64 (.punpckhbwXmm 0 (.mem (mem32 (.gpr 13) none .absent)) 15) = false ∧
    wellFormed .m64 (.punpckhbwXmm 0 (.mem (mem32 (.gpr 0) none (.d16 0))) 15) = false := by decide
theorem test_wf_length :
    wellFormed .m64 (.punpckhbwMm 0 (.reg 1) 2) = false ∧ wellFormed .m64 (.punpckhbwMm 0 (.reg 1) 3) = true ∧
    wellFormed .m64 (.punpckhbwMm 0 (.reg 1) 15) = true ∧ wellFormed .m64 (.punpckhbwMm 0 (.reg 1) 16) = false ∧
    wellFormed .m64 (.vpunpckhbwXmm 0 1 (.reg 9) 4) = false := by decide

/-! ### Decoding: words written out from the encodings of R105 (and E rows of 95_test_vectors) -/

theorem test_decode_mmx :
    decode .m64 [0x0F, 0x68, 0xC1] = .ok (.punpckhbwMm 0 (.reg 1) 3) ∧
    decode .m64 [0x0F, 0x69, 0xC1] = .ok (.punpckhwdMm 0 (.reg 1) 3) ∧
    decode .m64 [0x0F, 0x6A, 0x18] = .ok (.punpckhdqMm 3 (.mem (atReg 0)) 3) ∧
    decode .m64 [0x45, 0x0F, 0x68, 0xC1] = .ok (.punpckhbwMm 0 (.reg 1) 4) := by decide
theorem test_decode_sse :
    decode .m64 [0x66, 0x0F, 0x68, 0xCA] = .ok (.punpckhbwXmm 1 (.reg 2) 4) ∧
    decode .m64 [0x66, 0x0F, 0x69, 0xCA] = .ok (.punpckhwdXmm 1 (.reg 2) 4) ∧
    decode .m64 [0x67, 0x66, 0x0F, 0x6A, 0x08] =
      .ok (.punpckhdqXmm 1 (.mem (mem32 (.gpr 0) none .absent)) 5) ∧
    decode .m64 [0x66, 0x45, 0x0F, 0x6D, 0xC0] = .ok (.punpckhqdqXmm 8 (.reg 8) 5) := by decide
theorem test_decode_vex128 :
    decode .m64 [0xC5, 0xF1, 0x68, 0xC2] = .ok (.vpunpckhbwXmm 0 1 (.reg 2) 4) ∧
    decode .m64 [0xC4, 0xC1, 0x71, 0x69, 0xC1] = .ok (.vpunpckhwdXmm 0 1 (.reg 9) 5) ∧
    decode .m64 [0xC5, 0xF1, 0x6A, 0x43, 0x10] =
      .ok (.vpunpckhdqXmm 0 1 (.mem ⟨.ds, .a64, .gpr 3, none, .d8 0x10⟩) 5) ∧
    decode .m64 [0xC5, 0xD1, 0x6D, 0xE6] = .ok (.vpunpckhqdqXmm 4 5 (.reg 6) 4) := by decide
theorem test_decode_vex256 :
    decode .m64 [0xC5, 0xF5, 0x68, 0xC2] = .ok (.vpunpckhbwYmm 0 1 (.reg 2) 4) ∧
    decode .m64 [0xC5, 0xF5, 0x69, 0xC2] = .ok (.vpunpckhwdYmm 0 1 (.reg 2) 4) ∧
    decode .m64 [0xC5, 0xED, 0x6A, 0xCB] = .ok (.vpunpckhdqYmm 1 2 (.reg 3) 4) ∧
    decode .m64 [0xC4, 0x01, 0x15, 0x6D, 0x64, 0xC8, 0x80] =
      .ok (.vpunpckhqdqYmm 12 13 (.mem ⟨.ds, .a64, .gpr 8, some ⟨9, 3⟩, .d8 0x80⟩) 7) := by decide
/-- R105, R106: outside the family, reserved and undefined encodings, and one that is not complete. -/
theorem test_decode_refused :
    decode .m64 [0x90] = .rejected .notOfFamily ∧ decode .m64 [0x0F, 0x60, 0xC1] = .rejected .notOfFamily ∧
    decode .m64 [0xF3, 0x0F, 0x68, 0xC1] = .rejected .reservedPrefix ∧
    decode .m64 [0x0F, 0x6D, 0xC1] = .undefinedOpcode ∧ decode .m64 [0x0F, 0x68] = .short ∧
    decode .m32 [0xC5, 0x71, 0x68, 0xC2] = .rejected .notOfFamily := by decide
/-- Words as spec/opcode_table.json numbers them: rows 1, 2 and 8 (operand bytes of zeros). -/
theorem test_table_words :
    decodeTableWord 16 0x680F = some (.punpckhbwMm 0 (.mem (atReg 0)) 3) ∧
    decodeTableWord 24 0x680F66 = some (.punpckhbwXmm 0 (.mem (atReg 0)) 4) ∧
    decodeTableWord 32 0x680101C4 = some (.vpunpckhbwXmm 8 15 (.mem ⟨.ds, .a64, .gpr 8, none, .absent⟩) 5) := by
  decide +kernel
/-- The first step after reset runs an instruction placed by withFetchWord. -/
theorem test_first_step :
    (valueOf (step (State.reset.withFetchWord 16 0x680F))).map (fun t => t.pc) = some 0xFFF3 ∧
    (valueOf (step (State.reset.withFetchWord 32 0x6D0501C4))).map (fun t => t.pc) = some 0xFFF5 := by decide +kernel

/-! ### One step (the V and F rows of 95_test_vectors) -/

theorem test_punpckhbwMm_V1 :
    mmAfter (mm01 x64 y64) [0x0F, 0x68, 0xC1] 0 = some (0x1707160615051404, 3) := by decide +kernel
/-- V14, with the x87 side effects of R36 on a full x87 state. -/
theorem test_punpckhbwMm_V14 :
    (valueOf (run1 { mm01 0 a64 with x87Status := 0x3A00, x87Tag := 0xFFFF } [0x0F, 0x68, 0xC1])).map
      (fun t => (readMm t 0, x87Top t, t.x87Tag, readX87 t 0)) =
    some (0xFF00EE00DD00CC00, 0, 0, 0xFFFFFF00EE00DD00CC00) := by decide +kernel
theorem test_punpckhwdMm_V2 :
    mmAfter (mm01 x64 y64) [0x0F, 0x69, 0xC1] 0 = some (0x1716070615140504, 3) := by decide +kernel
theorem test_punpckhwdMm_V8 :
    mmAfter (mm01 a64 0) [0x0F, 0x69, 0xC0] 0 = some (0xFFEEFFEEDDCCDDCC, 3) := by decide +kernel
theorem test_punpckhdqMm_V3 :
    mmAfter (mm01 x64 y64) [0x0F, 0x6A, 0xC1] 0 = some (0x1716151407060504, 3) := by decide +kernel
theorem test_punpckhdqMm_V13 :
    mmAfter (setX (withBytes (mm01 x64 0) 0x2003 8 0x10) 0 0x2003) [0x0F, 0x6A, 0x00] 0 =
      some (0x1716151407060504, 3) := by decide +kernel
theorem test_punpckhbwXmm_V15 :
    ymmAfter (xmm12 x128 y128) [0x66, 0x0F, 0x68, 0xCA] 1 =
      some (upper ++ (0x1F0F1E0E1D0D1C0C1B0B1A0A19091808 : Xword), 4) := by decide +kernel
theorem test_punpckhbwXmm_V23 :
    ymmAfter (xmm12 a128 0) [0x66, 0x0F, 0x68, 0xC9] 1 =
      some (upper ++ (0xFFFFEEEEDDDDCCCCBBBBAAAA99998888 : Xword), 4) := by decide +kernel
theorem test_punpckhwdXmm_V16 :
    ymmAfter (xmm12 x128 y128) [0x66, 0x0F, 0x69, 0xCA] 1 =
      some (upper ++ (0x1F1E0F0E1D1C0D0C1B1A0B0A19180908 : Xword), 4) := by decide +kernel
theorem test_punpckhwdXmm_V20 :
    ymmAfter (xmm12 a128 0) [0x66, 0x0F, 0x69, 0xCA] 1 =
      some (upper ++ (0x0000FFEE0000DDCC0000BBAA00009988 : Xword), 4) := by decide +kernel
theorem test_punpckhdqXmm_V28 :
    ymmAfter (setX (withBytes (xmm12 x128 0) 0x2000 16 0x10) 0 0x2000) [0x66, 0x0F, 0x6A, 0x08] 1 =
      some (upper ++ (0x1F1E1D1C0F0E0D0C1B1A19180B0A0908 : Xword), 4) := by decide +kernel
theorem test_punpckhdqXmm_F1 :
    faultOf (run1 (setX s64 0 0x2008) [0x66, 0x0F, 0x6A, 0x08]) = some .gp0 := by decide +kernel
theorem test_punpckhqdqXmm_V27 :
    ymmAfter (xmm12 x128 y128) [0x66, 0x0F, 0x6D, 0xCA] 1 =
      some (upper ++ (0x1F1E1D1C1B1A19180F0E0D0C0B0A0908 : Xword), 4) := by decide +kernel
theorem test_punpckhqdqXmm_V22 :
    ymmAfter (xmm12 a128 0) [0x66, 0x0F, 0x6D, 0xCA] 1 =
      some (upper ++ (0x0000000000000000FFEEDDCCBBAA9988 : Xword), 4) := by decide +kernel
theorem test_vpunpckhbwXmm_V30 :
    ymmAfter (ymm12 (zeros 128 ++ x128) (zeros 128 ++ y128)) [0xC5, 0xF1, 0x68, 0xC2] 0 =
      some (0x1F0F1E0E1D0D1C0C1B0B1A0A19091808, 4) := by decide +kernel
theorem test_vpunpckhbwXmm_V38 :
    ymmAfter (ymm12 (zeros 128 ++ x128) (zeros 128 ++ y128)) [0xC4, 0xE1, 0xF1, 0x68, 0xC2] 0 =
      some (0x1F0F1E0E1D0D1C0C1B0B1A0A19091808, 5) := by decide +kernel
theorem test_vpunpckhwdXmm_V34 :
    ymmAfter (writeYmm (writeYmm s64 0 (upper ++ a128)) 3 (zeros 128 ++ y128)) [0xC5, 0xF9, 0x69, 0xC3] 0 =
      some (0x1F1EFFEE1D1CDDCC1B1ABBAA19189988, 4) := by decide +kernel
theorem test_vpunpckhwdXmm_V37 :
    ymmAfter (writeYmm (writeYmm s64 1 (upper ++ x128)) 9 (zeros 128 ++ y128)) [0xC4, 0xC1, 0x71, 0x69, 0xC1] 0 =
      some (0x1F1E0F0E1D1C0D0C1B1A0B0A19180908, 5) := by decide +kernel
theorem test_vpunpckhdqXmm_V35 :
    ymmAfter (setX (withBytes (ymm12 (upper ++ x128) 0) 0x3001 16 0x10) 3 0x2FF1) [0xC5, 0xF1, 0x6A, 0x43, 0x10] 0 =
      some (0x1F1E1D1C0F0E0D0C1B1A19180B0A0908, 5) := by decide +kernel
theorem test_vpunpckhdqXmm_task_switched :
    faultOf (run1 { s64 with cr0 := 8 } [0xC5, 0xF1, 0x6A, 0xC2]) = some .nm := by decide +kernel
theorem test_vpunpckhqdqXmm_V33 :
    ymmAfter (ymm12 (upper ++ x128) (upper ++ a128)) [0xC5, 0xF1, 0x6D, 0xC2] 0 =
      some (0xFFEEDDCCBBAA99880F0E0D0C0B0A0908, 4) := by decide +kernel
theorem test_vpunpckhqdqXmm_F11 :
    faultOf (run1 { s64 with xcr0 := 3 } [0xC5, 0xF1, 0x6D, 0xC2]) = some .ud := by decide +kernel
theorem test_vpunpckhbwYmm_V39 :
    ymmAfter (ymm12 x256 y256) [0xC5, 0xF5, 0x68, 0xC2] 0 =
      some (0x3F1F3E1E3D1D3C1C3B1B3A1A391938182F0F2E0E2D0D2C0C2B0B2A0A29092808, 4) := by decide +kernel
theorem test_vpunpckhbwYmm_V47 :
    ymmAfter (ymm12 x256 0) [0xC5, 0xF5, 0x68, 0xC9] 1 =
      some (0x1F1F1E1E1D1D1C1C1B1B1A1A191918180F0F0E0E0D0D0C0C0B0B0A0A09090808, 4) := by decide +kernel
theorem test_vpunpckhwdYmm_V40 :
    ymmAfter (ymm12 x256 y256) [0xC5, 0xF5, 0x69, 0xC2] 0 =
      some (0x3F3E1F1E3D3C1D1C3B3A1B1A393819182F2E0F0E2D2C0D0C2B2A0B0A29280908, 4) := by decide +kernel
theorem test_vpunpckhwdYmm_V44 :
    ymmAfter (ymm12 b256 0) [0xC5, 0xF5, 0x69, 0xC2] 0 =
      some (0x0000FFFE0000FDFC0000FBFA0000F9F80000EFEE0000EDEC0000EBEA0000E9E8, 4) := by decide +kernel
theorem test_vpunpckhdqYmm_V41 :
    ymmAfter (ymm12 x256 y256) [0xC5, 0xF5, 0x6A, 0xC2] 0 =
      some (0x3F3E3D3C1F1E1D1C3B3A39381B1A19182F2E2D2C0F0E0D0C2B2A29280B0A0908, 4) := by decide +kernel
theorem test_vpunpckhdqYmm_F3 :
    faultOf (run1 { s64 with par := { s64.par with hasAVX2 := false } } [0xC5, 0xF5, 0x6A, 0xC2]) = some .ud := by
  decide +kernel
theorem test_vpunpckhqdqYmm_V42 :
    ymmAfter (ymm12 x256 y256) [0xC5, 0xF5, 0x6D, 0xC2] 0 =
      some (0x3F3E3D3C3B3A39381F1E1D1C1B1A19182F2E2D2C2B2A29280F0E0D0C0B0A0908, 4) := by decide +kernel
theorem test_vpunpckhqdqYmm_V48 :
    ymmAfter (setX (setX (withBytes (writeYmm s64 13 x256) 0x18000 32 0x20) 8 0x10080) 9 0x1000)
      [0xC4, 0x01, 0x15, 0x6D, 0x64, 0xC8, 0x80] 12 =
      some (0x3F3E3D3C3B3A39381F1E1D1C1B1A19182F2E2D2C2B2A29280F0E0D0C0B0A0908, 7) := by decide +kernel

/-! ### Witnesses: a state and operands that meet the hypotheses of each obligation that has any -/

theorem ordinary_s64 : OrdinaryMemory s64 := by
  refine ⟨rfl, fun lin => ?_⟩
  have h := lin.isLt
  simp [readableAt, s64, launch, State.reset, Params.atReset, h]

theorem ordinary_of_par {s : State} (h : s.par.paging = .identity ∧ s.par.readable = [⟨0, 2 ^ 64⟩]) :
    OrdinaryMemory s := by
  refine ⟨h.1, fun lin => ?_⟩
  have hlt := lin.isLt
  simp [readableAt, h.2, hlt]

/-- RAX holds 2000H, memory the bytes 10H, 11H, ... from there. -/
def sMem : State := setX (withBytes (xmm12 x128 y128) 0x2000 32 0x10) 0 0x2000

/-- O2 (DecodeOfEncode): every kind, each mode, the shortest length and 15. -/
theorem test_witness_DecodeOfEncode :
    wellFormed .m64 (.punpckhbwMm 7 (.reg 7) 3) = true ∧ wellFormed .m64 (.punpckhbwMm 7 (.reg 7) 15) = true ∧
    wellFormed .m32 (.punpckhqdqXmm 7 (.mem (mem32 .absent none (.d32 0xFFFFFFFF))) 8) = true ∧
    wellFormed .real (.vpunpckhwdXmm 7 7 (.reg 7) 4) = true ∧
    wellFormed .m64 (.vpunpckhdqYmm 15 15 (.mem (atReg 15)) 15) = true ∧
    wellFormed .m64 (.vpunpckhdqYmm 15 15 (.mem ⟨.gs, .a32, .gpr 13, some ⟨15, 3⟩, .d32 1⟩) 12) = true := by
  decide
/-- O3 (DecodedIsWellFormed): an encoding of all 15 bytes. -/
theorem test_witness_DecodedIsWellFormed :
    let ws : List Byte := List.replicate 11 0x3E ++ [0x66, 0x0F, 0x6D, 0xC8]
    ws.length ≤ 15 ∧ decode .m64 ws = .ok (.punpckhqdqXmm 1 (.reg 0) 15) := by decide
/-- O4 (DecodeReadsExactlyItsBytes): bytes follow the instruction. -/
theorem test_witness_DecodeReadsExactlyItsBytes :
    decode .m64 [0x0F, 0x68, 0xC1, 0x90] = .ok (.punpckhbwMm 0 (.reg 1) 3) ∧
    2 < (fieldsOf (.punpckhbwMm 0 (.reg 1) 3)).len := by decide
/-- R85, R83: 0F 6D without 66H after 67H, a segment override, a REX byte or LOCK, and with its operand cut off. -/
theorem test_decode_qdq_without_opsize :
    decode .m64 [0x67, 0x2E, 0x44, 0x0F, 0x6D, 0xC1] = .undefinedOpcode ∧
    decode .m32 [0xF0, 0x0F, 0x6D, 0xC1] = .undefinedOpcode ∧ decode .m64 [0x44, 0x0F, 0x6D, 0x40] = .short := by
  decide
/-- F24 (R83): the REX byte before 66H is ignored, xmm0 and not xmm8; and R78: FS, the last of three overrides. -/
theorem test_decode_misplaced_rex_and_overrides :
    decode .m64 [0x44, 0x66, 0x0F, 0x6D, 0x00] = .ok (.punpckhqdqXmm 0 (.mem (atReg 0)) 5) ∧
    decode .m64 [0x36, 0x65, 0x64, 0x0F, 0x68, 0x00] =
      .ok (.punpckhbwMm 0 (.mem ⟨.fs, .a64, .gpr 0, none, .absent⟩) 6) := by decide
/-- O5 (LegacyPrefixesAndRexPlacement), the clauses on misplaced REX bytes, on repetition and overrides, and on order. -/
theorem test_witness_LegacyPrefixesAndRexPlacement_order :
    (PrefixByte .m64 0x67 ∧ PrefixByte .m64 0x4F ∧ (0x44 : Byte).extractLsb' 4 4 = 4#4 ∧ 0x66 ∈ legacyPrefixBytes ∧
      decode .m64 ([0x67] ++ 0x66 :: [0x0F, 0x6D, 0x00]) = .ok (.punpckhqdqXmm 0 (.mem (mem32 (.gpr 0) none .absent)) 5) ∧
      decode .m64 (0x2E :: [0xC5, 0xF1, 0x68, 0xC2]) = .ok (.vpunpckhbwXmm 0 1 (.reg 2) 5)) ∧
    ((0x65 : Byte) ∈ legacyPrefixBytes ∧ (0x64 : Byte) ∈ [0x44, (0x64 : Byte)] ∧ (0x65 : Byte) ∈ segmentBytes ∧
      (0x64 : Byte) ∈ segmentBytes ∧
      decode .m64 ([] ++ ([0x44, 0x64] ++ [0x0F, 0x68, 0x00])) =
        .ok (.punpckhbwMm 0 (.mem ⟨.fs, .a64, .gpr 0, none, .absent⟩) 5)) ∧
    ((0x66 : Byte) ∈ legacyPrefixBytes ∧ ¬ ((0x66 : Byte) ∈ segmentBytes ∧ (0x65 : Byte) ∈ segmentBytes)) := by
  unfold PrefixByte
  decide
/-- O5: the hypotheses of its first three clauses. -/
theorem test_witness_LegacyPrefixesAndRexPlacement :
    (∀ w, w ∈ [0x67, 0x2E, 0xF0, (0x4F : Byte)] → w ∈ [0x67, 0x26, 0x2E, 0x36, 0x3E, 0x64, 0x65, (0xF0 : Byte)] ∨
      (Mode.m64 = .m64 ∧ w.extractLsb' 4 4 = 4#4)) ∧
    wellFormed .m64 (.punpckhbwMm 7 (.mem (atReg 15)) 5) = true ∧ wellFormed .m32 (.punpckhwdMm 0 (.reg 7) 3) = true ∧
    wellFormed .m64 (.punpckhdqMm 0 (.reg 0) 15) = true ∧ wellFormed .m64 (.punpckhqdqXmm 15 (.reg 15) 5) = true := by
  decide
/-- O6 (LockPrefixIsInvalid). -/
theorem test_witness_LockPrefixIsInvalid :
    wellFormed .m64 (.punpckhbwMm 0 (.reg 1) 3) = true ∧ wellFormed .m32 (.vpunpckhbwYmm 0 1 (.reg 2) 4) = true := by
  decide
/-- O7 (RepeatPrefixesRefused): all four kinds, both prefixes. -/
theorem test_witness_RepeatPrefixesRefused :
    wellFormed .m64 (.punpckhbwMm 0 (.reg 1) 3) = true ∧ wellFormed .m64 (.punpckhqdqXmm 0 (.reg 1) 4) = true ∧
    wellFormed .m64 (.vpunpckhwdXmm 0 1 (.reg 2) 4) = true ∧ wellFormed .m64 (.vpunpckhdqYmm 0 1 (.reg 2) 4) = true ∧
    ((0xF2 : Byte) = 0xF2 ∨ (0xF2 : Byte) = 0xF3) ∧ ((0xF3 : Byte) = 0xF2 ∨ (0xF3 : Byte) = 0xF3) := by decide
/-- O8 (PrefixesBeforeVexAreInvalid): 66H in 32-bit operation, the first and the last REX byte in 64-bit mode. -/
theorem test_witness_PrefixesBeforeVexAreInvalid :
    (wellFormed .m32 (.vpunpckhbwXmm 0 1 (.reg 2) 4) = true ∧ (fieldsOf (.vpunpckhbwXmm 0 1 (.reg 2) 4)).kind = .vex128 ∧
      ((0x66 : Byte) = 0x66 ∨ (Mode.m32 = .m64 ∧ (0x66 : Byte).extractLsb' 4 4 = 4#4))) ∧
    (wellFormed .m64 (.vpunpckhbwYmm 0 1 (.reg 2) 4) = true ∧ (fieldsOf (.vpunpckhbwYmm 0 1 (.reg 2) 4)).kind = .vex256 ∧
      (0x40 : Byte).extractLsb' 4 4 = 4#4 ∧ (0x4F : Byte).extractLsb' 4 4 = 4#4) := by decide
/-- O9 (VexWIsIgnored): the prefixes it allows, first and last of each kind. -/
theorem test_witness_VexWIsIgnored :
    ∀ b : Byte, b ∈ [0x66, 0x26, 0x65, 0x67, 0x40, 0x4F] → PrefixByte .m64 b := by unfold PrefixByte; decide
/-- O10 (BothVexPrefixesSpellTheSameInstruction), with and without prefixes. -/
theorem test_witness_BothVexPrefixesSpellTheSameInstruction :
    decode .m64 [0xC5, 0xD1, 0x6D, 0xE6] = .ok (.vpunpckhqdqXmm 4 5 (.reg 6) 4) ∧
    decode .m32 ([0x65, 0x67] ++ 0xC5 :: 0xF5 :: [0x6A, 0x07]) =
      .ok (.vpunpckhdqYmm 0 1 (.mem ⟨.gs, .a16, .gpr 3, none, .absent⟩) 6) ∧
    PrefixByte .m32 0x65 ∧ PrefixByte .m32 0x67 := by unfold PrefixByte; decide
/-- R97, R99, R100: VEX encodings that are not of the family: pp 00B and 11B, mmmmm 00010B, another opcode, LES; and one
with LOCK before it. -/
theorem test_decode_vex_refused :
    decode .m64 [0xC5, 0xF0, 0x68, 0xC2] = .rejected .notOfFamily ∧
    decode .m64 [0xC5, 0xF3, 0x68, 0xC2] = .rejected .notOfFamily ∧
    decode .m64 [0xC4, 0xE2, 0x71, 0x68, 0xC2] = .rejected .notOfFamily ∧
    decode .m64 [0xC5, 0xF1, 0x6C, 0xC2] = .rejected .notOfFamily ∧
    decode .m32 [0xC4, 0xA1, 0x71, 0x68, 0xC2] = .rejected .notOfFamily ∧
    decode .m64 [0xF0, 0xC5, 0xF0, 0x68, 0xC2] = .undefinedOpcode := by decide
/-- O11 (OtherOpcodesRefused): a hypothesis of each clause, at the values beside those of the family. -/
theorem test_witness_OtherOpcodesRefused :
    (∀ op : Byte, op ∈ [0x60, 0x67, 0x6B, 0x6C, (0x6E : Byte)] → op ∉ familyOpcodes) ∧
    (¬ PrefixByte .m64 0x90 ∧ ¬ PrefixByte .m32 0x40 ∧ PrefixByte .m64 0x40) ∧
    (Mode.m32 ≠ .m64 ∧ (0x80 : Byte).extractLsb' 6 2 ≠ 3#2) ∧
    ((0xF0 : Byte).extractLsb' 6 2 = 3#2 ∧ (0xF0 : Byte).extractLsb' 0 2 ≠ 1#2) ∧
    ((0xE2 : Byte).extractLsb' 6 2 = 3#2 ∧ (0xE2 : Byte).extractLsb' 0 5 ≠ 1#5) ∧
    ((∀ b, b ∈ [0x67, (0x65 : Byte)] → b = 0x67 ∨ b ∈ segmentBytes) ∧
      ¬ ∀ b, b ∈ [0x67, (0xF0 : Byte)] → b = 0x67 ∨ b ∈ segmentBytes) := by
  unfold PrefixByte
  decide
/-- O21 (InterleaveElementFormula) and O24 (ZeroSourceZeroExtends): the last element of each width and lane. -/
theorem test_witness_element_numbers :
    (3 < 64 / (2 * 8) ∧ 1 < 64 / (2 * 16) ∧ 0 < 64 / (2 * 32)) ∧
    (7 < 128 / (2 * 8) ∧ 3 < 128 / (2 * 16) ∧ 1 < 128 / (2 * 32) ∧ 0 < 128 / (2 * 64)) ∧ 1 < 2 := by decide
/-- O22 (LanesAreIndependent): each width. -/
theorem test_witness_LanesAreIndependent :
    ∀ w : Nat, w ∈ [8, 16, 32, 64] → w = 8 ∨ w = 16 ∨ w = 32 ∨ w = 64 := by decide
/-- O23 (LowHalvesAreIgnored): operands that differ in every bit of their low halves. -/
theorem test_witness_LowHalvesAreIgnored :
    (0x89ABCDEF00000000 : Quad).extractLsb' 32 32 = (0x89ABCDEFFFFFFFFF : Quad).extractLsb' 32 32 ∧
    (zeros 128).extractLsb' 64 64 = (0xFFFFFFFFFFFFFFFF : Xword).extractLsb' 64 64 ∧
    ((zeros 256).extractLsb' 64 64 =
        (0xFFFFFFFFFFFFFFFF0000000000000000FFFFFFFFFFFFFFFF : Yword).extractLsb' 64 64 ∧
      (zeros 256).extractLsb' 192 64 =
        (0xFFFFFFFFFFFFFFFF0000000000000000FFFFFFFFFFFFFFFF : Yword).extractLsb' 192 64) := by decide
/-- O25 (MmxFormsComplete), with a register and with a memory operand. -/
theorem test_witness_MmxFormsComplete :
    MmxEnabled sMem ∧ srcMm sMem 3 (.reg 1) = .next 0 ∧ srcMm sMem 3 (.mem (atReg 0)) = .next 0x1716151413121110 := by
  refine ⟨?_, next_of_valueOf ?_, next_of_valueOf ?_⟩
  · unfold MmxEnabled; decide +kernel
  all_goals decide +kernel
/-- O26 (SseFormsComplete). -/
theorem test_witness_SseFormsComplete :
    SseEnabled sMem ∧ srcSse sMem 4 (.reg 2) = .next y128 ∧ srcSse sMem 4 (.mem (atReg 0)) = .next y128 := by
  refine ⟨?_, next_of_valueOf ?_, next_of_valueOf ?_⟩
  · unfold SseEnabled; decide +kernel
  all_goals decide +kernel
/-- O27 (Vex128FormsComplete), the memory operand misaligned. -/
theorem test_witness_Vex128FormsComplete :
    sMem.par.hasAVX = true ∧ VexEnabled sMem ∧ srcVex128 sMem 4 (.reg 2) = .next y128 ∧
    ∃ b, srcVex128 (setX sMem 0 0x2001) 4 (.mem (atReg 0)) = .next b := by
  refine ⟨rfl, ?_, next_of_valueOf ?_, next_of_isSome ?_⟩
  · unfold VexEnabled; decide +kernel
  all_goals decide +kernel
/-- O28 (Vex256FormsComplete), the memory operand misaligned. -/
theorem test_witness_Vex256FormsComplete :
    sMem.par.hasAVX2 = true ∧ VexEnabled sMem ∧ srcVex256 sMem 4 (.reg 2) = .next (zeros 128 ++ y128) ∧
    ∃ b, srcVex256 (setX sMem 0 0x2001) 4 (.mem (atReg 0)) = .next b := by
  refine ⟨rfl, ?_, next_of_valueOf ?_, next_of_isSome ?_⟩
  · unfold VexEnabled; decide +kernel
  all_goals decide +kernel
/-- Alignment checking on, at CPL 3. -/
def acOn (s : State) : State :=
  { s with cr0 := s.cr0 ||| 0x40000, rflags := s.rflags ||| 0x40000, cs := { s.cs with selector := 0x1B } }

/-- O30 (MemoryOperandsIn64BitMode): the last canonical operand of each size; m64 with alignment checking on too. -/
theorem test_witness_MemoryOperandsIn64BitMode :
    let at64 (v : Quad) := linear64 (setX s64 0 v) .ds (effAddr (setX s64 0 v) 3 (atReg 0))
    s64.par.mode = .m64 ∧ OrdinaryMemory (setX s64 0 0x7FFFFFFFFFF8) ∧
    (CanonicalBytes s64 (at64 0x7FFFFFFFFFF8) 8 ∧ ¬ AlignCheckOn s64 ∧ AlignCheckOn (acOn s64) ∧
      (at64 0x7FFFFFFFFFF8).toNat % 8 = 0) ∧
    (CanonicalBytes s64 (at64 0x7FFFFFFFFFF0) 16 ∧ (at64 0x7FFFFFFFFFF0).toNat % 16 = 0) ∧
    CanonicalBytes s64 (at64 0x7FFFFFFFFFE0) 32 := by
  refine ⟨rfl, ordinary_of_par ⟨rfl, rfl⟩, ?_⟩
  unfold CanonicalBytes AlignCheckOn
  decide +kernel
/-- O31 (MemoryOperandsIn32BitMode): the last operand of each size within DS's limit (FFH), and one through SS. -/
theorem test_witness_MemoryOperandsIn32BitMode :
    let ea (v : Quad) := (effAddr (setX s32 0 v) 3 (mem32 (.gpr 0) none .absent)).toNat
    let within (v : Quad) (n : Nat) : Prop := ∀ k, k < n → (ea v + k) % 2 ^ 32 ≤ (segment s32 .ds).limit.toNat
    s32.par.mode = .m32 ∧ OrdinaryMemory s32 ∧ (segment s32 .ds).readable = true ∧
    (segment s32 .ds).selector.extractLsb' 2 14 ≠ 0#14 ∧
    (within 0xF8 8 ∧ ¬ AlignCheckOn s32 ∧ ((segment s32 .ds).base.toNat + ea 0xF8 + 0) % 2 ^ 32 % 8 = 0) ∧
    (within 0xF0 16 ∧ ((segment s32 .ds).base.toNat + ea 0xF0 + 0) % 2 ^ 32 % 16 = 0) ∧ within 0xE0 32 := by
  refine ⟨rfl, ordinary_of_par ⟨rfl, rfl⟩, rfl, ?_, ?_⟩
  · decide
  · unfold AlignCheckOn
    decide +kernel
/-- O32 (MmxGateFaults): its four clauses. -/
theorem test_witness_MmxGateFaults :
    let s1 : State := { s64 with cr0 := 4 }
    let s2 : State := { s64 with cr0 := 8 }
    let s3 : State := { s64 with cr0 := 0x20, x87Status := 0x80 }
    let s4 : State := { s64 with cr0 := 0, x87Status := 0x80 }
    let ud (s : State) : Prop := s.cr0.getLsbD 2 = true ∨ s.par.hasMMX = false
    ud s1 ∧ (¬ ud s2 ∧ s2.cr0.getLsbD 3 = true) ∧
    (¬ ud s3 ∧ s3.cr0.getLsbD 3 = false ∧ s3.x87Status.getLsbD 7 = true ∧ s3.cr0.getLsbD 5 = true) ∧
    (¬ ud s4 ∧ s4.cr0.getLsbD 3 = false ∧ s4.x87Status.getLsbD 7 = true ∧ s4.cr0.getLsbD 5 = false) := by
  decide +kernel
/-- O33 (SseGateFaults): its two clauses, the first by each of its conditions. -/
theorem test_witness_SseGateFaults :
    let ud (s : State) : Prop := s.cr0.getLsbD 2 = true ∨ s.cr4.getLsbD 9 = false ∨ s.par.hasSSE2 = false
    ud { s64 with cr0 := 4 } ∧ ud { s64 with cr4 := 0 } ∧
    ud { s64 with par := { s64.par with hasSSE2 := false } } ∧
    (¬ ud { s64 with cr0 := 8 } ∧ ({ s64 with cr0 := 8 } : State).cr0.getLsbD 3 = true) := by decide +kernel
/-- O34 (VexGateFaults): its four clauses, the first by each of its conditions. -/
theorem test_witness_VexGateFaults :
    let off (s : State) : Prop := s.cr4.getLsbD 18 = false ∨ s.xcr0.extractLsb' 1 2 ≠ 3#2 ∨ s.par.mode = .real
    off { s64 with cr4 := 0x200 } ∧ off { s64 with xcr0 := 3 } ∧ off State.reset ∧
    ({ s64 with par := { s64.par with hasAVX := false } } : State).par.hasAVX = false ∧
    ({ s64 with par := { s64.par with hasAVX2 := false } } : State).par.hasAVX2 = false ∧
    (s64.par.hasAVX = true ∧ s64.par.hasAVX2 = true ∧ ¬ off { s64 with cr0 := 8 } ∧
      ({ s64 with cr0 := 8 } : State).cr0.getLsbD 3 = true) := by decide +kernel
/-- O35 (SseMisalignedOperandFaults): both ends of the misaligned range. -/
theorem test_witness_SseMisalignedOperandFaults :
    SseEnabled s64 ∧
    segCheck (setX s64 0 0x2001) .ds (effAddr (setX s64 0 0x2001) 4 (atReg 0)) 16 = .next 0x2001 ∧
    segCheck (setX s64 0 0x200F) .ds (effAddr (setX s64 0 0x200F) 4 (atReg 0)) 16 = .next 0x200F ∧
    (0x2001 : Quad).toNat % 16 ≠ 0 ∧ (0x200F : Quad).toNat % 16 ≠ 0 := by
  refine ⟨?_, next_of_valueOf ?_, next_of_valueOf ?_, ?_, ?_⟩
  · unfold SseEnabled; decide +kernel
  all_goals decide +kernel
/-- Page 2, mapped to page 7 for both; page 4, present and protected from the user, whose row sets bits 0, 3 and 5 of the
code; page FH, fetched by the supervisor. Pages 1, 3 and 10H have no row. -/
def rows : List PageRow :=
  [⟨2, .read, false, .frame 7⟩, ⟨2, .read, true, .frame 7⟩, ⟨4, .read, true, .fault 0x29⟩, ⟨0xF, .fetch, false, .frame 0xF⟩]

/-- The same, at CPL 3. -/
def sPaged : State := { s64 with par := { s64.par with paging := .table rows }, cs := { s64.cs with selector := 0x1B } }

/-- O36 (AlignmentCheckFaults), under the identity and under a page table. -/
theorem test_witness_AlignmentCheckFaults :
    (let s := acOn (setX s64 0 0x2007)
     MmxEnabled s ∧ AlignCheckOn s ∧ segCheck s .ds (effAddr s 3 (atReg 0)) 8 = .next 0x2007 ∧
      (∀ j, j < 8 → Translates s (addrAdd s 0x2007 j) .read)) ∧
    (let s := acOn (setX sPaged 0 0x2FF7)
     MmxEnabled s ∧ AlignCheckOn s ∧ segCheck s .ds (effAddr s 3 (atReg 0)) 8 = .next 0x2FF7 ∧
      (∀ j, j < 8 → Translates s (addrAdd s 0x2FF7 j) .read)) ∧
    (0x2007 : Quad).toNat % 8 ≠ 0 ∧ (0x2FF7 : Quad).toNat % 8 ≠ 0 := by
  refine ⟨⟨?_, ?_, next_of_valueOf ?_, fun j _ => .inr (.inl rfl)⟩, ⟨?_, ?_, next_of_valueOf ?_, fun j hj => ?_⟩, ?_, ?_⟩
  · unfold MmxEnabled; decide +kernel
  · unfold AlignCheckOn; decide +kernel
  · decide +kernel
  · unfold MmxEnabled; decide +kernel
  · unfold AlignCheckOn; decide +kernel
  · decide +kernel
  · refine .inr (.inr ⟨rows, 7, rfl, ?_⟩)
    revert j
    decide +kernel
  all_goals decide
/-- O37 (NonCanonicalOperandFaults): operands of which only the last byte is not canonical, through DS and SS. -/
theorem test_witness_NonCanonicalOperandFaults :
    s64.par.mode = .m64 ∧ MmxEnabled s64 ∧ SseEnabled s64 ∧ s64.par.hasAVX = true ∧ s64.par.hasAVX2 = true ∧
    VexEnabled s64 ∧
    ¬ CanonicalBytes s64 (linear64 s64 .ds (effAddr (setX s64 0 0x7FFFFFFFFFF9) 3 (atReg 0))) 8 ∧
    ¬ CanonicalBytes s64 (linear64 s64 .ss (effAddr (setX s64 5 0x7FFFFFFFFFF1) 3 ⟨.ss, .a64, .gpr 5, none, .d8 0⟩)) 16 ∧
    ¬ CanonicalBytes s64 (linear64 s64 .ds (effAddr (setX s64 0 0x7FFFFFFFFFE1) 3 (atReg 0))) 32 := by
  unfold MmxEnabled SseEnabled VexEnabled CanonicalBytes
  decide +kernel
/-- O38 (SegmentCheckIn32BitMode): the last operand within DS's limit, and the next, past it. -/
theorem test_witness_SegmentCheckIn32BitMode :
    let ok (g : SegReg) (ea : Quad) (n : Nat) : Prop := (segment s32 g).readable = true ∧
      (segment s32 g).selector.extractLsb' 2 14 ≠ 0#14 ∧
      ∀ k, k < n → (ea.toNat + k) % 2 ^ 32 ≤ (segment s32 g).limit.toNat
    s32.par.mode = .m32 ∧ ok .ds 0xF8 8 ∧ ¬ ok .ds 0xF9 8 ∧ ok .ss 0xF0 16 ∧ ¬ ok .ss 0xF1 16 := by decide +kernel
/-- A state with NarrowFetch = high8. -/
def narrow (s : State) : State := { s with par := { s.par with narrowFetch := .high8 } }

/-- O39 (PageFaultOfAnOperand), first clause: an operand that crosses into the absent page, one on the protected page,
and (NarrowFetch = high8) one whose byte 8 is the first on the absent page. -/
theorem test_witness_PageFaultOfAnOperand :
    sPaged.par.mode ≠ .real ∧ sPaged.par.paging = .table rows ∧
    segCheck sPaged .ds 0x2FFC 8 = .next 0x2FFC ∧ segCheck sPaged .ds 0x4000 16 = .next 0x4000 ∧
    segCheck (narrow sPaged) .ds 0x2FF8 16 = .next 0x2FF8 ∧ (0x4000 : Quad).toNat % 16 = 0 ∧
    (∀ j, j < 4 → findPage rows ((addrAdd sPaged 0x2FFC j).toNat / 4096) .read (decide (cpl sPaged = 3)) = .frame 7) ∧
    findPage rows ((addrAdd sPaged 0x2FFC 4).toNat / 4096) .read (decide (cpl sPaged = 3)) = .fault 0 ∧
    findPage rows ((addrAdd sPaged 0x2FF8 8).toNat / 4096) .read (decide (cpl sPaged = 3)) = .fault 0 ∧
    findPage rows ((addrAdd sPaged 0x4000 0).toNat / 4096) .read (decide (cpl sPaged = 3)) = .fault 0x29 := by
  refine ⟨by decide, rfl, next_of_valueOf ?_, next_of_valueOf ?_, next_of_valueOf ?_, ?_⟩
  all_goals decide +kernel
/-- O39, second clause: NarrowFetch = high8, bytes 0 to 7 on the absent page below page 2, bytes 8 to 15 on page 2; and
an aligned m64 with alignment checking on. -/
theorem test_witness_PageFaultOfAnOperand_reads :
    segCheck (narrow sPaged) .ds 0x1FF8 16 = .next 0x1FF8 ∧ (narrow sPaged).par.narrowFetch = .high8 ∧
    (∀ j, j < 16 → 8 ≤ j →
      findPage rows ((addrAdd sPaged 0x1FF8 j).toNat / 4096) .read (decide (cpl sPaged = 3)) = .frame 7 ∧
      readableAt sPaged (addrAdd sPaged 0x1FF8 j) = true) ∧
    findPage rows ((addrAdd sPaged 0x1FF8 7).toNat / 4096) .read (decide (cpl sPaged = 3)) = .fault 0 ∧
    segCheck sPaged .ds 0x2008 8 = .next 0x2008 ∧ (0x2008 : Quad).toNat % 8 = 0 ∧
    ∀ j, j < 8 → findPage rows ((addrAdd sPaged 0x2008 j).toNat / 4096) .read (decide (cpl sPaged = 3)) = .frame 7 := by
  refine ⟨next_of_valueOf ?_, rfl, ?_, ?_, next_of_valueOf ?_, ?_⟩
  all_goals decide +kernel
/-- F23, and its mirror: of an unaligned m128 across two pages, high8 does not touch the absent low page, and full does;
the byte at 2003H is that of physical 7003H. -/
theorem test_narrow_fetch_F23 :
    (valueOf (memRead { narrow sPaged with mem := [(0x7003, 0x5A)] } .ds 0x1FF8 16 .any)).map
      (fun v => v.extractLsb' 88 8) = some 0x5A ∧
    faultOf (memRead sPaged .ds 0x1FF8 16 .any) = some (.pf 4 0x1FF8) ∧
    faultOf (memRead (narrow sPaged) .ds 0x2FF8 16 .any) = some (.pf 4 0x3000) ∧
    faultOf (memRead sPaged .ds 0x4000 16 .any) = some (.pf 0x2D 0x4000) := by decide +kernel
/-- O40 (OperandStopsAreTheFormsStops): a fault of each kind of operand. -/
theorem test_witness_OperandStopsAreTheFormsStops :
    MmxEnabled s64 ∧ SseEnabled s64 ∧ s64.par.hasAVX = true ∧ s64.par.hasAVX2 = true ∧ VexEnabled s64 ∧
    srcMm (acOn (setX s64 0 0x2007)) 3 (.mem (atReg 0)) = .fault .ac0 ∧
    srcSse (setX s64 0 0x2008) 4 (.mem (atReg 0)) = .fault .gp0 ∧
    srcVex128 (setX sPaged 0 0x2FF1) 4 (.mem (atReg 0)) = .fault (.pf 4 0x3000) ∧
    srcVex256 (setX s64 0 0x7FFFFFFFFFE1) 4 (.mem (atReg 0)) = .fault .gp0 := by
  refine ⟨?_, ?_, rfl, rfl, ?_, fault_of_faultOf ?_, fault_of_faultOf ?_, fault_of_faultOf ?_, fault_of_faultOf ?_⟩
  · unfold MmxEnabled; decide +kernel
  · unfold SseEnabled; decide +kernel
  · unfold VexEnabled; decide +kernel
  all_goals decide +kernel
/-- O40, the refusals: of each kind of operand, and of a data read one byte of which (the last) is not readable. -/
theorem test_witness_OperandStopsAreTheFormsStops_refused :
    let s : State := { setX s64 0 0x2000 with par := { s64.par with readable := [⟨0, 0x2007⟩, ⟨0x2008, 7⟩] } }
    srcMm s 3 (.mem (atReg 0)) = .refused .unreadable ∧ srcSse s 4 (.mem (atReg 0)) = .refused .unreadable ∧
    srcVex128 s 4 (.mem (atReg 0)) = .refused .unreadable ∧ srcVex256 s 4 (.mem (atReg 0)) = .refused .unreadable ∧
    segCheck s .ds 0x2000 16 = .next 0x2000 ∧ (0x2000 : Quad).toNat % 16 = 0 ∧
    (∀ k, Translates s (addrAdd s 0x2000 k) .read) ∧ readableAt s (addrAdd s 0x2000 15) = false := by
  refine ⟨refused_of_refusalOf ?_, refused_of_refusalOf ?_, refused_of_refusalOf ?_, refused_of_refusalOf ?_,
    next_of_valueOf ?_, ?_, fun k => .inr (.inl rfl), ?_⟩
  all_goals decide +kernel
/-- O41 (FaultsOfEachForm): a form that is not MMX, a register-only form, and #SS. -/
theorem test_witness_FaultsOfEachForm :
    exec (.punpckhbwXmm 0 (.reg 1) 4) { s64 with cr0 := 8 } = .fault .nm ∧
    exec (.punpckhbwMm 0 (.reg 1) 3) { s64 with cr0 := 0x20, x87Status := 0x80 } = .fault .mf ∧
    exec (.vpunpckhbwYmm 0 1 (.mem ⟨.ss, .a64, .gpr 4, none, .absent⟩) 5) (setX s64 4 0x800000000000) =
      .fault .ss0 := by
  refine ⟨fault_of_faultOf ?_, fault_of_faultOf ?_, fault_of_faultOf ?_⟩
  all_goals decide +kernel
/-- O42 (MmxFrame). -/
theorem test_witness_MmxFrame :
    (∃ t, exec (.punpckhbwMm 1 (.mem (atReg 0)) 3) sMem = .next t) ∧
    (∃ t, exec (.punpckhwdMm 1 (.reg 1) 3) sMem = .next t) ∧
    ∃ t, exec (.punpckhdqMm 7 (.reg 0) 3) { sMem with par := { sMem.par with modelX87 := false } } = .next t := by
  refine ⟨next_of_isSome ?_, next_of_isSome ?_, next_of_isSome ?_⟩
  all_goals decide +kernel
/-- O43 (SseFrame). -/
theorem test_witness_SseFrame :
    (∃ t, exec (.punpckhbwXmm 1 (.mem (atReg 0)) 4) sMem = .next t) ∧
    (∃ t, exec (.punpckhwdXmm 1 (.reg 1) 4) sMem = .next t) ∧
    (∃ t, exec (.punpckhdqXmm 15 (.reg 1) 4) sMem = .next t) ∧
    ∃ t, exec (.punpckhqdqXmm 0 (.reg 15) 5) sMem = .next t := by
  refine ⟨next_of_isSome ?_, next_of_isSome ?_, next_of_isSome ?_, next_of_isSome ?_⟩
  all_goals decide +kernel
/-- O44 (VexFrame): both kinds. -/
theorem test_witness_VexFrame :
    (∃ t, exec (.vpunpckhbwXmm 1 2 (.mem (atReg 0)) 4) sMem = .next t) ∧
    (fieldsOf (.vpunpckhbwXmm 1 2 (.mem (atReg 0)) 4)).kind = .vex128 ∧
    ∃ t, exec (.vpunpckhqdqYmm 1 1 (.reg 1) 4) sMem = .next t := by
  refine ⟨next_of_isSome ?_, rfl, next_of_isSome ?_⟩
  all_goals decide +kernel
/-- O45 (VexDestinationIsNotRead). -/
theorem test_witness_VexDestinationIsNotRead :
    (1 : XmmReg) ≠ 0 ∧ (Src.reg (2 : XmmReg)) ≠ .reg 0 ∧ Src.mem (atReg 0) ≠ .reg (0 : XmmReg) := by decide

/-- The state whose pc is at an address. -/
def atPc (s : State) (v : Quad) : State := { s with pc := v }

/-- O46 (StepRunsTheDecodedInstruction): the bytes there are, and a state for each clause. -/
theorem test_witness_StepRunsTheDecodedInstruction :
    (fetchRun (launchWith s64 [0x0F, 0x68, 0xC1]) 15 0 =
      ((fetchRun (launchWith s64 [0x0F, 0x68, 0xC1]) 15 0).1, (fetchRun (launchWith s64 [0x0F, 0x68, 0xC1]) 15 0).2)) ∧
    decode .m64 (fetchRun (launchWith s64 [0x0F, 0x68, 0xC1]) 15 0).1 = .ok (.punpckhbwMm 0 (.reg 1) 3) ∧
    decode .m64 (fetchRun (launchWith s64 [0x0F, 0x6D, 0xC1]) 15 0).1 = .undefinedOpcode ∧
    decode .m64 (fetchRun (launchWith s64 [0x90]) 15 0).1 = .rejected .notOfFamily ∧
    decode .m64 (fetchRun (launchWith s64 [0xF2, 0x0F, 0x68, 0xC1]) 15 0).1 = .rejected .reservedPrefix := by
  refine ⟨rfl, ?_⟩
  decide +kernel
/-- O46: the last clause, for each of the three reasons. -/
theorem test_witness_StepRunsTheDecodedInstruction_short :
    let s1 := launchWith s64 (List.replicate 15 0x66)
    let s2 := launchWith (atPc s64 0x7FFFFFFFFFFF) [0x0F]
    let s3 := { launchWith s64 [0x0F] with par := { s64.par with readable := [⟨0xFFF0, 1⟩] } }
    (decode .m64 (fetchRun s1 15 0).1 = .short ∧ (fetchRun s1 15 0).2 = .next ()) ∧
    (decode .m64 (fetchRun s2 15 0).1 = .short ∧ (fetchRun s2 15 0).2 = .fault .gp0) ∧
    (decode .m64 (fetchRun s3 15 0).1 = .short ∧ (fetchRun s3 15 0).2 = .refused .unreadable) := by
  refine ⟨⟨?_, next_of_valueOf ?_⟩, ⟨?_, fault_of_faultOf ?_⟩, ⟨?_, refused_of_refusalOf ?_⟩⟩
  all_goals decide +kernel
/-- 32-bit operation with a CS of base 10000H and limit FFH, EIP such that byte 15 of the instruction is the last within
the limit, and the byte FFH there at its linear address. -/
def s32code : State :=
  { atPc s32 0xF1 with cs := { flat with base := 0x10000, limit := 0xFF }, mem := [(0x100FF, 0xFF)] }

/-- Fetches from page FH, mapped to page FH at CPL 0; no row for page 10H. -/
def sFetch : State := { atPc s64 0xFFFE with par := { s64.par with paging := .table rows, executeDisable := true } }

/-- O47 (FetchReadsTheBytesAtPc): the last canonical bytes, the last within a CS limit, and a page table. -/
theorem test_witness_FetchReadsTheBytesAtPc :
    (let s := atPc s64 0x7FFFFFFFFFF1
     s.par.mode ≠ .real ∧ (∀ k, k < 15 → CodeByteOk s k ∧ readableAt s (codeAddr s k) = true) ∧
      s.par.paging = .identity) ∧
    (s32code.par.mode = .m32 ∧ (∀ k, k < 15 → CodeByteOk s32code k ∧ readableAt s32code (codeAddr s32code k) = true) ∧
      s32code.par.paging = .identity) ∧
    (∀ k, k < 2 → CodeByteOk sFetch k ∧ readableAt sFetch (codeAddr sFetch k) = true ∧
      findPage rows ((codeAddr sFetch k).toNat / 4096) .fetch (decide (cpl sFetch = 3)) = .frame 0xF) := by
  unfold CodeByteOk
  decide +kernel
/-- R175: in 32-bit operation the fetch goes through the base of CS. -/
theorem test_fetch_cs_base : fetchRun s32code 15 0 = (List.replicate 14 0 ++ [0xFF], .next ()) :=
  Prod.ext (by decide +kernel) (next_of_valueOf (by decide +kernel))
/-- O48 (FetchStops): pc itself not canonical, and a later byte beyond the CS limit. -/
theorem test_witness_FetchStops :
    (fetchRun (atPc s64 0x800000000000) 0 0 = ([], .next ()) ∧ decode .m64 [] = .short ∧
      ¬ CodeByteOk (atPc s64 0x800000000000) 0) ∧
    (let s := { s32code with pc := 0xFE, mem := [(0x100FE, 0x0F), (0x100FF, 0x68)] }
     fetchRun s 2 0 = ([0x0F, 0x68], .next ()) ∧ decode .m32 [0x0F, 0x68] = .short ∧ ¬ CodeByteOk s 2 ∧
      faultOf (step s) = some .gp0) := by
  refine ⟨⟨rfl, by decide, ?_⟩, Prod.ext ?_ (next_of_valueOf ?_), by decide, ?_, ?_⟩
  · unfold CodeByteOk; decide +kernel
  · decide +kernel
  · decide +kernel
  · unfold CodeByteOk; decide +kernel
  · decide +kernel
/-- O48, the page fault: the third byte of an instruction on the absent page, with its I/D bit. -/
theorem test_witness_FetchStops_page :
    let s := { sFetch with mem := [(0xFFFE, 0x0F), (0xFFFF, 0x68)] }
    fetchRun s 2 0 = ([0x0F, 0x68], .next ()) ∧ s.par.mode ≠ .real ∧ s.par.paging = .table rows ∧ CodeByteOk s 2 ∧
    findPage rows ((codeAddr s 2).toNat / 4096) .fetch (decide (cpl s = 3)) = .fault 0 ∧
    faultOf (step s) = some (.pf 0x10 0x10000) := by
  refine ⟨Prod.ext ?_ (next_of_valueOf ?_), by decide, rfl, ?_, ?_, ?_⟩
  · decide +kernel
  · decide +kernel
  · unfold CodeByteOk; decide +kernel
  · decide +kernel
  · decide +kernel
/-- O48, the refusal: the second byte of an instruction outside the readable set. -/
theorem test_witness_FetchStops_refused :
    let s := { launchWith s64 [0x0F] with par := { s64.par with readable := [⟨0xFFF0, 1⟩] } }
    fetchRun s 1 0 = ([0x0F], .next ()) ∧ decode .m64 [0x0F] = .short ∧ CodeByteOk s 1 ∧
    Translates s (codeAddr s 1) .fetch ∧ readableAt s (codeAddr s 1) = false ∧
    refusalOf (step s) = some .unreadable := by
  refine ⟨Prod.ext ?_ (next_of_valueOf ?_), by decide, ?_, .inr (.inl rfl), ?_, ?_⟩
  · decide +kernel
  · decide +kernel
  · unfold CodeByteOk; decide +kernel
  · decide +kernel
  · decide +kernel
/-- O49 (FifteenPrefixesFault). -/
theorem test_witness_FifteenPrefixesFault :
    let s := launchWith s64 (List.replicate 8 0x66 ++ List.replicate 7 0xF3)
    fetchRun s 15 0 = ((fetchRun s 15 0).1, .next ()) ∧
    ∀ w, w ∈ (fetchRun s 15 0).1 → w ∈ [0x66, 0x67, 0x26, 0x2E, 0x36, 0x3E, 0x64, 0x65, 0xF0, 0xF2, (0xF3 : Byte)] := by
  refine ⟨Prod.ext rfl (next_of_valueOf ?_), ?_⟩
  all_goals decide +kernel
/-- O50 (StoredEncodingRuns): the longest encoding at the last canonical bytes, over bytes already there; and three bytes
that end at the CS limit in 32-bit operation. -/
theorem test_witness_StoredEncodingRuns :
    (let s := { atPc sMem 0x7FFFFFFFFFF1 with mem := [(0x7FFFFFFFFFF2, 0xFF)] }
     Memory.wf s.mem = true ∧ OrdinaryMemory s ∧ (∀ k, k < 15 → CodeByteOk s k) ∧
      wellFormed s.par.mode (.vpunpckhqdqYmm 12 13 (.mem ⟨.ds, .a64, .gpr 8, some ⟨9, 3⟩, .d8 0x80⟩) 15) = true) ∧
    (let s := { s32code with pc := 0xFD }
     Memory.wf s.mem = true ∧ OrdinaryMemory s ∧ (∀ k, k < 3 → CodeByteOk s k) ∧
      wellFormed s.par.mode (.punpckhbwMm 0 (.reg 1) 3) = true) := by
  refine ⟨⟨by decide, ordinary_of_par ⟨rfl, rfl⟩, ?_, by decide⟩, ⟨by decide, ordinary_of_par ⟨rfl, rfl⟩, ?_, by decide⟩⟩
  all_goals unfold CodeByteOk; decide +kernel
/-- O52 (StepKeepsTheInvariant) and O53 (StepChangesOnlySimdStateAndPc): in both admitted modes, the second at the top
of the address space. -/
theorem test_witness_StepKeepsTheInvariant :
    (MachineInv (launchWith s64 [0x0F, 0x68, 0xC1]) ∧ ∃ t, step (launchWith s64 [0x0F, 0x68, 0xC1]) = .next t) ∧
    (let s := { atPc s32 0xFFFFFFFD with mem := [(0xFFFFFFFD, 0x0F), (0xFFFFFFFE, 0x68), (0xFFFFFFFF, 0xC1)] }
     MachineInv s ∧ ∃ t, step s = .next t) := by
  refine ⟨⟨?_, next_of_isSome ?_⟩, ⟨?_, next_of_isSome ?_⟩⟩
  · unfold MachineInv; decide +kernel
  · decide +kernel
  · unfold MachineInv; decide +kernel
  · decide +kernel
/-- O54 (FlagsAndMxcsrAreNeitherReadNorWritten): flags that differ in every bit but AC. -/
theorem test_witness_FlagsAndMxcsrAreNeitherReadNorWritten :
    (~~~s64.rflags &&& ~~~0x40000).getLsbD 18 = s64.rflags.getLsbD 18 ∧
    (∃ t, exec (.punpckhbwMm 0 (.reg 1) 3) s64 = .next t) ∧
    exec (.punpckhbwXmm 0 (.reg 1) 3) State.reset = .fault .ud ∧
    exec (.punpckhbwMm 0 (.reg 1) 3) { s64 with x87Status := 0x80 } = .refused .x87ErrorExternal := by
  refine ⟨?_, next_of_isSome ?_, fault_of_faultOf ?_, refused_of_refusalOf ?_⟩
  all_goals decide +kernel
/-- O55 (NarrowFetchGivesTheSameResult), on a 128-bit memory operand. -/
theorem test_witness_NarrowFetchGivesTheSameResult :
    sMem.par.narrowFetch = .full ∧ ∃ t, exec (.punpckhqdqXmm 1 (.mem (atReg 0)) 4) sMem = .next t := by
  refine ⟨rfl, next_of_isSome ?_⟩
  decide +kernel
/-- O56 (RunEndsAtEndAddr): program P1 of 95_test_vectors, two instructions. -/
theorem test_witness_RunEndsAtEndAddr :
    let s := launchWith { atPc s64 0x1000 with par := { s64.par with endAddr := 0x1006 } }
      [0x0F, 0x68, 0xC1, 0x0F, 0x69, 0xC1]
    MachineInv s ∧ ∃ t, runToEnd 2 s = .done t := by
  have h : ∀ r : RunEnd, (match r with | .done _ => true | _ => false) = true → ∃ t, r = .done t := by
    intro r; cases r <;> simp
  refine ⟨?_, h _ ?_⟩
  · unfold MachineInv; decide +kernel
  · decide +kernel
/-- O58 (ConsequencesOfReset): other register contents under the control bits of reset; one form of each clause. -/
theorem test_witness_ConsequencesOfReset :
    let s := setX (writeMm State.reset 0 x64) 0 0x2000
    (s.cr0 = State.reset.cr0 ∧ s.cr4 = State.reset.cr4 ∧ s.xcr0 = State.reset.xcr0 ∧
      s.x87Status = State.reset.x87Status ∧ s.par = State.reset.par) ∧
    (fieldsOf (.vpunpckhbwXmm 0 1 (.mem (atReg 0)) 4)).kind ≠ .mmx ∧
    (fieldsOf (.punpckhbwMm 0 (.reg 1) 3)).kind = .mmx ∧ (fieldsOf (.punpckhbwMm 0 (.reg 1) 3)).src = .reg 1 := by
  decide +kernel
/-- O60 (ExceptionVectorsAndCodes): a page fault of an instruction. -/
theorem test_witness_ExceptionVectorsAndCodes :
    exec (.vpunpckhbwXmm 0 1 (.mem (atReg 0)) 4) (setX sPaged 0 0x2FF1) = .fault (.pf 4 0x3000) :=
  fault_of_faultOf (by decide +kernel)
/-- O59 (InitValues): CR0.CD and CR0.NW stay, and AM does not. -/
theorem test_init_cr0 : (afterInit { s64 with cr0 := 0x20040030 }).cr0 = 0x20000010 := by decide +kernel

end Sys2Proof.Tests
end

/-! ## Flags and MXCSR (R130)

A state under other flags and another MXCSR is `withFlags`. Every accessor answers the same on it, every write commutes
with it, and so does every form, alignment checking being the only reader of a flag (AC, R160). -/

namespace Sys2Proof.Machine

open Config

/-- The state with RFLAGS `f` and MXCSR `c`. -/
def withFlags (s : State) (f : Quad) (c : BitVec 32) : State := { s with rflags := f, mxcsr := c }

/-- Sequencing is associative. -/
theorem andThen_assoc {α β γ : Type} (r : Res α) (f : α → Res β) (g : β → Res γ) :
    andThen (andThen r f) g = andThen r fun a => andThen (f a) g := by
  cases r <;> rfl

section
variable (s : State) (f : Quad) (c : BitVec 32)

/-! ### What does not read them -/

@[simp] theorem withFlags_par : (withFlags s f c).par = s.par := rfl
@[simp] theorem withFlags_mem : (withFlags s f c).mem = s.mem := rfl

@[simp] theorem readMm_withFlags (r : MmReg) : readMm (withFlags s f c) r = readMm s r := rfl
@[simp] theorem readXmm_withFlags (r : XmmReg) : readXmm (withFlags s f c) r = readXmm s r := rfl
@[simp] theorem readYmm_withFlags (r : XmmReg) : readYmm (withFlags s f c) r = readYmm s r := rfl

@[simp] theorem addrAdd_withFlags (a : Quad) (n : Nat) : addrAdd (withFlags s f c) a n = addrAdd s a n := rfl

@[simp] theorem effAddr_withFlags (len : Nat) (a : Mem) : effAddr (withFlags s f c) len a = effAddr s len a := by
  have hbase : baseValue (withFlags s f c) len a.base = baseValue s len a.base := by cases a.base <;> rfl
  have hindex : indexValue (withFlags s f c) a.index = indexValue s a.index := by cases a.index <;> rfl
  simp only [effAddr, hbase, hindex]

@[simp] theorem segCheck_withFlags (g : SegReg) (ea : Quad) (n : Nat) :
    segCheck (withFlags s f c) g ea n = segCheck s g ea n := by
  cases g <;> rfl

@[simp] theorem translate_withFlags (lin : Quad) (acc : Access) :
    translate (withFlags s f c) lin acc = translate s lin acc := rfl

@[simp] theorem translateAll_withFlags (lin : Quad) (ks : List Nat) :
    translateAll (withFlags s f c) lin ks = translateAll s lin ks := by
  induction ks with
  | nil => rfl
  | cons k ks ih => simp only [translateAll, addrAdd_withFlags, translate_withFlags, ih]

@[simp] theorem readableAt_withFlags (lin : Quad) : readableAt (withFlags s f c) lin = readableAt s lin := rfl

@[simp] theorem fetchedOffsets_withFlags (n : Nat) : fetchedOffsets (withFlags s f c) n = fetchedOffsets s n := rfl

@[simp] theorem memRead_withFlags (g : SegReg) (ea : Quad) (n : Nat) (rule : AlignRule) :
    memRead (withFlags s f c) g ea n rule = memRead s g ea n rule := by
  simp only [memRead, segCheck_withFlags, translateAll_withFlags, fetchedOffsets_withFlags, addrAdd_withFlags,
    readableAt_withFlags, withFlags_mem]
  rfl -- what decides the readability test still names `withFlags`, which `simp` does not rewrite

@[simp] theorem gateMmx_withFlags : gateMmx (withFlags s f c) = gateMmx s := rfl
@[simp] theorem gateSse_withFlags : gateSse (withFlags s f c) = gateSse s := rfl
@[simp] theorem gateVex128_withFlags : gateVex128 (withFlags s f c) = gateVex128 s := rfl
@[simp] theorem gateVex256_withFlags : gateVex256 (withFlags s f c) = gateVex256 s := rfl

@[simp] theorem srcSse_withFlags (len : Nat) (src : Src XmmReg) :
    srcSse (withFlags s f c) len src = srcSse s len src := by
  cases src <;> simp [srcSse]

@[simp] theorem srcVex128_withFlags (len : Nat) (src : Src XmmReg) :
    srcVex128 (withFlags s f c) len src = srcVex128 s len src := by
  cases src <;> simp [srcVex128]

@[simp] theorem srcVex256_withFlags (len : Nat) (src : Src XmmReg) :
    srcVex256 (withFlags s f c) len src = srcVex256 s len src := by
  cases src <;> simp [srcVex256]

/-! ### What does not write them -/

@[simp] theorem advance_withFlags (len : Nat) :
    advance (withFlags s f c) len = withFlags (advance s len) f c := rfl
@[simp] theorem writeYmm_withFlags (r : XmmReg) (v : Yword) :
    writeYmm (withFlags s f c) r v = withFlags (writeYmm s r v) f c := rfl
@[simp] theorem writeXmmKeep_withFlags (r : XmmReg) (v : Xword) :
    writeXmmKeep (withFlags s f c) r v = withFlags (writeXmmKeep s r v) f c := rfl
@[simp] theorem writeXmmZero_withFlags (r : XmmReg) (v : Xword) :
    writeXmmZero (withFlags s f c) r v = withFlags (writeXmmZero s r v) f c := rfl
@[simp] theorem writeMm_withFlags (r : MmReg) (v : Quad) :
    writeMm (withFlags s f c) r v = withFlags (writeMm s r v) f c := rfl

@[simp] theorem x87Effects_withFlags (r : MmReg) :
    x87Effects (withFlags s f c) r = withFlags (x87Effects s r) f c := by
  unfold x87Effects
  rw [withFlags_par]
  split <;> rfl

@[simp] theorem finishMmx_withFlags (d : MmReg) (v : Quad) (len : Nat) :
    finishMmx (withFlags s f c) d v len = withFlags (finishMmx s d v len) f c := by
  simp only [finishMmx, writeMm_withFlags, x87Effects_withFlags, advance_withFlags]

/-! ### The forms -/

theorem stepSse_withFlags (w : Nat) (d : XmmReg) (src : Src XmmReg) (len : Nat) :
    stepSse w d src len (withFlags s f c) = andThen (stepSse w d src len s) fun t => .next (withFlags t f c) := by
  simp [stepSse, andThen_assoc]

theorem stepVex128_withFlags (w : Nat) (d a : XmmReg) (src : Src XmmReg) (len : Nat) :
    stepVex128 w d a src len (withFlags s f c) =
      andThen (stepVex128 w d a src len s) fun t => .next (withFlags t f c) := by
  simp [stepVex128, andThen_assoc]

theorem stepVex256_withFlags (w : Nat) (d a : XmmReg) (src : Src XmmReg) (len : Nat) :
    stepVex256 w d a src len (withFlags s f c) =
      andThen (stepVex256 w d a src len s) fun t => .next (withFlags t f c) := by
  simp [stepVex256, andThen_assoc]

end

section
variable {s : State} {f : Quad} (h : f.getLsbD 18 = s.rflags.getLsbD 18) (c : BitVec 32)
include h

/-- R160: alignment checking reads AC, and no other flag. -/
theorem alignChecking_withFlags : alignChecking (withFlags s f c) = alignChecking s := by
  have hac : flagAC (withFlags s f c) = flagAC s := h
  unfold alignChecking
  rw [hac]
  rfl

/-- The MMX forms' operand is the only one read under alignment checking. -/
theorem srcMm_withFlags (len : Nat) (src : Src MmReg) : srcMm (withFlags s f c) len src = srcMm s len src := by
  cases src <;> simp [srcMm, alignChecking_withFlags h]

theorem stepMmx_withFlags (w : Nat) (d : MmReg) (src : Src MmReg) (len : Nat) :
    stepMmx w d src len (withFlags s f c) = andThen (stepMmx w d src len s) fun t => .next (withFlags t f c) := by
  simp [stepMmx, andThen_assoc, srcMm_withFlags h]

/-- R130: an instruction under other flags that agree in AC and another MXCSR ends as it does under the old ones, and
keeps the new ones. -/
theorem exec_withFlags (i : Instr) :
    exec i (withFlags s f c) = andThen (exec i s) fun t => .next (withFlags t f c) := by
  cases i with
  | punpckhbwMm | punpckhwdMm | punpckhdqMm => exact stepMmx_withFlags h c ..
  | punpckhbwXmm | punpckhwdXmm | punpckhdqXmm | punpckhqdqXmm => exact stepSse_withFlags s f c ..
  | vpunpckhbwXmm | vpunpckhwdXmm | vpunpckhdqXmm | vpunpckhqdqXmm => exact stepVex128_withFlags s f c ..
  | vpunpckhbwYmm | vpunpckhwdYmm | vpunpckhdqYmm | vpunpckhqdqYmm => exact stepVex256_withFlags s f c ..

end

/-- Settles O54: `exec_withFlags`, for each of the three outcomes. -/
theorem flagsAndMxcsrAreNeitherReadNorWritten : Obligations.FlagsAndMxcsrAreNeitherReadNorWritten := by
  intro i s f c h
  have hexec : exec i { s with rflags := f, mxcsr := c } = andThen (exec i s) fun t => .next (withFlags t f c) :=
    exec_withFlags h c i
  rw [hexec]
  cases exec i s with
  | next t => rfl
  | fault e => rfl
  | refused r => rfl

end Sys2Proof.Machine

/-! ## The interleave (R115 to R127)

A lane of `2 * w * n` bits holds `n` elements of `w` bits in each half. The pseudocode's lines (R116 to R124) and R127
both follow from where an element of the result comes from: `highElem_eq`. -/

namespace Sys2Proof.Machine

section
variable {size w n : Nat} (hw : 0 < w)
include hw

/-- R125 with the number `n` of elements of a half lane: element `k` of the result stands in lane `k / (2 * n)`. -/
theorem highElem_eq (a b : BitVec size) (k : Nat) :
    highElem w (2 * w * n) a b k =
      elem w (if k % (2 * n) % 2 = 0 then a else b) (k / (2 * n) * (2 * n) + n + k % (2 * n) / 2) := by
  simp only [highElem, Nat.mul_div_cancel_left n (Nat.mul_pos Nat.two_pos hw)]

/-- R125 in bit positions, as the pseudocode writes it: element `r` of lane `j` of the result is element `r / 2` of the
upper half of that lane, in the first source for an even `r` and in the second for an odd one. -/
theorem extractLsb'_interleaveHigh (a b : BitVec size) (j r : Nat) (hr : r < 2 * n)
    (hsize : 2 * w * n * (j + 1) ≤ size) :
    (interleaveHigh w (2 * w * n) a b).extractLsb' (2 * w * n * j + w * r) w =
      (if r % 2 = 0 then a else b).extractLsb' (2 * w * n * j + w * n + w * (r / 2)) w := by
  obtain ⟨hdiv, hmod⟩ : (2 * n * j + r) / (2 * n) = j ∧ (2 * n * j + r) % (2 * n) = r :=
    (Nat.div_mod_unique (by omega)).2 ⟨by ring, hr⟩
  have helem := elem_interleaveHigh w (2 * w * n) (2 * n * j + r) a b hw (by nlinarith)
  rw [highElem_eq hw, hdiv, hmod] at helem
  unfold elem at helem
  convert helem using 2 <;> ring

end

/-- Vectors that agree in the upper half of lane `j` have the same elements there. -/
theorem elem_congr_of_upper_half {size w n : Nat} {v v' : BitVec size} {j i : Nat} (hi : i < n)
    (h : v.extractLsb' (2 * w * n * j + w * n) (w * n) = v'.extractLsb' (2 * w * n * j + w * n) (w * n)) :
    elem w v (j * (2 * n) + n + i) = elem w v' (j * (2 * n) + n + i) := by
  apply BitVec.eq_of_getLsbD_eq
  intro p hp
  have hbit := congrArg (·.getLsbD (w * i + p)) h
  have hlt : w * i + p < w * n := by nlinarith
  simp only [BitVec.getLsbD_extractLsb', hlt, decide_true, Bool.true_and] at hbit
  simp only [getLsbD_elem, hp, decide_true, Bool.true_and]
  convert hbit using 2 <;> ring

/-- R127 for any number of lanes: operands that agree in the upper half of each lane have the same interleave. -/
theorem interleaveHigh_congr {size w lane : Nat} {a a' b b' : BitVec size} (hlane : 0 < lane) (hw : 2 * w ∣ lane)
    (ha : ∀ j, lane * j < size →
      a.extractLsb' (lane * j + lane / 2) (lane / 2) = a'.extractLsb' (lane * j + lane / 2) (lane / 2))
    (hb : ∀ j, lane * j < size →
      b.extractLsb' (lane * j + lane / 2) (lane / 2) = b'.extractLsb' (lane * j + lane / 2) (lane / 2)) :
    interleaveHigh w lane a b = interleaveHigh w lane a' b' := by
  obtain ⟨n, rfl⟩ := hw
  have hwpos : 0 < w := Nat.pos_of_ne_zero (by rintro rfl; simp at hlane)
  have hnpos : 0 < n := Nat.pos_of_mul_pos_left hlane
  have hhalf : 2 * w * n / 2 = w * n := by rw [Nat.mul_assoc, Nat.mul_div_cancel_left _ Nat.two_pos]
  rw [hhalf] at ha hb
  apply BitVec.eq_of_getLsbD_eq
  intro p hp
  have hj : 2 * w * n * (p / w / (2 * n)) < size := by
    rw [Nat.div_div_eq_div_mul]
    have hle := Nat.div_mul_le_self p (w * (2 * n))
    nlinarith
  have hi : p / w % (2 * n) / 2 < n := by
    have hlt := Nat.mod_lt (p / w) (show 2 * n > 0 by omega)
    omega
  rw [getLsbD_interleaveHigh, getLsbD_interleaveHigh, highElem_eq hwpos, highElem_eq hwpos]
  split
  · rw [elem_congr_of_upper_half hi (ha _ hj)]
  · rw [elem_congr_of_upper_half hi (hb _ hj)]

/-- R127 for a single lane. -/
theorem interleaveHigh_congr_lane {w lane : Nat} {a a' b b' : BitVec lane} (hlane : 0 < lane) (hw : 2 * w ∣ lane)
    (ha : a.extractLsb' (lane / 2) (lane / 2) = a'.extractLsb' (lane / 2) (lane / 2))
    (hb : b.extractLsb' (lane / 2) (lane / 2) = b'.extractLsb' (lane / 2) (lane / 2)) :
    interleaveHigh w lane a b = interleaveHigh w lane a' b' := by
  have hzero {j : Nat} (hj : lane * j < lane) : j = 0 := by
    by_contra h
    exact absurd (Nat.le_mul_of_pos_right lane (Nat.pos_of_ne_zero h)) (by omega)
  refine interleaveHigh_congr hlane hw (fun j hj => ?_) (fun j hj => ?_)
  · simpa [hzero hj] using ha
  · simpa [hzero hj] using hb

/-- Settles O23: `interleaveHigh_congr`, with one lane of 64 or 128 bits, or two of 128. -/
theorem lowHalvesAreIgnored : Obligations.LowHalvesAreIgnored := by
  have width {w : Nat} (h : w = 8 ∨ w = 16 ∨ w = 32 ∨ w = 64) : 2 * w ∣ 128 := by
    rcases h with rfl | rfl | rfl | rfl <;> decide
  refine ⟨?_, ?_, ?_⟩
  · intro A A' B B' w hw hA hB
    have hw64 : 2 * w ∣ 64 := by rcases hw with rfl | rfl | rfl <;> decide
    exact interleaveHigh_congr_lane (by decide) hw64 hA hB
  · intro A A' B B' w hw hA hB
    exact interleaveHigh_congr_lane (by decide) (width hw) hA hB
  · intro A A' B B' w hw hA0 hA1 hB0 hB1
    have lanes {j : Nat} (hj : 128 * j < 256) : j = 0 ∨ j = 1 := by omega
    refine interleaveHigh_congr (by decide) (width hw) (fun j hj => ?_) (fun j hj => ?_)
    · rcases lanes hj with rfl | rfl
      · exact hA0
      · exact hA1
    · rcases lanes hj with rfl | rfl
      · exact hB0
      · exact hB1

/-! ### The pseudocode's blocks: a line of lane `j` is `extractLsb'_interleaveHigh` at one element `r` -/

/-- Settles O12: the 16 lines are the 16 elements of the one lane. -/
theorem interleaveHighBytes : Obligations.InterleaveHighBytes := by
  intro SRC1 SRC2
  have line (r : Fin 16) :=
    extractLsb'_interleaveHigh (w := 8) (n := 8) (by decide) SRC1 SRC2 0 r r.isLt (by decide)
  exact ⟨line 0, line 1, line 2, line 3, line 4, line 5, line 6, line 7, line 8, line 9, line 10, line 11, line 12,
    line 13, line 14, line 15⟩

/-- Settles O13: the 8 lines are the 8 elements of the one lane. -/
theorem interleaveHighWords : Obligations.InterleaveHighWords := by
  intro SRC1 SRC2
  have line (r : Fin 8) :=
    extractLsb'_interleaveHigh (w := 16) (n := 4) (by decide) SRC1 SRC2 0 r r.isLt (by decide)
  exact ⟨line 0, line 1, line 2, line 3, line 4, line 5, line 6, line 7⟩

/-- Settles O14: the 4 lines are the 4 elements of the one lane. -/
theorem interleaveHighDwords : Obligations.InterleaveHighDwords := by
  intro SRC1 SRC2
  have line (r : Fin 4) :=
    extractLsb'_interleaveHigh (w := 32) (n := 2) (by decide) SRC1 SRC2 0 r r.isLt (by decide)
  exact ⟨line 0, line 1, line 2, line 3⟩

/-- Settles O15: the 2 lines are the 2 elements of the one lane. -/
theorem interleaveHighQwords : Obligations.InterleaveHighQwords := by
  intro SRC1 SRC2
  have line (r : Fin 2) :=
    extractLsb'_interleaveHigh (w := 64) (n := 1) (by decide) SRC1 SRC2 0 r r.isLt (by decide)
  exact ⟨line 0, line 1⟩

/-- Settles O16: the 16 lines of each of the two lanes. -/
theorem interleaveHighBytes256 : Obligations.InterleaveHighBytes256 := by
  intro SRC1 SRC2
  have line (j : Fin 2) (r : Fin 16) :=
    extractLsb'_interleaveHigh (w := 8) (n := 8) (by decide) SRC1 SRC2 j r r.isLt (by omega)
  exact ⟨line 0 0, line 0 1, line 0 2, line 0 3, line 0 4, line 0 5, line 0 6, line 0 7, line 0 8, line 0 9,
    line 0 10, line 0 11, line 0 12, line 0 13, line 0 14, line 0 15, line 1 0, line 1 1, line 1 2, line 1 3,
    line 1 4, line 1 5, line 1 6, line 1 7, line 1 8, line 1 9, line 1 10, line 1 11, line 1 12, line 1 13,
    line 1 14, line 1 15⟩

/-- Settles O17: the 8 lines of each of the two lanes. -/
theorem interleaveHighWords256 : Obligations.InterleaveHighWords256 := by
  intro SRC1 SRC2
  have line (j : Fin 2) (r : Fin 8) :=
    extractLsb'_interleaveHigh (w := 16) (n := 4) (by decide) SRC1 SRC2 j r r.isLt (by omega)
  exact ⟨line 0 0, line 0 1, line 0 2, line 0 3, line 0 4, line 0 5, line 0 6, line 0 7, line 1 0, line 1 1,
    line 1 2, line 1 3, line 1 4, line 1 5, line 1 6, line 1 7⟩

/-- Settles O18: the 4 lines of each of the two lanes. -/
theorem interleaveHighDwords256 : Obligations.InterleaveHighDwords256 := by
  intro SRC1 SRC2
  have line (j : Fin 2) (r : Fin 4) :=
    extractLsb'_interleaveHigh (w := 32) (n := 2) (by decide) SRC1 SRC2 j r r.isLt (by omega)
  exact ⟨line 0 0, line 0 1, line 0 2, line 0 3, line 1 0, line 1 1, line 1 2, line 1 3⟩

/-- Settles O19: the 2 lines of each of the two lanes. -/
theorem interleaveHighQwords256 : Obligations.InterleaveHighQwords256 := by
  intro SRC1 SRC2
  have line (j : Fin 2) (r : Fin 2) :=
    extractLsb'_interleaveHigh (w := 64) (n := 1) (by decide) SRC1 SRC2 j r r.isLt (by omega)
  exact ⟨line 0 0, line 0 1, line 1 0, line 1 1⟩

/-- Settles O20: the lines of the three blocks, each one lane of 64 bits. -/
theorem interleaveHigh64BitBlocks : Obligations.InterleaveHigh64BitBlocks := by
  intro A B
  have bytes (r : Fin 8) :=
    extractLsb'_interleaveHigh (w := 8) (n := 4) (by decide) A B 0 r r.isLt (by decide)
  have words (r : Fin 4) :=
    extractLsb'_interleaveHigh (w := 16) (n := 2) (by decide) A B 0 r r.isLt (by decide)
  have dwords (r : Fin 2) :=
    extractLsb'_interleaveHigh (w := 32) (n := 1) (by decide) A B 0 r r.isLt (by decide)
  exact ⟨bytes 0, bytes 1, bytes 2, bytes 3, bytes 4, bytes 5, bytes 6, bytes 7, words 0, words 1, words 2, words 3,
    dwords 0, dwords 1⟩

end Sys2Proof.Machine


/-! ## The decoder's phases (R106)

`decodeFrom` is the decoder with some prefixes read already: such bytes only fold into its prefixes
(`decodeFrom_prefixes`), and the first other byte starts `decodeBody`. -/

namespace Sys2Proof

open Config (Mode)
open Safety (PrefixByte legacyPrefixBytes segmentBytes familyOpcodes)

/-- The decoder with the prefixes `p` read, `total` being the number of bytes there were before the first of them. -/
def decodeFrom (m : Mode) (p : Prefixes) (total : Nat) (ws : List Byte) : DecodeResult :=
  decodeBody m (scanPrefixes m p ws).1 total (scanPrefixes m p ws).2

theorem decode_eq_decodeFrom (m : Mode) (ws : List Byte) : decode m ws = decodeFrom m {} ws.length ws := rfl

theorem decodeFrom_prefixes {m : Mode} {ps : List Byte} (h : ∀ w, w ∈ ps → PrefixByte m w) (p : Prefixes)
    (total : Nat) (ws : List Byte) :
    decodeFrom m p total (ps ++ ws) = decodeFrom m (ps.foldl prefixStep p) total ws := by
  unfold decodeFrom
  rw [scanPrefixes_append h]

theorem decodeFrom_prefix {m : Mode} {w : Byte} (h : PrefixByte m w) (p : Prefixes) (total : Nat) (ws : List Byte) :
    decodeFrom m p total (w :: ws) = decodeFrom m (prefixStep p w) total ws := by
  unfold decodeFrom
  rw [scanPrefixes_cons h]

theorem decodeFrom_stop {m : Mode} {w : Byte} (h : ¬ PrefixByte m w) (p : Prefixes) (total : Nat) (ws : List Byte) :
    decodeFrom m p total (w :: ws) = decodeBody m p total (w :: ws) := by
  unfold decodeFrom
  rw [scanPrefixes_stop h]

@[simp] theorem decodeFrom_nil (m : Mode) (p : Prefixes) (total : Nat) : decodeFrom m p total [] = .short := rfl

/-- The decoder after prefixes that stand at the beginning. -/
theorem decode_append {m : Mode} {ps : List Byte} (h : ∀ w, w ∈ ps → PrefixByte m w) (ws : List Byte) :
    decode m (ps ++ ws) = decodeFrom m (ps.foldl prefixStep {}) (ps.length + ws.length) ws := by
  rw [decode_eq_decodeFrom, decodeFrom_prefixes h, List.length_append]

/-- Induction along the scan: a list is empty, begins with one of the prefixes, or with another byte. -/
theorem prefix_induction {m : Mode} {motive : List Byte → Prop} (nil : motive [])
    (step : ∀ w ws, PrefixByte m w → motive ws → motive (w :: ws))
    (stop : ∀ w ws, ¬ PrefixByte m w → motive (w :: ws)) (ws : List Byte) : motive ws := by
  induction ws with
  | nil => exact nil
  | cons w ws ih =>
    by_cases h : PrefixByte m w
    · exact step w ws h ih
    · exact stop w ws h

/-! ### No byte that begins what follows the prefixes is one -/

theorem not_prefixByte_escape (m : Mode) : ¬ PrefixByte m 0x0F := by cases m <;> unfold PrefixByte <;> decide
theorem not_prefixByte_vex2 (m : Mode) : ¬ PrefixByte m 0xC5 := by cases m <;> unfold PrefixByte <;> decide
theorem not_prefixByte_vex3 (m : Mode) : ¬ PrefixByte m 0xC4 := by cases m <;> unfold PrefixByte <;> decide

/-! ### What stands after the prefixes -/

/-- R99: outside 64-bit mode C4H and C5H begin VEX bytes before a byte with bits 7:6 = 11B. -/
def VexLead (m : Mode) (v : Byte) : Prop := m = .m64 ∨ v.extractLsb' 6 2 = 3#2

/-- R95, R96: the VEX bytes and the fields they hold. -/
inductive VexHead (m : Mode) : List Byte → Vex → Prop where
  | two {w : Byte} : VexLead m w → VexHead m [0xC5, w] (vex2 w)
  | three {v w : Byte} : VexLead m v → VexHead m [0xC4, v, w] (vex3 m v w)

theorem decodeBody_vex {m : Mode} {head : List Byte} {v : Vex} (h : VexHead m head v) (p : Prefixes) (total : Nat)
    (ws : List Byte) : decodeBody m p total (head ++ ws) = decodeVex m p v total ws := by
  cases h with
  | @two w hw =>
    have hlead : leadOf m (0xC5 :: w :: ws) = .vex2 := by
      rcases hw with h | h <;> simp [leadOf, h]
    simp only [decodeBody, List.cons_append, List.nil_append, hlead]
  | @three v w hv =>
    have hlead : leadOf m (0xC4 :: v :: w :: ws) = .vex3 := by
      rcases hv with h | h <;> simp [leadOf, h]
    simp only [decodeBody, List.cons_append, List.nil_append, hlead]

/-- VEX bytes begin with none of the legacy or REX prefixes. -/
theorem decodeFrom_vex {m : Mode} {head : List Byte} {v : Vex} (h : VexHead m head v) (p : Prefixes) (total : Nat)
    (ws : List Byte) : decodeFrom m p total (head ++ ws) = decodeVex m p v total ws := by
  rw [← decodeBody_vex h]
  cases h with
  | two => exact decodeFrom_stop (not_prefixByte_vex2 m) ..
  | three => exact decodeFrom_stop (not_prefixByte_vex3 m) ..

theorem decodeBody_of_leadOf {m : Mode} {ws : List Byte} (h : leadOf m ws = .legacy) (p : Prefixes) (total : Nat) :
    decodeBody m p total ws = decodeLegacy m p total ws := by
  simp only [decodeBody, h]

theorem leadOf_of_not_vex {m : Mode} {w : Byte} (h4 : w ≠ 0xC4) (h5 : w ≠ 0xC5) (ws : List Byte) :
    leadOf m (w :: ws) = .legacy := by
  rw [leadOf, if_neg (not_or.2 ⟨h4, h5⟩)]

/-- R99: LES and LDS. -/
theorem leadOf_of_not_vexLead {m : Mode} {v : Byte} (hv : ¬ VexLead m v) (w : Byte) (ws : List Byte) :
    leadOf m (w :: v :: ws) = .legacy := by
  obtain ⟨hm, hbits⟩ := not_or.1 hv
  simp [leadOf, hm, hbits]

theorem decodeFrom_escape (m : Mode) (p : Prefixes) (total : Nat) (ws : List Byte) :
    decodeFrom m p total (0x0F :: ws) = decodeLegacy m p total (0x0F :: ws) := by
  rw [decodeFrom_stop (not_prefixByte_escape m), decodeBody_of_leadOf]
  exact leadOf_of_not_vex (by decide) (by decide) ws

/-- Every way the bytes after the prefixes can begin: too few to say, VEX bytes, or anything else, whatever
follows. -/
theorem decodeBody_cases (m : Mode) (w : Byte) (ws : List Byte) :
    (∀ p total, decodeBody m p total (w :: ws) = .short) ∨
      (∃ head v ws', w :: ws = head ++ ws' ∧ VexHead m head v) ∨
      ∀ tail, leadOf m (w :: ws ++ tail) = .legacy := by
  by_cases hw : w = 0xC4 ∨ w = 0xC5
  · match ws with
    | [] => exact .inl fun p total => by rcases hw with rfl | rfl <;> cases m <;> rfl
    | v :: ws =>
      by_cases hv : VexLead m v
      · rcases hw with rfl | rfl
        · match ws with
          | [] => exact .inl fun p total => by rcases hv with h | h <;> simp [decodeBody, leadOf, h]
          | v' :: ws => exact .inr (.inl ⟨[0xC4, v, v'], _, ws, rfl, .three hv⟩)
        · exact .inr (.inl ⟨[0xC5, v], _, ws, rfl, .two hv⟩)
      · exact .inr (.inr fun tail => leadOf_of_not_vexLead hv w (ws ++ tail))
  · obtain ⟨h4, h5⟩ := not_or.1 hw
    exact .inr (.inr fun tail => leadOf_of_not_vex h4 h5 (ws ++ tail))

/-! ### Encodings the decoder accepts -/

/-- R106 steps 3 to 5: after the prefixes `p` the bytes begin with an encoding, without prefixes that forbid it; the
fields it gives (but for the length, here 0) and the bytes that follow. -/
inductive Reads (m : Mode) (p : Prefixes) : List Byte → Fields → List Byte → Prop where
  | legacy {op : Byte} {e : Elem} {reg : BitVec 4} {src : Src (BitVec 4)} {ws rest : List Byte} :
      elem? op = some e → decodeModRm m p p.r p.x p.b ws = some (reg, src, rest) → p.lock = false → p.rep = false →
      Reads m p (0x0F :: op :: ws) ⟨if p.opsize then .sse else .mmx, e, reg, 0, src, 0⟩ rest
  | vex {head : List Byte} {v : Vex} {op : Byte} {e : Elem} {reg : BitVec 4} {src : Src (BitVec 4)}
      {ws rest : List Byte} :
      VexHead m head v → v.pp = 1 → v.map = 1 → elem? op = some e →
      decodeModRm m p v.r v.x v.b ws = some (reg, src, rest) → vexForbidden p = false →
      Reads m p (head ++ op :: ws) ⟨if v.l then .vex256 else .vex128, e, reg, v.vvvv, src, 0⟩ rest

theorem answer_eq_ok {f : Fields} {i : Instr} : answer f = .ok i ↔ ofFields? f = some i := by
  unfold answer
  cases ofFields? f <;> simp

theorem decodeFrom_of_reads {m : Mode} {p : Prefixes} {ws rest : List Byte} {f : Fields} (h : Reads m p ws f rest)
    (total : Nat) : decodeFrom m p total ws = answer { f with len := total - rest.length } := by
  cases h with
  | legacy he hmodrm hlock hrep =>
    rw [decodeFrom_escape]
    simp [decodeLegacy, he, hmodrm, hlock, hrep]
  | vex hhead hpp hmap he hmodrm hforb =>
    rw [decodeFrom_vex hhead]
    simp [decodeVex, he, hpp, hmap, hmodrm, hforb]

theorem reads_of_decodeLegacy {m : Mode} {p : Prefixes} {total : Nat} {ws : List Byte} {i : Instr}
    (h : decodeLegacy m p total ws = .ok i) :
    ∃ f rest, Reads m p ws f rest ∧ ofFields? { f with len := total - rest.length } = some i := by
  unfold decodeLegacy at h
  split at h
  · cases h
  · split at h
    · cases h
    · next hesc =>
      obtain rfl := not_not.1 hesc
      split at h
      · cases h
      · split at h
        · cases h
        · next he =>
          split at h
          · cases h
          · next hmodrm =>
            split at h
            · cases h
            · next hlock =>
              split at h
              · cases h
              · next hrep =>
                exact ⟨_, _, .legacy he hmodrm (by simpa using hlock) (by simpa using hrep), answer_eq_ok.1 h⟩

theorem reads_of_decodeVex {m : Mode} {p : Prefixes} {v : Vex} {total : Nat} {head ws : List Byte} {i : Instr}
    (hhead : VexHead m head v) (h : decodeVex m p v total ws = .ok i) :
    ∃ f rest, Reads m p (head ++ ws) f rest ∧ ofFields? { f with len := total - rest.length } = some i := by
  unfold decodeVex at h
  have hother : (if vexForbidden p then DecodeResult.undefinedOpcode else .rejected .notOfFamily) ≠ .ok i := by
    split <;> simp
  split at h
  · cases h
  · dsimp only at h
    split at h
    · exact absurd h hother
    · next he =>
      split at h
      · next hfam =>
        split at h
        · cases h
        · next hmodrm =>
          split at h
          · cases h
          · next hforb =>
            exact ⟨_, _, .vex hhead hfam.1 hfam.2 he hmodrm (by simpa using hforb), answer_eq_ok.1 h⟩
      · exact absurd h hother

/-- R106: what the decoder accepts is prefixes and an encoding. -/
theorem reads_of_decodeFrom {m : Mode} {total : Nat} {i : Instr} (ws : List Byte) (p : Prefixes)
    (h : decodeFrom m p total ws = .ok i) :
    ∃ ps body f rest, ws = ps ++ body ∧ (∀ w, w ∈ ps → PrefixByte m w) ∧
      Reads m (ps.foldl prefixStep p) body f rest ∧ ofFields? { f with len := total - rest.length } = some i := by
  induction ws using prefix_induction (m := m) generalizing p with
  | nil => cases h
  | step w ws hw ih =>
    rw [decodeFrom_prefix hw] at h
    obtain ⟨ps, body, f, rest, rfl, hps, hread, hi⟩ := ih _ h
    exact ⟨w :: ps, body, f, rest, rfl, List.forall_mem_cons.2 ⟨hw, hps⟩, hread, hi⟩
  | stop w ws hw =>
    rw [decodeFrom_stop hw] at h
    suffices ∃ f rest, Reads m p (w :: ws) f rest ∧ ofFields? { f with len := total - rest.length } = some i by
      obtain ⟨f, rest, hread, hi⟩ := this
      exact ⟨[], w :: ws, f, rest, rfl, by simp, hread, hi⟩
    rcases decodeBody_cases m w ws with hshort | ⟨head, v, ws', hws, hhead⟩ | hlegacy
    · rw [hshort] at h; cases h
    · rw [hws, decodeBody_vex hhead] at h
      exact hws ▸ reads_of_decodeVex hhead h
    · rw [decodeBody_of_leadOf (by simpa using hlegacy [])] at h
      exact reads_of_decodeLegacy h

end Sys2Proof


/-! ## The operand bytes: ModRM, SIB, displacement (R86 to R92)

A reader of bytes is `Exact` when it takes a beginning of them and looks at nothing after it. Each reader of the decoder
is; `DecodedMem` says what a memory operand read by it is like, and `decodeModRm_operandBytes` that it reads the
encoder's bytes back. -/

namespace Sys2Proof

open Config (Mode)

/-! ### Readers -/

/-- What the reader answers depends only on the bytes it takes, and it leaves all others. -/
def Exact {α : Type} (read : List Byte → Option (α × List Byte)) : Prop :=
  ∀ ⦃ws a rest⦄, read ws = some (a, rest) → ∃ used, ws = used ++ rest ∧ ∀ tail, read (used ++ tail) = some (a, tail)

theorem Exact.map {α β : Type} {read : List Byte → Option (α × List Byte)} (h : Exact read) (g : α → β) :
    Exact fun ws => (read ws).map (Prod.map g id) := by
  intro ws b rest hread
  obtain ⟨⟨a, rest'⟩, hread', heq⟩ := Option.map_eq_some_iff.1 hread
  cases heq
  obtain ⟨used, rfl, hused⟩ := h hread'
  exact ⟨used, rfl, fun tail => by simp [hused]⟩

/-- A byte read first, that selects the reader of the rest. -/
theorem Exact.cons {α : Type} {read : List Byte → Option (α × List Byte)}
    (hnil : read [] = none) (h : ∀ w, Exact fun ws => read (w :: ws)) : Exact read := by
  intro ws a rest hread
  cases ws with
  | nil => rw [hnil] at hread; cases hread
  | cons w ws =>
    obtain ⟨used, rfl, hused⟩ := h w hread
    exact ⟨w :: used, rfl, hused⟩

/-! ### Displacements -/

theorem takeDisp8_eq_some {ws : List Byte} {d : Disp} {rest : List Byte} :
    takeDisp8 ws = some (d, rest) ↔ ∃ b, d = .d8 b ∧ ws = b :: rest := by
  match ws with
  | [] => simp [takeDisp8]
  | b :: ws => simp [takeDisp8, eq_comm]

theorem takeDisp16_eq_some {ws : List Byte} {d : Disp} {rest : List Byte} :
    takeDisp16 ws = some (d, rest) ↔ ∃ b0 b1, d = .d16 (b1 ++ b0) ∧ ws = b0 :: b1 :: rest := by
  match ws with
  | [] => simp [takeDisp16]
  | [_] => simp [takeDisp16]
  | b0 :: b1 :: ws =>
    simp only [takeDisp16, Option.some.injEq, Prod.mk.injEq, List.cons.injEq]
    exact ⟨fun ⟨hd, hr⟩ => ⟨b0, b1, hd.symm, rfl, rfl, hr⟩, by rintro ⟨_, _, rfl, rfl, rfl, rfl⟩; exact ⟨rfl, rfl⟩⟩

theorem takeDisp32_eq_some {ws : List Byte} {d : Disp} {rest : List Byte} :
    takeDisp32 ws = some (d, rest) ↔
      ∃ b0 b1 b2 b3, d = .d32 (b3 ++ b2 ++ b1 ++ b0) ∧ ws = b0 :: b1 :: b2 :: b3 :: rest := by
  match ws with
  | [] => simp [takeDisp32]
  | [_] => simp [takeDisp32]
  | [_, _] => simp [takeDisp32]
  | [_, _, _] => simp [takeDisp32]
  | b0 :: b1 :: b2 :: b3 :: ws =>
    simp only [takeDisp32, Option.some.injEq, Prod.mk.injEq, List.cons.injEq]
    exact ⟨fun ⟨hd, hr⟩ => ⟨b0, b1, b2, b3, hd.symm, rfl, rfl, rfl, rfl, hr⟩, by
      rintro ⟨_, _, _, _, rfl, rfl, rfl, rfl, rfl, rfl⟩; exact ⟨rfl, rfl⟩⟩

theorem takeDisp8_exact : Exact takeDisp8 := by
  intro ws d rest h
  obtain ⟨b, rfl, rfl⟩ := takeDisp8_eq_some.1 h
  exact ⟨[b], rfl, fun tail => rfl⟩

theorem takeDisp16_exact : Exact takeDisp16 := by
  intro ws d rest h
  obtain ⟨b0, b1, rfl, rfl⟩ := takeDisp16_eq_some.1 h
  exact ⟨[b0, b1], rfl, fun tail => rfl⟩

theorem takeDisp32_exact : Exact takeDisp32 := by
  intro ws d rest h
  obtain ⟨b0, b1, b2, b3, rfl, rfl⟩ := takeDisp32_eq_some.1 h
  exact ⟨[b0, b1, b2, b3], rfl, fun tail => rfl⟩

theorem takeDisp_exact (mod : BitVec 2) (always : Bool) {wide : List Byte → Option (Disp × List Byte)}
    (hwide : Exact wide) : Exact (takeDisp mod always wide) := by
  unfold takeDisp
  split
  · split
    · exact hwide
    · intro ws d rest h
      cases h
      exact ⟨[], rfl, fun tail => rfl⟩
  · split
    · exact takeDisp8_exact
    · exact hwide

/-- R90 to R92: the displacements a mod other than 11B gives. -/
theorem takeDisp_cases {mod : BitVec 2} {always : Bool} {wide : List Byte → Option (Disp × List Byte)} {ws : List Byte}
    {d : Disp} {rest : List Byte} (h : takeDisp mod always wide ws = some (d, rest)) :
    (mod = 0 ∧ always = false ∧ d = .absent ∧ ws = rest) ∨ (mod = 1 ∧ ∃ b, d = .d8 b ∧ ws = b :: rest) ∨
      (mod ≠ 1 ∧ (mod = 0 → always = true) ∧ wide ws = some (d, rest)) := by
  unfold takeDisp at h
  split at h
  · next h0 =>
    split at h
    · next ha => exact .inr (.inr ⟨by rw [h0]; decide, fun _ => ha, h⟩)
    · next ha =>
      cases h
      exact .inl ⟨h0, by simpa using ha, rfl, rfl⟩
  · next h0 =>
    split at h
    · next h1 => exact .inr (.inl ⟨h1, takeDisp8_eq_some.1 h⟩)
    · next h1 => exact .inr (.inr ⟨h1, fun h => absurd h h0, h⟩)

theorem takeDisp_length {mod : BitVec 2} {always : Bool} {wide : List Byte → Option (Disp × List Byte)}
    (hwide : wide = takeDisp16 ∨ wide = takeDisp32) {ws : List Byte} {d : Disp} {rest : List Byte}
    (h : takeDisp mod always wide ws = some (d, rest)) : ws.length = dispLen d + rest.length := by
  rcases takeDisp_cases h with ⟨-, -, rfl, rfl⟩ | ⟨-, b, rfl, rfl⟩ | ⟨-, -, h⟩
  · simp [dispLen]
  · simp [dispLen, Nat.add_comm]
  · rcases hwide with rfl | rfl
    · obtain ⟨b0, b1, rfl, rfl⟩ := takeDisp16_eq_some.1 h
      simp [dispLen]; omega
    · obtain ⟨b0, b1, b2, b3, rfl, rfl⟩ := takeDisp32_eq_some.1 h
      simp [dispLen]; omega

/-! ### Memory operands, as a displacement read and an address form around it -/

/-- R90: base and index of a 16-bit form, by mod and r/m. -/
def form16 (mod : BitVec 2) (rm : BitVec 3) : Base × Option Index :=
  if mod = 0 ∧ rm = 6 then (.absent, none) else pair16 rm

theorem decodeMem16_eq (seg : Option SegReg) (mod : BitVec 2) (rm : BitVec 3) (ws : List Byte) :
    decodeMem16 seg mod rm ws =
      (takeDisp mod (decide (mod = 0 ∧ rm = 6)) takeDisp16 ws).map
        (Prod.map (mkMem seg .a16 (form16 mod rm).1 (form16 mod rm).2) id) := by
  unfold decodeMem16
  simp only [form16, decide_eq_true_eq]
  cases takeDisp mod (decide (mod = 0 ∧ rm = 6)) takeDisp16 ws <;> rfl

/-- R88: the base a SIB byte gives. -/
def sibBase (b : Bool) (mod : BitVec 2) (base : BitVec 3) : Base :=
  if mod = 0 ∧ base = 5 then .absent else .gpr (extend b base)

/-- R88: the index a SIB byte gives. -/
def sibIndex (x : Bool) (index : BitVec 3) (scale : BitVec 2) : Option Index :=
  if extend x index = 4 then none else some ⟨extend x index, scale⟩

theorem decodeSib_cons (seg : Option SegReg) (asize : AddrSize) (x b : Bool) (mod : BitVec 2) (sib : Byte)
    (ws : List Byte) :
    decodeSib seg asize x b mod (sib :: ws) =
      (takeDisp mod (decide (mod = 0 ∧ sib.extractLsb' 0 3 = 5#3)) takeDisp32 ws).map
        (Prod.map (mkMem seg asize (sibBase b mod (sib.extractLsb' 0 3))
          (sibIndex x (sib.extractLsb' 3 3) (sib.extractLsb' 6 2))) id) := by
  unfold decodeSib
  dsimp only
  cases takeDisp mod (decide (mod = 0 ∧ sib.extractLsb' 0 3 = 5#3)) takeDisp32 ws with
  | none => rfl
  | some dr => simp [sibBase, sibIndex, Prod.map]

/-- R91, R92: the base ModRM gives where no SIB byte follows. -/
def rmBase (m : Mode) (b : Bool) (mod : BitVec 2) (rm : BitVec 3) : Base :=
  if mod = 0 ∧ rm = 5 then (if m = .m64 then .rip else .absent) else .gpr (extend b rm)

theorem decodeMem32_of_ne_four {rm : BitVec 3} (hrm : rm ≠ 4) (m : Mode) (seg : Option SegReg) (asize : AddrSize)
    (x b : Bool) (mod : BitVec 2) (ws : List Byte) :
    decodeMem32 m seg asize x b mod rm ws =
      (takeDisp mod (decide (mod = 0 ∧ rm = 5)) takeDisp32 ws).map
        (Prod.map (mkMem seg asize (rmBase m b mod rm) none) id) := by
  unfold decodeMem32
  rw [if_neg hrm]
  dsimp only
  cases takeDisp mod (decide (mod = 0 ∧ rm = 5)) takeDisp32 ws with
  | none => rfl
  | some dr => simp [rmBase, Prod.map]

theorem decodeMem32_four (m : Mode) (seg : Option SegReg) (asize : AddrSize) (x b : Bool) (mod : BitVec 2)
    (ws : List Byte) : decodeMem32 m seg asize x b mod 4 ws = decodeSib seg asize x b mod ws := if_pos rfl

/-- The memory operand after ModRM. -/
def decodeMem (m : Mode) (p : Prefixes) (x b : Bool) (mod : BitVec 2) (rm : BitVec 3) (ws : List Byte) :
    Option (Mem × List Byte) :=
  if addrSizeOf m p = .a16 then decodeMem16 p.seg mod rm ws
  else decodeMem32 m p.seg (addrSizeOf m p) x b mod rm ws

theorem decodeModRm_nil (m : Mode) (p : Prefixes) (r x b : Bool) : decodeModRm m p r x b [] = none := rfl

theorem decodeModRm_reg {w : Byte} (h : w.extractLsb' 6 2 = 3) (m : Mode) (p : Prefixes) (r x b : Bool)
    (ws : List Byte) :
    decodeModRm m p r x b (w :: ws) =
      some (extend r (w.extractLsb' 3 3), .reg (extend b (w.extractLsb' 0 3)), ws) := by
  simp only [decodeModRm, h, if_true]

theorem decodeModRm_mem {w : Byte} (h : w.extractLsb' 6 2 ≠ 3) (m : Mode) (p : Prefixes) (r x b : Bool)
    (ws : List Byte) :
    decodeModRm m p r x b (w :: ws) =
      (decodeMem m p x b (w.extractLsb' 6 2) (w.extractLsb' 0 3) ws).map
        fun ar => (extend r (w.extractLsb' 3 3), Src.mem ar.1, ar.2) := by
  simp only [decodeModRm, if_neg h]
  change (match decodeMem m p x b (w.extractLsb' 6 2) (w.extractLsb' 0 3) ws with
    | some (a, rest) => some (extend r (w.extractLsb' 3 3), Src.mem a, rest)
    | none => none) = _
  cases decodeMem m p x b (w.extractLsb' 6 2) (w.extractLsb' 0 3) ws <;> rfl

/-! ### The readers are exact -/

theorem decodeMem16_exact (seg : Option SegReg) (mod : BitVec 2) (rm : BitVec 3) : Exact (decodeMem16 seg mod rm) := by
  rw [funext (decodeMem16_eq seg mod rm)]
  exact (takeDisp_exact _ _ takeDisp16_exact).map _

theorem decodeSib_exact (seg : Option SegReg) (asize : AddrSize) (x b : Bool) (mod : BitVec 2) :
    Exact (decodeSib seg asize x b mod) := by
  refine .cons rfl fun sib => ?_
  rw [funext (decodeSib_cons seg asize x b mod sib)]
  exact (takeDisp_exact _ _ takeDisp32_exact).map _

theorem decodeMem32_exact (m : Mode) (seg : Option SegReg) (asize : AddrSize) (x b : Bool) (mod : BitVec 2)
    (rm : BitVec 3) : Exact (decodeMem32 m seg asize x b mod rm) := by
  by_cases hrm : rm = 4
  · subst hrm
    rw [funext (decodeMem32_four m seg asize x b mod)]
    exact decodeSib_exact ..
  · rw [funext (decodeMem32_of_ne_four hrm m seg asize x b mod)]
    exact (takeDisp_exact _ _ takeDisp32_exact).map _

theorem decodeMem_exact (m : Mode) (p : Prefixes) (x b : Bool) (mod : BitVec 2) (rm : BitVec 3) :
    Exact (decodeMem m p x b mod rm) := by
  unfold decodeMem
  split
  · exact decodeMem16_exact ..
  · exact decodeMem32_exact ..

/-- The operand bytes are read whole, and nothing after them. -/
theorem decodeModRm_exact {m : Mode} {p : Prefixes} {r x b : Bool} {ws rest : List Byte} {reg : BitVec 4}
    {src : Src (BitVec 4)} (h : decodeModRm m p r x b ws = some (reg, src, rest)) :
    ∃ used, ws = used ++ rest ∧ ∀ tail, decodeModRm m p r x b (used ++ tail) = some (reg, src, tail) := by
  cases ws with
  | nil => cases h
  | cons w ws =>
    by_cases hmod : w.extractLsb' 6 2 = 3
    · rw [decodeModRm_reg hmod] at h
      cases h
      exact ⟨[w], rfl, fun tail => decodeModRm_reg hmod ..⟩
    · rw [decodeModRm_mem hmod] at h
      obtain ⟨⟨a, rest'⟩, hmem, heq⟩ := Option.map_eq_some_iff.1 h
      cases heq
      obtain ⟨used, rfl, hused⟩ := decodeMem_exact _ _ _ _ _ _ hmem
      exact ⟨w :: used, rfl, fun tail => by rw [List.cons_append, decodeModRm_mem hmod, hused]; rfl⟩

/-- Of the prefixes only the segment override and 67H reach an operand. -/
theorem decodeModRm_congr {p p' : Prefixes} (hseg : p.seg = p'.seg) (haddr : p.addrsize = p'.addrsize) (m : Mode)
    (r x b : Bool) (ws : List Byte) : decodeModRm m p r x b ws = decodeModRm m p' r x b ws := by
  have hasize : addrSizeOf m p = addrSizeOf m p' := by simp only [addrSizeOf, haddr]
  cases ws with
  | nil => rfl
  | cons w ws => simp only [decodeModRm, hseg, hasize]

end Sys2Proof


/-! ## What the decoder accepts is well-formed (O3) -/

namespace Sys2Proof

open Config (Mode)
open Safety (PrefixByte legacyPrefixBytes segmentBytes familyOpcodes)

/-! ### Register numbers -/

theorem extend_getLsbD_three (hi : Bool) (lo : BitVec 3) : (extend hi lo).getLsbD 3 = hi := by
  revert hi lo; decide

@[simp] theorem extend_low (hi : Bool) (lo : BitVec 3) : (extend hi lo).extractLsb' 0 3 = lo := by
  revert hi lo; decide

@[simp] theorem extend_self (v : BitVec 4) : extend (v.getLsbD 3) (v.extractLsb' 0 3) = v := by
  revert v; decide

theorem numberOk_iff {m : Mode} {v : BitVec 4} : numberOk m v = true ↔ (m ≠ .m64 → v.getLsbD 3 = false) := by
  unfold numberOk
  by_cases h : m = .m64 <;> simp [h]

theorem numberOk_extend {m : Mode} {hi : Bool} (h : m ≠ .m64 → hi = false) (lo : BitVec 3) :
    numberOk m (extend hi lo) = true := by
  rwa [numberOk_iff, extend_getLsbD_three]

/-! ### Memory operands -/

theorem memOk_of_a16 {m : Mode} {a : Mem} (h : a.asize = .a16) :
    memOk m a = true ↔ (AddrSize.a16 = defaultAddrSize m ∨ AddrSize.a16 = otherAddrSize m) ∧
      pairOk16 a.base a.index = true ∧ dispOk16 a.base a.index a.disp = true := by
  simp [memOk, h]

theorem memOk_of_ne_a16 {m : Mode} {a : Mem} (h : a.asize ≠ .a16) :
    memOk m a = true ↔ (a.asize = defaultAddrSize m ∨ a.asize = otherAddrSize m) ∧
      baseOk m a.base a.index = true ∧ indexOk m a.index = true ∧ dispOk a.base a.disp = true := by
  unfold memOk
  split
  · next h' => exact absurd h' h
  · simp [and_assoc]

theorem addrSizeOf_cases (m : Mode) (p : Prefixes) :
    addrSizeOf m p = defaultAddrSize m ∨ addrSizeOf m p = otherAddrSize m := by
  unfold addrSizeOf
  split <;> simp

/-- What a memory operand read from the `n` bytes after ModRM is like. -/
structure DecodedMem (m : Mode) (p : Prefixes) (x b : Bool) (a : Mem) (n : Nat) : Prop where
  seg : a.seg = p.seg.getD (defaultSeg a.base)
  asize : a.asize = addrSizeOf m p
  ok : memOk m a = true
  index : ∀ ix, a.index = some ix → ix.reg.getLsbD 3 = true → x = true
  base : ∀ r, a.base = .gpr r → r.getLsbD 3 = true → b = true
  len : (if needsSib m a then 1 else 0) + dispLen a.disp ≤ n

theorem pairOk16_form16 (mod : BitVec 2) (rm : BitVec 3) :
    pairOk16 (form16 mod rm).1 (form16 mod rm).2 = true := by
  revert mod rm; decide

/-- R90: the 16-bit forms name BX, BP, SI and DI, whose numbers need no fourth bit. -/
theorem pairOk16_base {r : Gpr} {ix : Option Index} (h : pairOk16 (.gpr r) ix = true) : r.getLsbD 3 = false := by
  have hr : r = 3 ∨ r = 5 ∨ r = 6 ∨ r = 7 := by
    cases ix with
    | none => simpa [pairOk16] using h
    | some ix =>
      simp only [pairOk16, Bool.and_eq_true, decide_eq_true_eq] at h
      exact h.1.1.imp id .inl
  rcases hr with rfl | rfl | rfl | rfl <;> rfl

theorem pairOk16_index {base : Base} {ix : Index} (h : pairOk16 base (some ix) = true) :
    ix.reg.getLsbD 3 = false := by
  cases base with
  | absent => cases h
  | rip => cases h
  | gpr r =>
    simp only [pairOk16, Bool.and_eq_true, decide_eq_true_eq] at h
    obtain ⟨⟨-, hi⟩, -⟩ := h
    rcases hi with hi | hi <;> rw [hi] <;> rfl

/-- R90: a base register of a 16-bit form has every displacement but disp32, and BP none but an explicit one. -/
theorem dispOk16_gpr {r : Gpr} {ix : Option Index} {d : Disp} (h32 : ∀ v, d ≠ .d32 v)
    (h : d = .absent → r ≠ 5 ∨ ix.isSome) : dispOk16 (.gpr r) ix d = true := by
  cases d with
  | absent =>
    cases ix with
    | none => exact decide_eq_true ((h rfl).resolve_right (by simp))
    | some ix => rfl
  | d8 v => cases ix <;> rfl
  | d16 v => cases ix <;> rfl
  | d32 v => exact absurd rfl (h32 v)

theorem pair16_gpr (rm : BitVec 3) :
    ∃ r, (pair16 rm).1 = .gpr r ∧ (rm ≠ 6 → r ≠ 5 ∨ (pair16 rm).2.isSome) := by
  have h5 : ∀ rm, rm ≠ 6 → (pair16 rm).1 ≠ .gpr 5 ∨ (pair16 rm).2.isSome := by decide
  have hgpr : ∃ r, (pair16 rm).1 = .gpr r := by
    unfold pair16
    split_ifs <;> exact ⟨_, rfl⟩
  obtain ⟨r, hr⟩ := hgpr
  exact ⟨r, hr, fun h => (h5 rm h).imp_left fun hne h => hne (h ▸ hr)⟩

theorem dispOk16_of_takeDisp {mod : BitVec 2} {rm : BitVec 3} {ws : List Byte} {d : Disp} {rest : List Byte}
    (h : takeDisp mod (decide (mod = 0 ∧ rm = 6)) takeDisp16 ws = some (d, rest)) :
    dispOk16 (form16 mod rm).1 (form16 mod rm).2 d = true := by
  unfold form16
  split
  · next hno =>
    rcases takeDisp_cases h with ⟨-, hfalse, -⟩ | ⟨h1, -⟩ | ⟨-, -, h⟩
    · simp [hno] at hfalse
    · rw [hno.1] at h1; cases h1
    · obtain ⟨b0, b1, rfl, -⟩ := takeDisp16_eq_some.1 h
      rfl
  · next hno =>
    obtain ⟨r, hr, h5⟩ := pair16_gpr rm
    rw [hr]
    rcases takeDisp_cases h with ⟨h0, -, rfl, -⟩ | ⟨-, b, rfl, -⟩ | ⟨-, -, h⟩
    · exact dispOk16_gpr (by simp) fun _ => h5 fun h6 => hno ⟨h0, h6⟩
    · exact dispOk16_gpr (by simp) (by simp)
    · obtain ⟨b0, b1, rfl, -⟩ := takeDisp16_eq_some.1 h
      exact dispOk16_gpr (by simp) (by simp)

theorem decodeMem16_sound {m : Mode} {p : Prefixes} {mod : BitVec 2} {rm : BitVec 3} {ws rest : List Byte} {a : Mem}
    (hsize : addrSizeOf m p = .a16) (h : decodeMem16 p.seg mod rm ws = some (a, rest)) (x b : Bool) :
    DecodedMem m p x b a (ws.length - rest.length) := by
  rw [decodeMem16_eq] at h
  obtain ⟨⟨d, rest'⟩, hdisp, heq⟩ := Option.map_eq_some_iff.1 h
  cases heq
  have hpair := pairOk16_form16 mod rm
  refine ⟨rfl, hsize.symm, ?_, ?_, ?_, ?_⟩
  · exact (memOk_of_a16 rfl).2 ⟨hsize ▸ addrSizeOf_cases m p, hpair, dispOk16_of_takeDisp hdisp⟩
  · intro ix hix h3
    simp only [mkMem] at hix
    rw [hix] at hpair
    rw [pairOk16_index hpair] at h3; cases h3
  · intro r hr h3
    simp only [mkMem] at hr
    rw [hr] at hpair
    rw [pairOk16_base hpair] at h3; cases h3
  · have hlen := takeDisp_length (.inl rfl) hdisp
    simp only [needsSib, mkMem, id_eq]
    simp; omega

/-- R91, R92: the displacement fits the base: `lo` is the number of the base register, `none` what stands for it in
the form without one. -/
theorem dispOk_of_takeDisp {mod : BitVec 2} {lo : BitVec 3} {ws : List Byte} {d : Disp} {rest : List Byte}
    (h : takeDisp mod (decide (mod = 0 ∧ lo = 5)) takeDisp32 ws = some (d, rest)) (b : Bool) {noBase : Base}
    (hno : noBase = .absent ∨ noBase = .rip) :
    dispOk (if mod = 0 ∧ lo = 5 then noBase else .gpr (extend b lo)) d = true := by
  rcases takeDisp_cases h with ⟨h0, hfalse, rfl, -⟩ | ⟨h1, v, rfl, -⟩ | ⟨-, -, h⟩
  · have h5 : lo ≠ 5#3 := by simpa [h0] using hfalse
    simp [h5, dispOk]
  · simp [h1, dispOk]
  · obtain ⟨b0, b1, b2, b3, rfl, -⟩ := takeDisp32_eq_some.1 h
    split
    · rcases hno with rfl | rfl <;> rfl
    · rfl

theorem sibLen_le (m : Mode) (a : Mem) : (if needsSib m a then 1 else 0) ≤ 1 := by
  split <;> omega

theorem decodeSib_sound {m : Mode} {p : Prefixes} {x b : Bool} {mod : BitVec 2} {ws rest : List Byte} {a : Mem}
    (hsize : addrSizeOf m p ≠ .a16) (hx : m ≠ .m64 → x = false) (hb : m ≠ .m64 → b = false)
    (h : decodeSib p.seg (addrSizeOf m p) x b mod ws = some (a, rest)) :
    DecodedMem m p x b a (ws.length - rest.length) := by
  cases ws with
  | nil => cases h
  | cons sib ws =>
    rw [decodeSib_cons] at h
    obtain ⟨⟨d, rest'⟩, hdisp, heq⟩ := Option.map_eq_some_iff.1 h
    cases heq
    have hdispOk := dispOk_of_takeDisp hdisp b (.inl rfl)
    have hindex : ∀ ix, sibIndex x (sib.extractLsb' 3 3) (sib.extractLsb' 6 2) = some ix →
        ix.reg = extend x (sib.extractLsb' 3 3) ∧ ix.reg ≠ 4 := by
      intro ix hix
      unfold sibIndex at hix
      split at hix
      · cases hix
      · next h4 => cases hix; exact ⟨rfl, h4⟩
    have hbase : ∀ r, sibBase b mod (sib.extractLsb' 0 3) = .gpr r → r = extend b (sib.extractLsb' 0 3) := by
      intro r hr
      unfold sibBase at hr
      split at hr <;> cases hr
      rfl
    refine ⟨rfl, rfl, (memOk_of_ne_a16 hsize).2 ⟨addrSizeOf_cases m p, ?_, ?_, hdispOk⟩, ?_, ?_, ?_⟩
    · simp only [mkMem, sibBase]
      split
      · rfl
      · exact numberOk_extend hb _
    · simp only [mkMem]
      cases hix : sibIndex x (sib.extractLsb' 3 3) (sib.extractLsb' 6 2) with
      | none => rfl
      | some ix =>
        obtain ⟨hreg, h4⟩ := hindex ix hix
        simp only [indexOk, Bool.and_eq_true, decide_eq_true_eq]
        exact ⟨hreg ▸ numberOk_extend hx _, h4⟩
    · intro ix hix h3
      rwa [(hindex ix hix).1, extend_getLsbD_three] at h3
    · intro r hr h3
      rwa [hbase r hr, extend_getLsbD_three] at h3
    · have hlen := takeDisp_length (.inr rfl) hdisp
      refine (Nat.add_le_add_right (sibLen_le m _) _).trans ?_
      change 1 + dispLen d ≤ ws.length + 1 - rest'.length
      omega

theorem decodeMem32_sound {m : Mode} {p : Prefixes} {x b : Bool} {mod : BitVec 2} {rm : BitVec 3}
    {ws rest : List Byte} {a : Mem} (hsize : addrSizeOf m p ≠ .a16) (hx : m ≠ .m64 → x = false)
    (hb : m ≠ .m64 → b = false) (h : decodeMem32 m p.seg (addrSizeOf m p) x b mod rm ws = some (a, rest)) :
    DecodedMem m p x b a (ws.length - rest.length) := by
  by_cases hrm : rm = 4
  · subst hrm
    rw [decodeMem32_four] at h
    exact decodeSib_sound hsize hx hb h
  · rw [decodeMem32_of_ne_four hrm] at h
    obtain ⟨⟨d, rest'⟩, hdisp, heq⟩ := Option.map_eq_some_iff.1 h
    cases heq
    have hnoBase : (if m = .m64 then Base.rip else .absent) = .absent ∨
        (if m = .m64 then Base.rip else .absent) = .rip := by
      split <;> simp
    have hdispOk := dispOk_of_takeDisp hdisp b hnoBase
    refine ⟨rfl, rfl, (memOk_of_ne_a16 hsize).2 ⟨addrSizeOf_cases m p, ?_, rfl, hdispOk⟩, ?_, ?_, ?_⟩
    · simp only [mkMem, rmBase]
      split_ifs with hno h64
      · simp [baseOk, h64]
      · rfl
      · exact numberOk_extend hb _
    · intro ix hix
      cases hix
    · intro r hr h3
      simp only [mkMem, rmBase] at hr
      split_ifs at hr
      · cases hr
        rwa [extend_getLsbD_three] at h3
    · have hlen := takeDisp_length (.inr rfl) hdisp
      have hsib : needsSib m (mkMem p.seg (addrSizeOf m p) (rmBase m b mod rm) none d) = false := by
        unfold needsSib
        split
        · rfl
        · simp only [mkMem, rmBase]
          split_ifs with hno h64 <;> simp_all
      simp only [id_eq, hsib]
      simp only [mkMem]
      simp; omega

theorem decodeMem_sound {m : Mode} {p : Prefixes} {x b : Bool} {mod : BitVec 2} {rm : BitVec 3} {ws rest : List Byte}
    {a : Mem} (hx : m ≠ .m64 → x = false) (hb : m ≠ .m64 → b = false)
    (h : decodeMem m p x b mod rm ws = some (a, rest)) : DecodedMem m p x b a (ws.length - rest.length) := by
  unfold decodeMem at h
  split at h
  · next hsize => exact decodeMem16_sound hsize h x b
  · next hsize => exact decodeMem32_sound hsize hx hb h

end Sys2Proof


namespace Sys2Proof

open Config (Mode)
open Safety (PrefixByte legacyPrefixBytes segmentBytes familyOpcodes)

/-! ### The operands together -/

/-- The bytes the segment override and 67H take. -/
def overrideCount (p : Prefixes) : Nat := p.seg.isSome.toNat + p.addrsize.toNat

theorem overrideLen_le {m : Mode} {p : Prefixes} {a : Mem} (hseg : a.seg = p.seg.getD (defaultSeg a.base))
    (hsize : a.asize = addrSizeOf m p) :
    (if a.seg = defaultSeg a.base then 0 else 1) + (if a.asize = defaultAddrSize m then 0 else 1) ≤
      overrideCount p := by
  refine Nat.add_le_add ?_ ?_
  · cases hp : p.seg with
    | none => simp [hseg, hp]
    | some g => split <;> simp
  · cases hp : p.addrsize with
    | false => simp [hsize, addrSizeOf, hp]
    | true => split <;> simp

/-- What the operands `f.reg` and `f.src` read from `n` bytes at ModRM are like. -/
structure DecodedOperands (m : Mode) (p : Prefixes) (r x b : Bool) (f : Fields) (n : Nat) : Prop where
  reg : numberOk m f.reg = true
  src : srcOk m f.src = true
  ext_r : (extBits f).r = true → r = true
  ext_x : (extBits f).x = true → x = true
  ext_b : (extBits f).b = true → b = true
  len : operandLen m f.src ≤ n + overrideCount p

theorem decodeModRm_sound {m : Mode} {p : Prefixes} {r x b : Bool} {f : Fields} {ws rest : List Byte}
    (hr : m ≠ .m64 → r = false) (hx : m ≠ .m64 → x = false) (hb : m ≠ .m64 → b = false)
    (h : decodeModRm m p r x b ws = some (f.reg, f.src, rest)) :
    DecodedOperands m p r x b f (ws.length - rest.length) := by
  obtain ⟨kind, elem, reg, vvvv, src, len⟩ := f
  cases ws with
  | nil => cases h
  | cons w ws =>
    by_cases hmod : w.extractLsb' 6 2 = 3
    · rw [decodeModRm_reg hmod] at h
      simp only [Option.some.injEq, Prod.mk.injEq] at h
      obtain ⟨rfl, rfl, rfl⟩ := h
      refine ⟨numberOk_extend hr _, numberOk_extend hb _, ?_, ?_, ?_, ?_⟩
      · simp only [extBits, extend_getLsbD_three, imp_self]
      · simp [extBits]
      · simp only [extBits, extend_getLsbD_three, imp_self]
      · simp only [operandLen, List.length_cons]; omega
    · rw [decodeModRm_mem hmod] at h
      obtain ⟨⟨a, rest'⟩, hmem, heq⟩ := Option.map_eq_some_iff.1 h
      simp only [Prod.mk.injEq] at heq
      obtain ⟨rfl, rfl, rfl⟩ := heq
      obtain ⟨hseg, hsize, hok, hindex, hbase, hlen⟩ := decodeMem_sound hx hb hmem
      have hused := overrideLen_le hseg hsize
      obtain ⟨used, hws, -⟩ := decodeMem_exact _ _ _ _ _ _ hmem
      have hle : rest'.length ≤ ws.length := by simp [hws]
      refine ⟨numberOk_extend hr _, hok, ?_, ?_, ?_, ?_⟩
      · simp only [extBits, extend_getLsbD_three, imp_self]
      · cases hix : a.index with
        | none => simp [extBits, hix]
        | some ix => simpa only [extBits, hix] using hindex ix hix
      · cases hb' : a.base with
        | absent => simp [extBits, hb']
        | rip => simp [extBits, hb']
        | gpr q => simpa only [extBits, hb'] using hbase q hb'
      · simp only [operandLen, List.length_cons]; omega

/-! ### The bytes the prefixes take -/

/-- How many bytes the prefixes need at least: one for 66H, one for each override, one for a REX byte in force. -/
def prefixCount (p : Prefixes) : Nat := p.opsize.toNat + (p.r || p.x || p.b).toNat + overrideCount p

theorem prefixCount_step (p : Prefixes) (w : Byte) : prefixCount (prefixStep p w) ≤ prefixCount p + 1 := by
  unfold prefixStep
  split
  · next k _ =>
    cases k <;> simp [prefixCount, overrideCount, addLegacy] <;> omega
  · have hrex := Bool.toNat_le ((addRex p w).r || (addRex p w).x || (addRex p w).b)
    simp only [prefixCount, overrideCount, addRex] at hrex ⊢
    omega

theorem prefixCount_foldl (ps : List Byte) (p : Prefixes) :
    prefixCount (ps.foldl prefixStep p) ≤ prefixCount p + ps.length := by
  induction ps generalizing p with
  | nil => simp
  | cons w ps ih =>
    have hstep := prefixCount_step p w
    have hfold := ih (prefixStep p w)
    simp only [List.foldl_cons, List.length_cons]
    omega

/-- Outside 64-bit mode no REX bit is ever in force. -/
theorem foldl_prefixStep_noRex {m : Mode} (hm : m ≠ .m64) {ps : List Byte} (hps : ∀ w, w ∈ ps → PrefixByte m w)
    {p : Prefixes} (h : p.r = false ∧ p.x = false ∧ p.b = false) :
    let q := ps.foldl prefixStep p
    q.r = false ∧ q.x = false ∧ q.b = false := by
  induction ps generalizing p with
  | nil => exact h
  | cons w ps ih =>
    refine ih (fun v hv => hps v (List.mem_cons_of_mem _ hv)) ?_
    have hw : (legacyPrefix? w).isSome = true := by
      rcases hps w List.mem_cons_self with hl | ⟨h64, -⟩
      · exact (legacyPrefix_isSome w).2 hl
      · exact absurd h64 hm
    obtain ⟨k, hk⟩ := Option.isSome_iff_exists.1 hw
    simp only [prefixStep, hk]
    cases k <;> simp [addLegacy]

/-! ### The instruction the fields spell -/

/-- The fields with the numbers of an MMX form cut to three bits (R87). -/
def mmxNumbers (f : Fields) : Fields :=
  { f with reg := (f.reg.setWidth 3).setWidth 4, src := wideSrc (narrowSrc f.src) }

/-- The instruction of given fields has these fields, and for an MMX form with the numbers cut to three bits. -/
theorem fieldsOf_of_ofFields {f : Fields} {i : Instr} (h : ofFields? f = some i)
    (hv : f.kind = .mmx ∨ f.kind = .sse → f.vvvv = 0) :
    (f.kind = .mmx ∧ fieldsOf i = mmxNumbers f) ∨ (f.kind ≠ .mmx ∧ fieldsOf i = f) := by
  obtain ⟨kind, elem, reg, vvvv, src, len⟩ := f
  cases kind with
  | mmx =>
    obtain rfl := hv (.inl rfl)
    cases elem <;> cases h <;> exact .inl ⟨rfl, rfl⟩
  | sse =>
    obtain rfl := hv (.inr rfl)
    cases elem <;> cases h <;> exact .inr ⟨by simp, rfl⟩
  | vex128 => cases elem <;> cases h <;> exact .inr ⟨by simp, rfl⟩
  | vex256 => cases elem <;> cases h <;> exact .inr ⟨by simp, rfl⟩

theorem setWidth_three_four (v : BitVec 4) : ((v.setWidth 3).setWidth 4).getLsbD 3 = false := by
  revert v; decide

theorem numberOk_zero (m : Mode) : numberOk m 0 = true := numberOk_iff.2 fun _ => rfl

theorem numberOk_mmx (m : Mode) (v : BitVec 4) : numberOk m ((v.setWidth 3).setWidth 4) = true :=
  numberOk_iff.2 fun _ => setWidth_three_four v

/-- The check of an instruction's fields. -/
def fieldsOk (m : Mode) (f : Fields) : Bool :=
  numberOk m f.reg && numberOk m f.vvvv && srcOk m f.src && lenOk m f

theorem wellFormed_iff {m : Mode} {i : Instr} : wellFormed m i = true ↔ fieldsOk m (fieldsOf i) = true := Iff.rfl

theorem fieldsOk_iff {m : Mode} {f : Fields} :
    fieldsOk m f = true ↔ numberOk m f.reg = true ∧ numberOk m f.vvvv = true ∧ srcOk m f.src = true ∧
      minLen m f ≤ f.len ∧ f.len ≤ 15 := by
  simp [fieldsOk, lenOk, and_assoc]

/-- The bytes before ModRM of an encoding of kind `k` with the extension bits `r`, `x` and `b`. -/
def opcodeLenOf (k : Kind) (r x b : Bool) : Nat :=
  match k with
  | .mmx => (r || x || b).toNat + 2
  | .sse => 1 + (r || x || b).toNat + 2
  | _ => (x || b).toNat + 3

theorem opcodeLen_le {f : Fields} {r x b : Bool} (hr : (extBits f).r = true → r = true)
    (hx : (extBits f).x = true → x = true) (hb : (extBits f).b = true → b = true) :
    opcodeLen f ≤ opcodeLenOf f.kind r x b := by
  unfold opcodeLen opcodeLenOf
  generalize extBits f = e at hr hx hb
  obtain ⟨er, ex, eb⟩ := e
  cases f.kind <;> revert er ex eb r x b <;> decide

theorem opcodeLen_eq (f : Fields) :
    opcodeLen f = opcodeLenOf f.kind (extBits f).r (extBits f).x (extBits f).b := by
  unfold opcodeLen opcodeLenOf
  generalize extBits f = e
  obtain ⟨er, ex, eb⟩ := e
  cases f.kind <;> revert er ex eb <;> decide

theorem opcodeLen_mmxNumbers (f : Fields) : opcodeLen (mmxNumbers f) ≤ opcodeLen f := by
  obtain ⟨kind, elem, reg, vvvv, src, len⟩ := f
  rw [opcodeLen_eq ⟨kind, elem, reg, vvvv, src, len⟩]
  cases src with
  | reg q =>
    refine opcodeLen_le ?_ (fun h => h) ?_
    · exact fun h => absurd (h.symm.trans (setWidth_three_four reg)) (by decide)
    · exact fun h => absurd (h.symm.trans (setWidth_three_four q)) (by decide)
  | mem a =>
    refine opcodeLen_le ?_ (fun h => h) (fun h => h)
    exact fun h => absurd (h.symm.trans (setWidth_three_four reg)) (by decide)

/-- Cutting the numbers of an MMX form keeps it well-formed. -/
theorem fieldsOk_mmxNumbers {m : Mode} {f : Fields} (h : fieldsOk m f = true) :
    fieldsOk m (mmxNumbers f) = true := by
  obtain ⟨-, hv, hsrc, hmin, hmax⟩ := fieldsOk_iff.1 h
  have hop := opcodeLen_mmxNumbers f
  have hoperand : operandLen m (mmxNumbers f).src = operandLen m f.src := by
    obtain ⟨kind, elem, reg, vvvv, src, len⟩ := f
    cases src <;> rfl
  have hsrc' : srcOk m (mmxNumbers f).src = true := by
    obtain ⟨kind, elem, reg, vvvv, src, len⟩ := f
    cases src with
    | reg q => exact numberOk_mmx m q
    | mem a => exact hsrc
  refine fieldsOk_iff.2 ⟨numberOk_mmx m _, hv, hsrc', ?_, hmax⟩
  simp only [minLen, hoperand] at hmin ⊢
  simp only [mmxNumbers] at hop ⊢
  omega

/-! ### The soundness of the decoder -/

theorem vexHead_noExt {m : Mode} (hm : m ≠ .m64) {head : List Byte} {v : Vex} (h : VexHead m head v) :
    v.r = false ∧ v.x = false ∧ v.b = false ∧ v.vvvv.getLsbD 3 = false := by
  have hbits (w : Byte) : w.extractLsb' 6 2 = 3#2 →
      w.getLsbD 7 = true ∧ w.getLsbD 6 = true ∧ (~~~(w.extractLsb' 3 4)).getLsbD 3 = false := by
    revert w; decide +kernel
  cases h with
  | @two w hw =>
    obtain ⟨h7, -, h3⟩ := hbits w (hw.resolve_left hm)
    exact ⟨by simp only [vex2, h7, Bool.not_true], rfl, rfl, h3⟩
  | @three v w hv =>
    obtain ⟨h7, h6, -⟩ := hbits v (hv.resolve_left hm)
    refine ⟨by simp only [vex3, h7, Bool.not_true], by simp only [vex3, h6, Bool.not_true], by simp [vex3, hm], ?_⟩
    simp only [vex3, if_neg hm]
    generalize ~~~(w.extractLsb' 3 4) = u
    revert u; decide

theorem vexHead_length {m : Mode} {head : List Byte} {v : Vex} (h : VexHead m head v) :
    (v.x || v.b).toNat + 2 ≤ head.length := by
  cases h with
  | two => simp [vex2]
  | @three v w =>
    have hbit := Bool.toNat_le ((vex3 m v w).x || (vex3 m v w).b)
    simp only [List.length_cons, List.length_nil]
    omega

/-- The fields the decoder reads satisfy the check, when the length given to them counts all bytes. -/
theorem fieldsOk_of_reads {m : Mode} {ps body rest : List Byte} {f : Fields} (hps : ∀ w, w ∈ ps → PrefixByte m w)
    (h : Reads m (ps.foldl prefixStep {}) body f rest) (hlen : (ps ++ body).length - rest.length ≤ 15) :
    fieldsOk m { f with len := (ps ++ body).length - rest.length } = true := by
  have hcount := prefixCount_foldl ps {}
  have hnoRex (hm : m ≠ .m64) := foldl_prefixStep_noRex hm hps (p := {}) ⟨rfl, rfl, rfl⟩
  generalize ps.foldl prefixStep {} = q at h hcount hnoRex
  rw [show prefixCount {} = 0 from rfl, Nat.zero_add, prefixCount] at hcount
  cases h with
  | @legacy op e reg src ws rest he hmodrm hlock hrep =>
    obtain ⟨used, hws, -⟩ := decodeModRm_exact hmodrm
    have hwlen : ws.length = used.length + rest.length := by rw [hws, List.length_append]
    obtain ⟨hreg, hsrc, hr, hx, hb, hop⟩ := decodeModRm_sound
      (f := ⟨if q.opsize then .sse else .mmx, e, reg, 0, src, (ps ++ 0x0F :: op :: ws).length - rest.length⟩)
      (fun hm => (hnoRex hm).1) (fun hm => (hnoRex hm).2.1) (fun hm => (hnoRex hm).2.2) hmodrm
    refine fieldsOk_iff.2 ⟨hreg, numberOk_zero m, hsrc, ?_, hlen⟩
    have hopcode := opcodeLen_le hr hx hb
    have hlegacy : opcodeLenOf (if q.opsize then .sse else .mmx) q.r q.x q.b =
        q.opsize.toNat + (q.r || q.x || q.b).toNat + 2 := by
      cases q.opsize <;> simp [opcodeLenOf, Nat.add_comm]
    simp only [hlegacy] at hopcode
    simp only [minLen, List.length_append, List.length_cons] at hop hopcode ⊢
    omega
  | @vex head v op e reg src ws rest hhead hpp hmap he hmodrm hforb =>
    obtain ⟨used, hws, -⟩ := decodeModRm_exact hmodrm
    have hwlen : ws.length = used.length + rest.length := by rw [hws, List.length_append]
    obtain ⟨hreg, hsrc, hr, hx, hb, hop⟩ := decodeModRm_sound
      (f := ⟨if v.l then .vex256 else .vex128, e, reg, v.vvvv, src, (ps ++ (head ++ op :: ws)).length - rest.length⟩)
      (fun hm => (vexHead_noExt hm hhead).1) (fun hm => (vexHead_noExt hm hhead).2.1)
      (fun hm => (vexHead_noExt hm hhead).2.2.1) hmodrm
    refine fieldsOk_iff.2 ⟨hreg, numberOk_iff.2 fun hm => (vexHead_noExt hm hhead).2.2.2, hsrc, ?_, hlen⟩
    have hopcode := opcodeLen_le hr hx hb
    have hvex : opcodeLenOf (if v.l then .vex256 else .vex128) v.r v.x v.b = (v.x || v.b).toNat + 3 := by
      cases v.l <;> rfl
    have hheadLen := vexHead_length hhead
    simp only [hvex] at hopcode
    simp only [minLen, List.length_append, List.length_cons] at hop hopcode ⊢
    omega

theorem reads_vvvv {m : Mode} {p : Prefixes} {ws rest : List Byte} {f : Fields} (h : Reads m p ws f rest) :
    f.kind = .mmx ∨ f.kind = .sse → f.vvvv = 0 := by
  cases h with
  | legacy => exact fun _ => rfl
  | @vex _ v =>
    intro hk
    cases hl : v.l <;> simp [hl] at hk

/-- Settles O3: every byte the fields need was read, one of the prefixes for each override, for 66H and for a REX byte
in force (`prefixCount`), and the operand bytes (`decodeModRm_sound`). -/
theorem decodedIsWellFormed : Obligations.DecodedIsWellFormed := by
  intro m ws i hlen h
  obtain ⟨ps, body, f, rest, rfl, hps, hread, hi⟩ := reads_of_decodeFrom ws {} h
  have hok := fieldsOk_of_reads hps hread (by omega)
  have hvvvv := reads_vvvv hread
  rw [wellFormed_iff]
  rcases fieldsOf_of_ofFields hi hvvvv with ⟨hk, hf⟩ | ⟨-, hf⟩
  · rw [hf]
    exact fieldsOk_mmxNumbers hok
  · rwa [hf]

end Sys2Proof


/-! ## The decoder reads the encoder's bytes back (O2), and after one more of the prefixes (O6 to O8, O5) -/

namespace Sys2Proof

open Config (Mode)
open Safety (PrefixByte legacyPrefixBytes segmentBytes familyOpcodes)

/-! ### ModRM, SIB and displacement bytes -/

@[simp] theorem modRmByte_mod (mod : BitVec 2) (reg rm : BitVec 3) :
    (modRmByte mod reg rm).extractLsb' 6 2 = mod := by
  revert mod reg rm; decide +kernel

@[simp] theorem modRmByte_reg (mod : BitVec 2) (reg rm : BitVec 3) :
    (modRmByte mod reg rm).extractLsb' 3 3 = reg := by
  revert mod reg rm; decide +kernel

@[simp] theorem modRmByte_rm (mod : BitVec 2) (reg rm : BitVec 3) :
    (modRmByte mod reg rm).extractLsb' 0 3 = rm := by
  revert mod reg rm; decide +kernel

theorem takeDisp16_dispBytes (v : BitVec 16) (tail : List Byte) :
    takeDisp16 (dispBytes (.d16 v) ++ tail) = some (.d16 v, tail) := by
  have hv : v.extractLsb' 8 8 ++ v.extractLsb' 0 8 = v := by
    rw [BitVec.extractLsb'_append_extractLsb'_eq_extractLsb' (by rfl), BitVec.extractLsb'_eq_self]
  simp [dispBytes, takeDisp16, hv]

theorem takeDisp32_dispBytes (v : BitVec 32) (tail : List Byte) :
    takeDisp32 (dispBytes (.d32 v) ++ tail) = some (.d32 v, tail) := by
  have hv : v.extractLsb' 24 8 ++ v.extractLsb' 16 8 ++ v.extractLsb' 8 8 ++ v.extractLsb' 0 8 = v := by
    rw [BitVec.extractLsb'_append_extractLsb'_eq_extractLsb' (by rfl),
      BitVec.extractLsb'_append_extractLsb'_eq_extractLsb' (by rfl),
      BitVec.extractLsb'_append_extractLsb'_eq_extractLsb' (by rfl), BitVec.extractLsb'_eq_self]
  simp [dispBytes, takeDisp32, hv]

/-- mod announces the displacement the encoder writes after it. -/
theorem takeDisp_dispBytes {d : Disp} {wide : List Byte → Option (Disp × List Byte)}
    (hwide : (wide = takeDisp16 ∧ ∀ v, d ≠ .d32 v) ∨ (wide = takeDisp32 ∧ ∀ v, d ≠ .d16 v)) (tail : List Byte) :
    takeDisp (modOf d) false wide (dispBytes d ++ tail) = some (d, tail) := by
  cases d with
  | absent => rfl
  | d8 v => rfl
  | d16 v =>
    obtain ⟨rfl, -⟩ := hwide.resolve_right fun h => h.2 v rfl
    exact takeDisp16_dispBytes v tail
  | d32 v =>
    obtain ⟨rfl, -⟩ := hwide.resolve_left fun h => h.2 v rfl
    exact takeDisp32_dispBytes v tail

theorem modOf_ne_three (d : Disp) : modOf d ≠ 3 := by
  cases d <;> simp [modOf]

theorem modOf_eq_zero {d : Disp} : modOf d = 0 ↔ d = .absent := by
  cases d <;> simp [modOf]

/-! ### Address forms -/

/-- R90: r/m of a 16-bit form with a base register selects its registers. -/
theorem pair16_rm16 {r : Gpr} {ix : Option Index} (h : pairOk16 (.gpr r) ix = true) :
    pair16 (rm16 (.gpr r) ix) = (.gpr r, ix) := by
  cases ix with
  | none =>
    rcases show r = 3 ∨ r = 5 ∨ r = 6 ∨ r = 7 by simpa [pairOk16] using h with rfl | rfl | rfl | rfl <;> rfl
  | some ix =>
    obtain ⟨reg, scale⟩ := ix
    simp only [pairOk16, Bool.and_eq_true, decide_eq_true_eq] at h
    obtain ⟨⟨rfl | rfl, rfl | rfl⟩, rfl⟩ := h <;> rfl

theorem rm16_ne_six {r : Gpr} {ix : Option Index} (h : pairOk16 (.gpr r) ix = true)
    (hdisp : dispOk16 (.gpr r) ix .absent = true) : rm16 (.gpr r) ix ≠ 6 := by
  intro h6
  have hpair := pair16_rm16 h
  rw [h6] at hpair
  obtain ⟨hr, rfl⟩ := Prod.mk.inj hpair
  cases hr
  exact absurd hdisp (by decide)

/-- R90: mod of a 16-bit form. -/
def mod16 : Base → Disp → BitVec 2
  | .absent, _ => 0
  | _, d => modOf d

theorem mod16_ne_three (b : Base) (d : Disp) : mod16 b d ≠ 3 := by
  cases b with
  | absent => simp [mod16]
  | gpr | rip => exact modOf_ne_three d

theorem decodeMem16_pair {mod : BitVec 2} {rm : BitVec 3} (h : ¬ (mod = 0 ∧ rm = 6)) (seg : Option SegReg)
    (ws : List Byte) :
    decodeMem16 seg mod rm ws =
      (takeDisp mod false takeDisp16 ws).map (Prod.map (mkMem seg .a16 (pair16 rm).1 (pair16 rm).2) id) := by
  rw [decodeMem16_eq, form16, if_neg h, decide_eq_false h]

theorem decodeMem16_noReg (seg : Option SegReg) (ws : List Byte) :
    decodeMem16 seg 0 6 ws = (takeDisp16 ws).map (Prod.map (mkMem seg .a16 .absent none) id) :=
  decodeMem16_eq seg 0 6 ws

/-- R90: the operand bytes of a 16-bit form are read back. -/
theorem decodeMem16_bytes {base : Base} {index : Option Index} {disp : Disp} (hpair : pairOk16 base index = true)
    (hdisp : dispOk16 base index disp = true) (seg : Option SegReg) (tail : List Byte) :
    decodeMem16 seg (mod16 base disp) (rm16 base index) (dispBytes disp ++ tail) =
      some (mkMem seg .a16 base index disp, tail) := by
  cases base with
  | rip => cases hpair
  | absent =>
    cases index with
    | some ix => cases hpair
    | none =>
      cases disp with
      | d16 v =>
        change decodeMem16 seg 0 6 _ = _
        rw [decodeMem16_noReg, takeDisp16_dispBytes]
        rfl
      | absent | d8 | d32 => cases hdisp
  | gpr r =>
    have hno : ¬ (modOf disp = 0 ∧ rm16 (.gpr r) index = 6) := by
      rintro ⟨h0, h6⟩
      obtain rfl := modOf_eq_zero.1 h0
      exact rm16_ne_six hpair hdisp h6
    have h32 : ∀ v, disp ≠ .d32 v := by
      rintro v rfl
      cases index <;> cases hdisp
    change decodeMem16 seg (modOf disp) (rm16 (.gpr r) index) _ = _
    rw [decodeMem16_pair hno, takeDisp_dispBytes (.inl ⟨rfl, h32⟩), pair16_rm16 hpair]
    rfl

/-- R88: the fourth bit of the index, REX.X or VEX.X. -/
def indexExt : Option Index → Bool
  | none => false
  | some ix => ix.reg.getLsbD 3

/-- R87: the fourth bit of the base, REX.B or VEX.B. -/
def baseExt : Base → Bool
  | .gpr r => r.getLsbD 3
  | _ => false

/-- R91, R92: mod of a 32- or 64-bit form. -/
def mod32 : Base → Disp → BitVec 2
  | .gpr _, d => modOf d
  | _, _ => 0

theorem mod32_ne_three (b : Base) (d : Disp) : mod32 b d ≠ 3 := by
  cases b with
  | gpr => exact modOf_ne_three d
  | absent | rip => simp [mod32]

/-- R88, R91: the three bits that name the base, 101B where none stands. -/
def baseLow : Base → BitVec 3
  | .gpr r => r.extractLsb' 0 3
  | _ => 5

/-- R88: the three bits that name the index, 100B where none stands. -/
def indexLow : Option Index → BitVec 3
  | none => 4
  | some ix => ix.reg.extractLsb' 0 3

/-- R88: the scale, 0 where no index stands. -/
def indexScale : Option Index → BitVec 2
  | none => 0
  | some ix => ix.scale

theorem extBits_of_mem {f : Fields} {a : Mem} (h : f.src = .mem a) :
    extBits f = ⟨f.reg.getLsbD 3, indexExt a.index, baseExt a.base⟩ := by
  unfold extBits
  rw [h]
  dsimp only
  congr 1
  cases a.index <;> rfl

/-- R91, R92: a base register that has no form without a displacement is written with one. -/
theorem modOf_low {r : Gpr} {d : Disp} (h : dispOk (.gpr r) d = true) :
    ¬ (modOf d = 0 ∧ r.extractLsb' 0 3 = 5) := by
  rintro ⟨h0, h5⟩
  obtain rfl := modOf_eq_zero.1 h0
  exact of_decide_eq_true h h5

theorem dispOk_wide {b : Base} {d : Disp} (h : dispOk b d = true) : ∀ v, d ≠ .d16 v := by
  rintro v rfl
  cases b <;> cases h

theorem disp_of_noBase {b : Base} {d : Disp} (hb : ∀ r, b ≠ .gpr r) (h : dispOk b d = true) :
    ∃ v, d = .d32 v := by
  cases b with
  | gpr r => exact absurd rfl (hb r)
  | absent | rip =>
    cases d with
    | d32 v => exact ⟨v, rfl⟩
    | absent | d8 | d16 => cases h

/-- R88: the SIB byte of the encoder is read back as the index. -/
theorem sibIndex_bytes {m : Mode} {ix : Option Index} (h : indexOk m ix = true) :
    sibIndex (indexExt ix) (indexLow ix) (indexScale ix) = ix := by
  cases ix with
  | none => rfl
  | some ix =>
    simp only [indexOk, Bool.and_eq_true, decide_eq_true_eq] at h
    simp only [sibIndex, indexExt, indexLow, indexScale, extend_self, if_neg h.2]

theorem decodeSib_base {mod : BitVec 2} {lo : BitVec 3} (h : ¬ (mod = 0 ∧ lo = 5)) (seg : Option SegReg)
    (asize : AddrSize) (x b : Bool) (scale : BitVec 2) (index : BitVec 3) (ws : List Byte) :
    decodeSib seg asize x b mod (modRmByte scale index lo :: ws) =
      (takeDisp mod false takeDisp32 ws).map
        (Prod.map (mkMem seg asize (.gpr (extend b lo)) (sibIndex x index scale)) id) := by
  rw [decodeSib_cons, modRmByte_mod, modRmByte_reg, modRmByte_rm, sibBase, if_neg h,
    decide_eq_false (p := mod = 0 ∧ lo = 5#3) h]

theorem decodeSib_noBase (seg : Option SegReg) (asize : AddrSize) (x b : Bool) (scale : BitVec 2) (index : BitVec 3)
    (ws : List Byte) :
    decodeSib seg asize x b 0 (modRmByte scale index 5 :: ws) =
      (takeDisp32 ws).map (Prod.map (mkMem seg asize .absent (sibIndex x index scale)) id) := by
  rw [decodeSib_cons, modRmByte_mod, modRmByte_reg, modRmByte_rm]
  rfl

/-- R88, R91, R92: the operand bytes of a form with SIB byte are read back. -/
theorem decodeSib_bytes {m : Mode} {base : Base} {index : Option Index} {disp : Disp}
    (hindex : indexOk m index = true) (hdisp : dispOk base disp = true) (hrip : base ≠ .rip) (seg : Option SegReg)
    (asize : AddrSize) (tail : List Byte) :
    decodeSib seg asize (indexExt index) (baseExt base) (mod32 base disp)
      (modRmByte (indexScale index) (indexLow index) (baseLow base) :: (dispBytes disp ++ tail)) =
      some (mkMem seg asize base index disp, tail) := by
  cases base with
  | rip => exact absurd rfl hrip
  | absent =>
    obtain ⟨v, rfl⟩ := disp_of_noBase (by simp) hdisp
    change decodeSib seg asize _ _ 0 (modRmByte _ _ 5 :: _) = _
    rw [decodeSib_noBase, takeDisp32_dispBytes, sibIndex_bytes hindex]
    rfl
  | gpr r =>
    change decodeSib seg asize _ (r.getLsbD 3) (modOf disp) (modRmByte _ _ (r.extractLsb' 0 3) :: _) = _
    rw [decodeSib_base (modOf_low hdisp), takeDisp_dispBytes (.inr ⟨rfl, dispOk_wide hdisp⟩), sibIndex_bytes hindex,
      extend_self]
    rfl

theorem needsSib_gpr {m : Mode} {seg : SegReg} {asize : AddrSize} {r : Gpr} {index : Option Index} {disp : Disp}
    (hsize : asize ≠ .a16) :
    needsSib m ⟨seg, asize, .gpr r, index, disp⟩ = (index.isSome || decide (r.extractLsb' 0 3 = 4)) := by
  cases asize with
  | a16 => exact absurd rfl hsize
  | a32 => rfl
  | a64 => rfl

theorem needsSib_absent {m : Mode} {seg : SegReg} {asize : AddrSize} {index : Option Index} {disp : Disp}
    (hsize : asize ≠ .a16) :
    needsSib m ⟨seg, asize, .absent, index, disp⟩ = (index.isSome || decide (m = .m64)) := by
  cases asize with
  | a16 => exact absurd rfl hsize
  | a32 => rfl
  | a64 => rfl

theorem needsSib_rip {m : Mode} {seg : SegReg} {asize : AddrSize} {index : Option Index} {disp : Disp} :
    needsSib m ⟨seg, asize, .rip, index, disp⟩ = false := by
  cases asize <;> rfl

theorem decodeMem32_base {mod : BitVec 2} {rm : BitVec 3} (h4 : rm ≠ 4) (h : ¬ (mod = 0 ∧ rm = 5)) (m : Mode)
    (seg : Option SegReg) (asize : AddrSize) (x b : Bool) (ws : List Byte) :
    decodeMem32 m seg asize x b mod rm ws =
      (takeDisp mod false takeDisp32 ws).map (Prod.map (mkMem seg asize (.gpr (extend b rm)) none) id) := by
  rw [decodeMem32_of_ne_four h4, rmBase, if_neg h, decide_eq_false h]

theorem decodeMem32_noBase (m : Mode) (seg : Option SegReg) (asize : AddrSize) (x b : Bool) (ws : List Byte) :
    decodeMem32 m seg asize x b 0 5 ws =
      (takeDisp32 ws).map (Prod.map (mkMem seg asize (if m = .m64 then .rip else .absent) none) id) :=
  decodeMem32_of_ne_four (by decide) m seg asize x b 0 ws

/-- R91, R92: the operand bytes of a form without SIB byte are read back. -/
theorem decodeMem32_bytes {m : Mode} {s : SegReg} {asize : AddrSize} {base : Base} {index : Option Index} {disp : Disp}
    (hsize : asize ≠ .a16) (hsib : needsSib m ⟨s, asize, base, index, disp⟩ = false)
    (hbase : baseOk m base index = true) (hdisp : dispOk base disp = true) (seg : Option SegReg) (tail : List Byte) :
    decodeMem32 m seg asize (indexExt index) (baseExt base) (mod32 base disp) (baseLow base) (dispBytes disp ++ tail) =
      some (mkMem seg asize base index disp, tail) := by
  cases base with
  | gpr r =>
    rw [needsSib_gpr hsize, Bool.or_eq_false_iff, decide_eq_false_iff_not] at hsib
    obtain ⟨hindex, h4⟩ := hsib
    obtain rfl : index = none := by simpa using hindex
    change decodeMem32 m seg asize _ (r.getLsbD 3) (modOf disp) (r.extractLsb' 0 3) _ = _
    rw [decodeMem32_base h4 (modOf_low hdisp), takeDisp_dispBytes (.inr ⟨rfl, dispOk_wide hdisp⟩), extend_self]
    rfl
  | absent =>
    rw [needsSib_absent hsize, Bool.or_eq_false_iff, decide_eq_false_iff_not] at hsib
    obtain ⟨hindex, hm⟩ := hsib
    obtain rfl : index = none := by simpa using hindex
    obtain ⟨v, rfl⟩ := disp_of_noBase (by simp) hdisp
    change decodeMem32 m seg asize _ _ 0 5 _ = _
    rw [decodeMem32_noBase, takeDisp32_dispBytes, if_neg hm]
    rfl
  | rip =>
    simp only [baseOk, Bool.and_eq_true, decide_eq_true_eq, Option.isNone_iff_eq_none] at hbase
    obtain ⟨hm, rfl⟩ := hbase
    obtain ⟨v, rfl⟩ := disp_of_noBase (by simp) hdisp
    change decodeMem32 m seg asize _ _ 0 5 _ = _
    rw [decodeMem32_noBase, takeDisp32_dispBytes, if_pos hm]
    rfl

/-! ### The encoder's operand bytes, in the decoder's terms -/

theorem memBytes_of_a16 {m : Mode} {a : Mem} (h : a.asize = .a16) (reg : BitVec 3) :
    memBytes m reg a =
      modRmByte (mod16 a.base a.disp) reg (rm16 a.base a.index) :: dispBytes a.disp := by
  unfold memBytes
  rw [h]
  cases a.base <;> rfl

theorem memBytes_of_sib {m : Mode} {a : Mem} (h : needsSib m a = true) (reg : BitVec 3) :
    memBytes m reg a =
      modRmByte (mod32 a.base a.disp) reg 4 ::
        modRmByte (indexScale a.index) (indexLow a.index) (baseLow a.base) :: dispBytes a.disp := by
  have hsize : a.asize ≠ .a16 := by
    intro h16
    simp [needsSib, h16] at h
  unfold memBytes
  split
  · next h16 => exact absurd h16 hsize
  · rw [if_pos h]
    cases a.base <;> cases a.index <;> rfl

theorem memBytes_of_noSib {m : Mode} {a : Mem} (hsize : a.asize ≠ .a16) (h : needsSib m a = false) (reg : BitVec 3) :
    memBytes m reg a =
      modRmByte (mod32 a.base a.disp) reg (baseLow a.base) :: dispBytes a.disp := by
  unfold memBytes
  split
  · next h16 => exact absurd h16 hsize
  · rw [if_neg (by simp [h])]
    cases a.base <;> rfl

/-- What the prefixes must have said for an operand to be read in its segment and under its address size. -/
def Overridden (m : Mode) (src : Src (BitVec 4)) (p : Prefixes) : Prop :=
  ∀ a, src = .mem a → p.seg.getD (defaultSeg a.base) = a.seg ∧ addrSizeOf m p = a.asize

theorem decodeModRm_modRmByte {mod : BitVec 2} (hmod : mod ≠ 3) (m : Mode) (p : Prefixes) (reg : BitVec 4) (x b : Bool)
    (rm : BitVec 3) (ws : List Byte) :
    decodeModRm m p (reg.getLsbD 3) x b (modRmByte mod (reg.extractLsb' 0 3) rm :: ws) =
      (decodeMem m p x b mod rm ws).map fun ar => (reg, Src.mem ar.1, ar.2) := by
  rw [decodeModRm_mem (by rwa [modRmByte_mod]), modRmByte_mod, modRmByte_reg, modRmByte_rm, extend_self]

/-- R86 to R92: the decoder reads the operand bytes of the encoder back. -/
theorem decodeModRm_operandBytes {m : Mode} {p : Prefixes} {f : Fields} (hsrc : srcOk m f.src = true)
    (hp : Overridden m f.src p) (tail : List Byte) :
    decodeModRm m p (extBits f).r (extBits f).x (extBits f).b (operandBytes m f.reg f.src ++ tail) =
      some (f.reg, f.src, tail) := by
  obtain ⟨kind, elem, reg, vvvv, src, len⟩ := f
  cases src with
  | reg q =>
    simp only [operandBytes, List.cons_append, List.nil_append, extBits]
    rw [decodeModRm_reg (modRmByte_mod ..), modRmByte_reg, modRmByte_rm, extend_self, extend_self]
  | mem a =>
    obtain ⟨hseg, hasize⟩ := hp a rfl
    have hok : memOk m a = true := hsrc
    rw [extBits_of_mem (f := ⟨kind, elem, reg, vvvv, .mem a, len⟩) rfl]
    simp only [operandBytes]
    have ha : mkMem p.seg a.asize a.base a.index a.disp = a := by rw [mkMem, hseg]
    by_cases h16 : a.asize = .a16
    · obtain ⟨-, hpair, hdisp⟩ := (memOk_of_a16 h16).1 hok
      rw [memBytes_of_a16 h16, List.cons_append, decodeModRm_modRmByte (mod16_ne_three _ _), decodeMem, hasize,
        if_pos h16, decodeMem16_bytes hpair hdisp, ← h16, ha]
      rfl
    · obtain ⟨-, hbase, hindex, hdisp⟩ := (memOk_of_ne_a16 h16).1 hok
      cases hsib : needsSib m a with
      | true =>
        have hrip : a.base ≠ .rip := by
          intro hrip
          obtain ⟨s, asize, base, index, disp⟩ := a
          obtain rfl : base = .rip := hrip
          rw [needsSib_rip] at hsib; cases hsib
        rw [memBytes_of_sib hsib, List.cons_append, List.cons_append, decodeModRm_modRmByte (mod32_ne_three _ _),
          decodeMem, hasize, if_neg h16, decodeMem32_four, decodeSib_bytes hindex hdisp hrip, ha]
        rfl
      | false =>
        rw [memBytes_of_noSib h16 hsib, List.cons_append, decodeModRm_modRmByte (mod32_ne_three _ _), decodeMem, hasize,
          if_neg h16, decodeMem32_bytes h16 hsib hbase hdisp, ha]
        rfl

end Sys2Proof


namespace Sys2Proof

open Config (Mode)
open Safety (PrefixByte legacyPrefixBytes segmentBytes familyOpcodes)

/-! ### The encoder's prefixes, in the decoder's terms -/

/-- The encoder on fields. -/
def bytesOf (m : Mode) (f : Fields) : List Byte :=
  List.replicate (f.len - minLen m f) (fillByte f.src) ++
    (overrideBytes m f.src ++ (opcodeBytes f ++ operandBytes m f.reg f.src))

theorem encode_eq_bytesOf (m : Mode) (i : Instr) : encode m i = bytesOf m (fieldsOf i) := rfl

theorem prefixByte_segByte (m : Mode) (g : SegReg) : PrefixByte m (segByte g) := .inl (by cases g <;> decide)

theorem prefixByte_opsize (m : Mode) : PrefixByte m 0x66 := .inl (by decide)

theorem prefixByte_addrsize (m : Mode) : PrefixByte m 0x67 := .inl (by decide)

theorem prefixStep_segByte (p : Prefixes) (g : SegReg) : prefixStep p (segByte g) = addLegacy p (.seg g) := by
  cases g <;> rfl

theorem prefixStep_opsize (p : Prefixes) : prefixStep p 0x66 = addLegacy p .opsize := rfl

theorem prefixStep_addrsize (p : Prefixes) : prefixStep p 0x67 = addLegacy p .addrsize := rfl

theorem prefixStep_rex {w : Byte} (h : w.extractLsb' 4 4 = 4#4) (p : Prefixes) : prefixStep p w = addRex p w := by
  rw [prefixStep, legacyPrefix_of_rex w h]

/-- R78: a repeated override acts as a single one. -/
theorem foldl_replicate_segByte (g : SegReg) (n : Nat) (p : Prefixes) :
    (List.replicate n (segByte g)).foldl prefixStep p = if n = 0 then p else addLegacy p (.seg g) := by
  induction n generalizing p with
  | zero => rfl
  | succ n ih =>
    rw [List.replicate_succ, List.foldl_cons, ih, prefixStep_segByte, if_neg (Nat.succ_ne_zero n)]
    split <;> rfl

/-- No REX byte is in force. -/
def NoRex (p : Prefixes) : Prop := p.r = false ∧ p.x = false ∧ p.b = false

theorem noRex_addLegacy (p : Prefixes) (k : LegacyPrefix) : NoRex (addLegacy p k) := by
  cases k <;> exact ⟨rfl, rfl, rfl⟩

theorem overridden_reg (m : Mode) (r : BitVec 4) (p : Prefixes) : Overridden m (.reg r) p := by
  intro a h
  cases h

/-- What the override bytes of an encoding leave: they select its operand, and change nothing else but a REX byte. -/
structure OverridesRead (m : Mode) (src : Src (BitVec 4)) (p q : Prefixes) : Prop where
  opsize : q.opsize = p.opsize
  lock : q.lock = p.lock
  rep : q.rep = p.rep
  rexSeen : q.rexSeen = p.rexSeen
  noRex : NoRex p → NoRex q
  operand : Overridden m src q

theorem overridesRead {m : Mode} {src : Src (BitVec 4)} {p : Prefixes} (hsrc : srcOk m src = true)
    (hseg : p.seg = none) (haddr : p.addrsize = false) (n : Nat) :
    OverridesRead m src p ((List.replicate n (fillByte src) ++ overrideBytes m src).foldl prefixStep p) := by
  rw [List.foldl_append]
  cases src with
  | reg r =>
    simp only [fillByte, overrideBytes, foldl_replicate_segByte, List.foldl_nil]
    split
    · exact ⟨rfl, rfl, rfl, rfl, id, overridden_reg _ _ _⟩
    · exact ⟨rfl, rfl, rfl, rfl, fun _ => noRex_addLegacy .., overridden_reg _ _ _⟩
  | mem a =>
    have hsize : a.asize = defaultAddrSize m ∨ a.asize = otherAddrSize m := by
      have hok : memOk m a = true := hsrc
      simp only [memOk, Bool.and_eq_true, Bool.or_eq_true, decide_eq_true_eq] at hok
      exact hok.1
    simp only [fillByte, overrideBytes, foldl_replicate_segByte]
    generalize hq : (if n = 0 then p else addLegacy p (.seg a.seg)) = q
    have hfill : OverridesRead m (.reg 0) p q ∧ (q.seg = none ∨ q.seg = some a.seg) ∧ q.addrsize = false := by
      subst hq
      split
      · exact ⟨⟨rfl, rfl, rfl, rfl, id, overridden_reg _ _ _⟩, .inl hseg, haddr⟩
      · exact ⟨⟨rfl, rfl, rfl, rfl, fun _ => noRex_addLegacy .., overridden_reg _ _ _⟩, .inr rfl, haddr⟩
    obtain ⟨⟨hop, hlock, hrep, hseen, hrex, -⟩, hqseg, hqaddr⟩ := hfill
    by_cases hs : a.seg = defaultSeg a.base
    · have hget : q.seg.getD (defaultSeg a.base) = a.seg := by rcases hqseg with h | h <;> simp [h, hs]
      by_cases ha : a.asize = defaultAddrSize m
      · rw [if_pos hs, if_pos ha]
        refine ⟨hop, hlock, hrep, hseen, hrex, fun b hb => ?_⟩
        cases hb
        exact ⟨hget, by simp [addrSizeOf, hqaddr, ha]⟩
      · rw [if_pos hs, if_neg ha]
        refine ⟨hop, hlock, hrep, hseen, fun _ => noRex_addLegacy q .addrsize, fun b hb => ?_⟩
        cases hb
        exact ⟨hget, (hsize.resolve_left ha).symm⟩
    · by_cases ha : a.asize = defaultAddrSize m
      · rw [if_neg hs, if_pos ha, List.append_nil, List.foldl_cons, prefixStep_segByte]
        refine ⟨hop, hlock, hrep, hseen, fun _ => noRex_addLegacy .., fun b hb => ?_⟩
        cases hb
        exact ⟨rfl, by simp [addrSizeOf, addLegacy, hqaddr, ha]⟩
      · rw [if_neg hs, if_neg ha, List.cons_append, List.foldl_cons, prefixStep_segByte]
        refine ⟨hop, hlock, hrep, hseen, fun _ => noRex_addLegacy _ .addrsize, fun b hb => ?_⟩
        cases hb
        exact ⟨rfl, (hsize.resolve_left ha).symm⟩

theorem prefixByte_overrides (m : Mode) (src : Src (BitVec 4)) (n : Nat) :
    ∀ w, w ∈ List.replicate n (fillByte src) ++ overrideBytes m src → PrefixByte m w := by
  have hfill : PrefixByte m (fillByte src) := by
    cases src with
    | reg r => exact prefixByte_segByte m .ds
    | mem a => exact prefixByte_segByte m a.seg
  have hover : ∀ w, w ∈ overrideBytes m src → PrefixByte m w := by
    cases src with
    | reg r => simp [overrideBytes]
    | mem a =>
      intro w hw
      rcases List.mem_append.1 hw with hw | hw
      · split at hw
        · cases hw
        · exact List.mem_singleton.1 hw ▸ prefixByte_segByte m a.seg
      · split at hw
        · cases hw
        · exact List.mem_singleton.1 hw ▸ prefixByte_addrsize m
  intro w hw
  rcases List.mem_append.1 hw with hw | hw
  · exact List.eq_of_mem_replicate hw ▸ hfill
  · exact hover w hw

/-! ### Extension bits -/

theorem extBits_of_not_m64 {m : Mode} {f : Fields} (hm : m ≠ .m64) (hreg : numberOk m f.reg = true)
    (hsrc : srcOk m f.src = true) : extBits f = ⟨false, false, false⟩ := by
  have hr := numberOk_iff.1 hreg hm
  cases hs : f.src with
  | reg q =>
    rw [hs] at hsrc
    simp only [extBits, hs, hr, numberOk_iff.1 hsrc hm]
  | mem a =>
    have hok : memOk m a = true := by rwa [hs] at hsrc
    rw [extBits_of_mem hs, hr]
    congr 1
    · cases hix : a.index with
      | none => rfl
      | some ix =>
        by_cases h16 : a.asize = .a16
        · obtain ⟨-, hpair, -⟩ := (memOk_of_a16 h16).1 hok
          exact pairOk16_index (hix ▸ hpair)
        · obtain ⟨-, -, hindex, -⟩ := (memOk_of_ne_a16 h16).1 hok
          rw [hix, indexOk, Bool.and_eq_true] at hindex
          exact numberOk_iff.1 hindex.1 hm
    · cases hb : a.base with
      | absent => rfl
      | rip => rfl
      | gpr r =>
        by_cases h16 : a.asize = .a16
        · obtain ⟨-, hpair, -⟩ := (memOk_of_a16 h16).1 hok
          exact pairOk16_base (hb ▸ hpair)
        · obtain ⟨-, hbase, -, -⟩ := (memOk_of_ne_a16 h16).1 hok
          rw [hb, baseOk] at hbase
          exact numberOk_iff.1 hbase hm

theorem rexByte_bits (r x b : Bool) :
    let w : Byte := 0x4#4 ++ (0#1 ++ BitVec.ofBool r ++ BitVec.ofBool x ++ BitVec.ofBool b)
    w.extractLsb' 4 4 = 4#4 ∧ w.getLsbD 2 = r ∧ w.getLsbD 1 = x ∧ w.getLsbD 0 = b := by
  revert r x b; decide

/-- The REX byte of the encoder, where there is one, puts the extension bits in force. -/
theorem decodeFrom_rexBytes {m : Mode} {e : ExtBits} (hm : m ≠ .m64 → e = ⟨false, false, false⟩) {p : Prefixes}
    (hp : NoRex p) (total : Nat) (ws : List Byte) :
    ∃ seen, decodeFrom m p total (rexBytes e ++ ws) =
      decodeFrom m { p with rexSeen := seen, r := e.r, x := e.x, b := e.b } total ws := by
  obtain ⟨hr, hx, hb⟩ := hp
  obtain ⟨er, ex, eb⟩ := e
  by_cases hne : (er || ex || eb) = true
  · have h64 : m = .m64 := by
      by_contra h
      cases hm h
      cases hne
    obtain ⟨hrex, h2, h1, h0⟩ := rexByte_bits er ex eb
    have hstep : prefixStep p (0x4#4 ++ (0#1 ++ BitVec.ofBool er ++ BitVec.ofBool ex ++ BitVec.ofBool eb)) =
        { p with rexSeen := true, r := er, x := ex, b := eb } := by
      rw [prefixStep_rex hrex, addRex, h2, h1, h0]
    refine ⟨true, ?_⟩
    rw [rexBytes, if_pos hne, List.cons_append, List.nil_append, decodeFrom_prefix (.inr ⟨h64, hrex⟩), hstep]
  · refine ⟨p.rexSeen, ?_⟩
    rw [rexBytes, if_neg hne, List.nil_append]
    simp only [Bool.or_eq_true, not_or, Bool.not_eq_true] at hne
    obtain ⟨⟨rfl, rfl⟩, rfl⟩ := hne
    cases p; cases hr; cases hx; cases hb
    rfl

theorem vex3_bytes (e : ExtBits) (vvvv : BitVec 4) (l : Bool) :
    vex3 .m64 (BitVec.ofBool (!e.r) ++ BitVec.ofBool (!e.x) ++ BitVec.ofBool (!e.b) ++ 1#5)
      (0#1 ++ ~~~vvvv ++ BitVec.ofBool l ++ 1#2) = ⟨e.r, e.x, e.b, vvvv, l, 1, 1⟩ := by
  obtain ⟨r, x, b⟩ := e
  revert r x b vvvv l; decide +kernel

theorem vex2_bytes (r : Bool) (vvvv : BitVec 4) (l : Bool) :
    vex2 (BitVec.ofBool (!r) ++ ~~~vvvv ++ BitVec.ofBool l ++ 1#2) = ⟨r, false, false, vvvv, l, 1, 1⟩ ∧
      (r = false → vvvv.getLsbD 3 = false →
        (BitVec.ofBool (!r) ++ ~~~vvvv ++ BitVec.ofBool l ++ 1#2).extractLsb' 6 2 = 3#2) := by
  revert r vvvv l; decide +kernel

/-- The encoder's VEX bytes hold the fields it was given. -/
theorem vexHead_vexBytes {m : Mode} {e : ExtBits} {vvvv : BitVec 4} (hm : m ≠ .m64 → e = ⟨false, false, false⟩)
    (hv : m ≠ .m64 → vvvv.getLsbD 3 = false) (l : Bool) :
    VexHead m (vexBytes e vvvv l) ⟨e.r, e.x, e.b, vvvv, l, 1, 1⟩ := by
  obtain ⟨er, ex, eb⟩ := e
  unfold vexBytes
  split
  · next hxb =>
    obtain rfl : m = .m64 := by
      by_contra h
      cases hm h
      cases hxb
    exact vex3_bytes ⟨er, ex, eb⟩ vvvv l ▸ .three (.inl rfl)
  · next hxb =>
    simp only [Bool.or_eq_true, not_or, Bool.not_eq_true] at hxb
    obtain ⟨rfl, rfl⟩ := hxb
    obtain ⟨hfields, hlead⟩ := vex2_bytes er vvvv l
    refine hfields ▸ .two ?_
    by_cases h : m = .m64
    · exact .inl h
    · exact .inr (hlead (ExtBits.mk.inj (hm h)).1 (hv h))

theorem elem?_opByte (e : Elem) : elem? (opByte e) = some e := by
  cases e <;> rfl

/-! ### The encoder's bytes after given prefixes -/

/-- R79 to R81: what the decoder says of the encoder's bytes of an MMX or SSE form after the prefixes `p`. -/
theorem decodeFrom_bytesOf_legacy {m : Mode} {f : Fields} {p : Prefixes} (hok : fieldsOk m f = true)
    (hk : f.kind = .mmx ∨ f.kind = .sse) (hseg : p.seg = none) (haddr : p.addrsize = false) (hrex : NoRex p)
    (total : Nat) :
    decodeFrom m p total (bytesOf m f) =
      if p.lock then .undefinedOpcode
      else if p.rep then .rejected .reservedPrefix
      else answer ⟨if p.opsize || decide (f.kind = .sse) then .sse else .mmx, f.elem, f.reg, 0, f.src, total⟩ := by
  obtain ⟨hreg, -, hsrc, -, -⟩ := fieldsOk_iff.1 hok
  obtain ⟨hop, hlock, hrep, -, hnoRex, hover⟩ := overridesRead hsrc hseg haddr (f.len - minLen m f)
  have hprefix := prefixByte_overrides m f.src (f.len - minLen m f)
  rw [bytesOf, ← List.append_assoc, decodeFrom_prefixes hprefix]
  generalize (List.replicate (f.len - minLen m f) (fillByte f.src) ++ overrideBytes m f.src).foldl prefixStep p = q at *
  have hext : m ≠ .m64 → extBits f = ⟨false, false, false⟩ := fun hm => extBits_of_not_m64 hm hreg hsrc
  obtain ⟨q', hq', hq'op, hq'lock, hq'rep, hq'rex, hq'over⟩ : ∃ q' : Prefixes,
      decodeFrom m q total (opcodeBytes f ++ operandBytes m f.reg f.src) =
        decodeFrom m q' total (rexBytes (extBits f) ++ (0x0F :: opByte f.elem :: operandBytes m f.reg f.src)) ∧
      q'.opsize = (p.opsize || decide (f.kind = .sse)) ∧ q'.lock = p.lock ∧ q'.rep = p.rep ∧ NoRex q' ∧
      Overridden m f.src q' := by
    rcases hk with hk | hk
    · refine ⟨q, ?_, by simp [hop, hk], hlock, hrep, hnoRex hrex, hover⟩
      simp only [opcodeBytes, hk, List.append_assoc, List.cons_append, List.nil_append]
    · refine ⟨addLegacy q .opsize, ?_, by simp [hk, addLegacy], hlock, hrep, noRex_addLegacy .., hover⟩
      simp only [opcodeBytes, hk, List.append_assoc, List.cons_append, List.nil_append]
      rw [decodeFrom_prefix (prefixByte_opsize m), prefixStep_opsize]
  obtain ⟨seen, hseen⟩ := decodeFrom_rexBytes hext hq'rex total (0x0F :: opByte f.elem :: operandBytes m f.reg f.src)
  have hmodrm := decodeModRm_operandBytes
    (p := { q' with rexSeen := seen, r := (extBits f).r, x := (extBits f).x, b := (extBits f).b }) hsrc hq'over []
  rw [List.append_nil] at hmodrm
  rw [hq', hseen, decodeFrom_escape]
  simp only [decodeLegacy, elem?_opByte, hmodrm]
  simp [hq'lock, hq'rep, hq'op]

/-- R100: what the decoder says of the encoder's bytes of a VEX form after the prefixes `p`. -/
theorem decodeFrom_bytesOf_vex {m : Mode} {f : Fields} {p : Prefixes} (hok : fieldsOk m f = true)
    (hk : f.kind = .vex128 ∨ f.kind = .vex256) (hseg : p.seg = none) (haddr : p.addrsize = false) (total : Nat) :
    decodeFrom m p total (bytesOf m f) =
      if vexForbidden p then .undefinedOpcode else answer { f with len := total } := by
  obtain ⟨hreg, hvvvv, hsrc, -, -⟩ := fieldsOk_iff.1 hok
  obtain ⟨hop, hlock, hrep, hseen, -, hover⟩ := overridesRead hsrc hseg haddr (f.len - minLen m f)
  have hprefix := prefixByte_overrides m f.src (f.len - minLen m f)
  rw [bytesOf, ← List.append_assoc, decodeFrom_prefixes hprefix]
  generalize (List.replicate (f.len - minLen m f) (fillByte f.src) ++ overrideBytes m f.src).foldl prefixStep p = q at *
  have hext : m ≠ .m64 → extBits f = ⟨false, false, false⟩ := fun hm => extBits_of_not_m64 hm hreg hsrc
  have hhead := vexHead_vexBytes hext (numberOk_iff.1 hvvvv)
  have hforb : vexForbidden q = vexForbidden p := by simp only [vexForbidden, hop, hlock, hrep, hseen]
  have hmodrm := decodeModRm_operandBytes hsrc hover []
  rw [List.append_nil] at hmodrm
  obtain ⟨kind, elem, reg, vvvv, src, len⟩ := f
  rcases hk with rfl | rfl
  · simp only [opcodeBytes, List.append_assoc]
    rw [decodeFrom_vex (hhead false)]
    simp [decodeVex, elem?_opByte, hmodrm, hforb]
  · simp only [opcodeBytes, List.append_assoc]
    rw [decodeFrom_vex (hhead true)]
    simp [decodeVex, elem?_opByte, hmodrm, hforb]

/-! ### The statements about encodings -/

theorem answer_fieldsOf (i : Instr) : answer (fieldsOf i) = .ok i := by
  have hnarrow (d : MmReg) : (d.setWidth 4).setWidth 3 = d := by revert d; decide
  have hsrc (src : Src MmReg) : narrowSrc (wideSrc src) = src := by
    cases src with
    | reg r => exact congrArg Src.reg (hnarrow r)
    | mem a => rfl
  cases i with
  | punpckhbwMm | punpckhwdMm | punpckhdqMm => simp [answer, fieldsOf, ofFields?, hnarrow, hsrc]
  | _ => rfl

theorem fieldsOf_vvvv {i : Instr} (h : (fieldsOf i).kind = .mmx ∨ (fieldsOf i).kind = .sse) :
    (fieldsOf i).vvvv = 0 := by
  cases i with
  | punpckhbwMm | punpckhbwXmm | punpckhwdMm | punpckhwdXmm | punpckhdqMm | punpckhdqXmm | punpckhqdqXmm => rfl
  | _ => simp [fieldsOf] at h

theorem legacyKind_eq {k : Kind} (h : k = .mmx ∨ k = .sse) : (if decide (k = .sse) then .sse else .mmx) = k := by
  rcases h with rfl | rfl <;> rfl

theorem kind_cases (k : Kind) : (k = .mmx ∨ k = .sse) ∨ (k = .vex128 ∨ k = .vex256) := by
  cases k <;> simp

theorem encode_length_of_wellFormed {m : Mode} {i : Instr} (h : wellFormed m i = true) :
    (encode m i).length = (fieldsOf i).len := Laws.EncodedLength.of_wellFormed i m h

/-- R106: the encoder's bytes without prefixes before them. -/
theorem decode_encode {m : Mode} {i : Instr} (h : wellFormed m i = true) : decode m (encode m i) = .ok i := by
  have hlen := encode_length_of_wellFormed h
  have hok := wellFormed_iff.1 h
  rw [decode_eq_decodeFrom, hlen, encode_eq_bytesOf]
  rcases kind_cases (fieldsOf i).kind with hk | hk
  · rw [decodeFrom_bytesOf_legacy hok hk rfl rfl ⟨rfl, rfl, rfl⟩]
    simp only [Bool.false_eq_true, if_false, Bool.false_or, legacyKind_eq hk, ← fieldsOf_vvvv hk]
    exact answer_fieldsOf i
  · rw [decodeFrom_bytesOf_vex hok hk rfl rfl]
    exact answer_fieldsOf i

/-- Settles O2: `decode_encode`. -/
theorem decodeOfEncode : Obligations.DecodeOfEncode := fun _ _ h => decode_encode h

/-- The encoder's bytes after one of the legacy prefixes that is no override. -/
theorem decode_legacyPrefix_encode {m : Mode} {i : Instr} {w : Byte} {k : LegacyPrefix} (hw : legacyPrefix? w = some k)
    (hk : ∀ g, k ≠ .seg g) (ha : k ≠ .addrsize) (h : wellFormed m i = true) :
    decode m (w :: encode m i) =
      if (fieldsOf i).kind = .mmx ∨ (fieldsOf i).kind = .sse then
        if k = .lock then .undefinedOpcode
        else if k = .rep then .rejected .reservedPrefix
        else answer { fieldsOf i with kind := .sse, len := (fieldsOf i).len + 1 }
      else .undefinedOpcode := by
  have hok := wellFormed_iff.1 h
  have hprefix : PrefixByte m w := .inl ((legacyPrefix_isSome w).1 (by rw [hw]; rfl))
  have hstep : prefixStep {} w = addLegacy {} k := by rw [prefixStep, hw]
  rw [decode_eq_decodeFrom, decodeFrom_prefix hprefix, hstep, List.length_cons, encode_length_of_wellFormed h,
    encode_eq_bytesOf]
  rcases kind_cases (fieldsOf i).kind with hi | hi
  · have hv := fieldsOf_vvvv hi
    rw [if_pos hi]
    cases k with
    | seg g => exact absurd rfl (hk g)
    | addrsize => exact absurd rfl ha
    | opsize | lock | rep =>
      rw [decodeFrom_bytesOf_legacy hok hi rfl rfl ⟨rfl, rfl, rfl⟩]
      simp [addLegacy, ← hv]
  · have hnot : ¬ ((fieldsOf i).kind = .mmx ∨ (fieldsOf i).kind = .sse) := by
      rcases hi with hi | hi <;> simp [hi]
    rw [if_neg hnot]
    cases k with
    | seg g => exact absurd rfl (hk g)
    | addrsize => exact absurd rfl ha
    | opsize | lock | rep =>
      rw [decodeFrom_bytesOf_vex hok hi rfl rfl]
      rfl

/-- Settles O6: LOCK is looked at before all other prefixes, in a legacy form and in a VEX form. -/
theorem lockPrefixIsInvalid : Obligations.LockPrefixIsInvalid := by
  intro m i h
  rw [decode_legacyPrefix_encode (k := .lock) rfl (by simp) (by simp) h]
  split <;> rfl

/-- Settles O7, by the kind of the form. -/
theorem repeatPrefixesRefused : Obligations.RepeatPrefixesRefused := by
  intro m i w h hw
  have hrep : legacyPrefix? w = some .rep := by rcases hw with rfl | rfl <;> rfl
  rw [decode_legacyPrefix_encode hrep (by simp) (by simp) h]
  cases hk : (fieldsOf i).kind <;> simp

/-- Settles O8: 66H and REX are prefixes `vexForbidden` counts. -/
theorem prefixesBeforeVexAreInvalid : Obligations.PrefixesBeforeVexAreInvalid := by
  intro m i w h hk hw
  rcases hw with rfl | ⟨hm, hrex⟩
  · rw [decode_legacyPrefix_encode (k := .opsize) rfl (by simp) (by simp) h, if_neg]
    rcases hk with hk | hk <;> simp [hk]
  · rw [decode_eq_decodeFrom, decodeFrom_prefix (.inr ⟨hm, hrex⟩), prefixStep_rex hrex, encode_eq_bytesOf,
      decodeFrom_bytesOf_vex (wellFormed_iff.1 h) hk rfl rfl]
    rfl

end Sys2Proof


/-! ## The bytes the decoder reads (O4) -/

namespace Sys2Proof

open Config (Mode)
open Safety (PrefixByte legacyPrefixBytes segmentBytes familyOpcodes)

/-! ### Bytes after those that decide the answer -/

theorem decodeLegacy_of_ne_escape {w : Byte} (h : w ≠ 0x0F) (m : Mode) (p : Prefixes) (total : Nat) (ws : List Byte) :
    decodeLegacy m p total (w :: ws) = .rejected .notOfFamily := by
  simp only [decodeLegacy, if_pos h]

theorem decodeLegacy_append {m : Mode} {p : Prefixes} {total : Nat} {ws : List Byte}
    (h : decodeLegacy m p total ws ≠ .short) (tail : List Byte) :
    decodeLegacy m p (total + tail.length) (ws ++ tail) = decodeLegacy m p total ws := by
  match ws with
  | [] => exact absurd rfl h
  | [esc] =>
    by_cases hesc : esc = 0x0F
    · subst hesc; exact absurd rfl h
    · rw [List.cons_append, decodeLegacy_of_ne_escape hesc, decodeLegacy_of_ne_escape hesc]
  | esc :: op :: ws =>
    by_cases hesc : esc = 0x0F
    · subst hesc
      cases he : elem? op with
      | none => simp [decodeLegacy, he]
      | some e =>
        cases hmodrm : decodeModRm m p p.r p.x p.b ws with
        | none => simp [decodeLegacy, he, hmodrm] at h
        | some found =>
          obtain ⟨reg, src, rest⟩ := found
          obtain ⟨used, rfl, hused⟩ := decodeModRm_exact hmodrm
          simp only [decodeLegacy, List.cons_append, List.append_assoc, he, hmodrm, hused, List.length_append,
            Nat.add_sub_add_right]
    · rw [List.cons_append, decodeLegacy_of_ne_escape hesc, decodeLegacy_of_ne_escape hesc]

theorem decodeVex_append {m : Mode} {p : Prefixes} {v : Vex} {total : Nat} {ws : List Byte}
    (h : decodeVex m p v total ws ≠ .short) (tail : List Byte) :
    decodeVex m p v (total + tail.length) (ws ++ tail) = decodeVex m p v total ws := by
  cases ws with
  | nil => exact absurd rfl h
  | cons op ws =>
    cases he : elem? op with
    | none => simp only [decodeVex, List.cons_append, he]
    | some e =>
      by_cases hfam : v.pp = 1 ∧ v.map = 1
      · cases hmodrm : decodeModRm m p v.r v.x v.b ws with
        | none => simp [decodeVex, he, hfam, hmodrm] at h
        | some found =>
          obtain ⟨reg, src, rest⟩ := found
          obtain ⟨used, rfl, hused⟩ := decodeModRm_exact hmodrm
          simp only [decodeVex, List.cons_append, List.append_assoc, he, if_pos hfam, hmodrm, hused, List.length_append,
            Nat.add_sub_add_right]
      · simp only [decodeVex, List.cons_append, he, if_neg hfam]

/-- An answer other than "too short" does not change when more bytes follow. -/
theorem decodeFrom_append {m : Mode} {total : Nat} (ws : List Byte) (p : Prefixes)
    (h : decodeFrom m p total ws ≠ .short) (tail : List Byte) :
    decodeFrom m p (total + tail.length) (ws ++ tail) = decodeFrom m p total ws := by
  induction ws using prefix_induction (m := m) generalizing p with
  | nil => exact absurd rfl h
  | step w ws hw ih =>
    rw [decodeFrom_prefix hw] at h
    rw [List.cons_append, decodeFrom_prefix hw, decodeFrom_prefix hw, ih _ h]
  | stop w ws hw =>
    rw [decodeFrom_stop hw] at h
    rw [List.cons_append, decodeFrom_stop hw, decodeFrom_stop hw]
    rcases decodeBody_cases m w ws with hshort | ⟨head, v, ws', hws, hhead⟩ | hlegacy
    · exact absurd (hshort ..) h
    · rw [hws, decodeBody_vex hhead] at h
      rw [← List.cons_append, hws, List.append_assoc, decodeBody_vex hhead, decodeBody_vex hhead, decodeVex_append h]
    · have hall := hlegacy []
      rw [List.append_nil] at hall
      rw [decodeBody_of_leadOf hall] at h
      rw [← List.cons_append, decodeBody_of_leadOf (hlegacy tail), decodeBody_of_leadOf hall, decodeLegacy_append h]

theorem decode_append_of_ne_short {m : Mode} {ws : List Byte} (h : decode m ws ≠ .short) (tail : List Byte) :
    decode m (ws ++ tail) = decode m ws := by
  rw [decode_eq_decodeFrom, decode_eq_decodeFrom, List.length_append]
  exact decodeFrom_append ws {} h tail

/-! ### The bytes of an encoding -/

/-- An encoding is read whole, and nothing after it. -/
theorem Reads.exact {m : Mode} {p : Prefixes} {ws rest : List Byte} {f : Fields} (h : Reads m p ws f rest) :
    ∃ used, ws = used ++ rest ∧ ∀ tail, Reads m p (used ++ tail) f tail := by
  cases h with
  | @legacy op e reg src ws rest he hmodrm hlock hrep =>
    obtain ⟨used, rfl, hused⟩ := decodeModRm_exact hmodrm
    exact ⟨0x0F :: op :: used, rfl, fun tail => .legacy he (hused tail) hlock hrep⟩
  | @vex head v op e reg src ws rest hhead hpp hmap he hmodrm hforb =>
    obtain ⟨used, rfl, hused⟩ := decodeModRm_exact hmodrm
    refine ⟨head ++ op :: used, by simp, fun tail => ?_⟩
    rw [List.append_assoc]
    exact .vex hhead hpp hmap he (hused tail) hforb

/-- The length alone distinguishes the instructions that two lengths of the same fields spell. -/
theorem ofFields_len {f : Fields} {i : Instr} (h : ofFields? f = some i) (n : Nat) :
    ∃ j, ofFields? { f with len := n } = some j ∧ fieldsOf j = { fieldsOf i with len := n } := by
  obtain ⟨kind, elem, reg, vvvv, src, len⟩ := f
  cases kind <;> cases elem <;> cases h <;> exact ⟨_, rfl, rfl⟩

theorem fieldsOf_len_kind {f : Fields} {i : Instr} (h : ofFields? f = some i) :
    (fieldsOf i).len = f.len ∧ (fieldsOf i).kind = f.kind := by
  obtain ⟨kind, elem, reg, vvvv, src, len⟩ := f
  cases kind <;> cases elem <;> cases h <;> exact ⟨rfl, rfl⟩

/-- R106 step 6: the bytes of an accepted instruction, alone or before any others. -/
theorem decode_ok_take {m : Mode} {ws : List Byte} {i : Instr} (h : decode m ws = .ok i) :
    (fieldsOf i).len ≤ ws.length ∧ ∀ tail, decode m (ws.take (fieldsOf i).len ++ tail) = .ok i := by
  obtain ⟨ps, body, f, rest, rfl, hps, hread, hi⟩ := reads_of_decodeFrom ws {} h
  obtain ⟨used, rfl, hused⟩ := hread.exact
  have hlen : (fieldsOf i).len = (ps ++ used).length := by
    rw [(fieldsOf_len_kind hi).1]
    simp only [List.length_append]; omega
  refine ⟨by rw [hlen]; simp only [List.length_append]; omega, fun tail => ?_⟩
  rw [hlen, ← List.append_assoc, List.take_left, List.append_assoc, decode_append hps, decodeFrom_of_reads (hused tail),
    answer_eq_ok, ← hi]
  congr 2
  simp only [List.length_append]; omega

/-- Settles O4: a beginning shorter than the instruction that were answered would be answered alike before the other
bytes (`decode_append_of_ne_short`), as an instruction longer than it. -/
theorem decodeReadsExactlyItsBytes : Obligations.DecodeReadsExactlyItsBytes := by
  intro m ws i h
  obtain ⟨hlen, htake⟩ := decode_ok_take h
  refine ⟨hlen, htake, fun n hn => ?_⟩
  by_contra hshort
  have hok : decode m (ws.take n) = .ok i := by
    rw [← decode_append_of_ne_short hshort (ws.drop n), List.take_append_drop, h]
  have hle := (decode_ok_take hok).1
  rw [List.length_take] at hle
  omega

/-! ## VEX prefixes (O9, O10) and opcodes outside the family (O11) -/

/-- R99: C4H and C5H are LES and LDS where no VEX bytes begin. -/
theorem decodeFrom_lesLds {m : Mode} {v : Byte} (hv : ¬ VexLead m v) {w : Byte} (hw : w = 0xC4 ∨ w = 0xC5)
    (p : Prefixes) (total : Nat) (ws : List Byte) :
    decodeFrom m p total (w :: v :: ws) = .rejected .notOfFamily := by
  have hstop : ¬ PrefixByte m w := by
    rcases hw with rfl | rfl
    · exact not_prefixByte_vex3 m
    · exact not_prefixByte_vex2 m
  rw [decodeFrom_stop hstop, decodeBody_of_leadOf (leadOf_of_not_vexLead hv w ws)]
  exact decodeLegacy_of_ne_escape (by rcases hw with rfl | rfl <;> decide) ..

theorem vex3_invertW (m : Mode) (v w : Byte) : vex3 m v (w ^^^ 0x80) = vex3 m v w := by
  have hbits : ∀ w : Byte, (w ^^^ 0x80).extractLsb' 3 4 = w.extractLsb' 3 4 ∧
      (w ^^^ 0x80).getLsbD 2 = w.getLsbD 2 ∧ (w ^^^ 0x80).extractLsb' 0 2 = w.extractLsb' 0 2 := by decide +kernel
  obtain ⟨hvvvv, hl, hpp⟩ := hbits w
  simp only [vex3, hvvvv, hl, hpp]

/-- Settles O9: the fields of VEX bytes do not hold W. -/
theorem vexWIsIgnored : Obligations.VexWIsIgnored := by
  intro m ps v w ws hps
  rw [decode_append hps, decode_append hps]
  simp only [List.length_cons]
  by_cases hv : VexLead m v
  · have hread (w : Byte) (p : Prefixes) (total : Nat) :
        decodeFrom m p total (0xC4 :: v :: w :: ws) = decodeVex m p (vex3 m v w) total ws :=
      decodeFrom_vex (.three hv) p total ws
    rw [hread, hread, vex3_invertW]
  · rw [decodeFrom_lesLds hv (.inl rfl), decodeFrom_lesLds hv (.inl rfl)]

/-- R95, R96: the three VEX bytes with the fields of two. -/
theorem vexHead_widen {m : Mode} {w : Byte} (h : VexLead m w) :
    VexHead m [0xC4, (w &&& 0x80) ||| 0x61, w &&& 0x7F] (vex2 w) := by
  have h64 : ∀ w : Byte, vex3 .m64 ((w &&& 0x80) ||| 0x61) (w &&& 0x7F) = vex2 w := by decide +kernel
  have hbits : ∀ w : Byte, w.extractLsb' 6 2 = 3#2 → ((w &&& 0x80) ||| 0x61).extractLsb' 6 2 = 3#2 ∧
      vex3 .m32 ((w &&& 0x80) ||| 0x61) (w &&& 0x7F) = vex2 w ∧
      vex3 .real ((w &&& 0x80) ||| 0x61) (w &&& 0x7F) = vex2 w := by decide +kernel
  cases m with
  | m64 => exact h64 w ▸ .three (.inl rfl)
  | m32 =>
    obtain ⟨hlead, hfields, -⟩ := hbits w (h.resolve_left (by decide))
    exact hfields ▸ .three (.inr hlead)
  | real =>
    obtain ⟨hlead, -, hfields⟩ := hbits w (h.resolve_left (by decide))
    exact hfields ▸ .three (.inr hlead)

/-- Settles O10: `vexHead_widen`, one byte longer. -/
theorem bothVexPrefixesSpellTheSameInstruction : Obligations.BothVexPrefixesSpellTheSameInstruction := by
  intro m ps w ws i hps h
  rw [decode_append hps] at h
  by_cases hw : VexLead m w
  · change decodeFrom m _ _ ([0xC5, w] ++ ws) = _ at h
    rw [decodeFrom_vex (.two hw)] at h
    obtain ⟨f, rest, hread, hi⟩ := reads_of_decodeVex (.two hw) h
    obtain ⟨used, hws, -⟩ := hread.exact
    obtain ⟨j, hj, hfields⟩ := ofFields_len hi ((fieldsOf i).len + 1)
    refine ⟨j, ?_, hfields⟩
    rw [decode_append hps]
    change decodeFrom m _ _ ([0xC4, (w &&& 0x80) ||| 0x61, w &&& 0x7F] ++ ws) = _
    rw [decodeFrom_vex (vexHead_widen hw), ← decodeFrom_vex (.two hw), decodeFrom_of_reads hread, answer_eq_ok, ← hj,
      (fieldsOf_len_kind hi).1]
    have hle := congrArg List.length hws
    simp only [List.length_append, List.length_cons, List.length_nil] at hle ⊢
    congr 2
    omega
  · rw [decodeFrom_lesLds hw (.inr rfl)] at h
    cases h

/-! ### Opcodes outside the family -/

theorem elem?_eq_none {op : Byte} (h : op ∉ familyOpcodes) : elem? op = none := by
  revert op; decide +kernel

/-- R100: a byte before VEX bytes that does not forbid them. -/
def AllowedBeforeVex (b : Byte) : Prop := b = 0x67 ∨ b ∈ segmentBytes

theorem vexForbidden_prefixStep {m : Mode} {w : Byte} (h : PrefixByte m w) (p : Prefixes) :
    vexForbidden (prefixStep p w) = false ↔ vexForbidden p = false ∧ AllowedBeforeVex w := by
  rcases h with h | ⟨-, hrex⟩
  · have hcases : ∀ w : Byte, w ∈ legacyPrefixBytes → ∃ k, legacyPrefix? w = some k ∧
        ((w = 0x67 ∨ w ∈ segmentBytes) ↔ k ≠ .opsize ∧ k ≠ .lock ∧ k ≠ .rep) := by
      intro w hw
      simp only [legacyPrefixBytes, segmentBytes, List.mem_append, List.mem_cons, List.not_mem_nil, or_false] at hw
      rcases hw with (rfl | rfl | rfl | rfl | rfl) | (rfl | rfl | rfl | rfl | rfl | rfl) <;>
        exact ⟨_, rfl, by decide⟩
    obtain ⟨k, hk, hallowed⟩ := hcases w h
    unfold AllowedBeforeVex
    rw [prefixStep, hk, hallowed]
    cases k <;> simp [addLegacy, vexForbidden, and_assoc]
  · have hnot : ∀ w : Byte, w.extractLsb' 4 4 = 4#4 → ¬ (w = 0x67 ∨ w ∈ segmentBytes) := by decide +kernel
    have hw : ¬ AllowedBeforeVex w := hnot w hrex
    rw [prefixStep_rex hrex]
    simp [addRex, vexForbidden, hw]

theorem vexForbidden_foldl {m : Mode} {ps : List Byte} (h : ∀ w, w ∈ ps → PrefixByte m w) (p : Prefixes) :
    vexForbidden (ps.foldl prefixStep p) = false ↔ vexForbidden p = false ∧ ∀ b, b ∈ ps → AllowedBeforeVex b := by
  induction ps generalizing p with
  | nil => simp
  | cons w ps ih =>
    rw [List.foldl_cons, ih (fun b hb => h b (List.mem_cons_of_mem _ hb)),
      vexForbidden_prefixStep (h w List.mem_cons_self), List.forall_mem_cons, and_assoc]

/-- R97, R100: a VEX encoding outside the family. -/
theorem decodeVex_other {v : Vex} {op : Byte} (h : v.map ≠ 1 ∨ v.pp ≠ 1 ∨ op ∉ familyOpcodes) (m : Mode)
    (p : Prefixes) (total : Nat) (ws : List Byte) :
    decodeVex m p v total (op :: ws) = if vexForbidden p then .undefinedOpcode else .rejected .notOfFamily := by
  unfold decodeVex
  by_cases hop : op ∈ familyOpcodes
  · have hfam : ¬ (v.pp = 1 ∧ v.map = 1) := by
      rintro ⟨hpp, hmap⟩
      rcases h with h | h | h
      · exact h hmap
      · exact h hpp
      · exact h hop
    simp only [if_neg hfam]
    cases elem? op <;> rfl
  · simp only [elem?_eq_none hop]

/-- Settles O11, clause by clause; what a VEX encoding outside the family is answered with, by `vexForbidden_foldl`. -/
theorem otherOpcodesRefused : Obligations.OtherOpcodesRefused := by
  intro m ps ws op hps
  have hvex {head : List Byte} {v : Vex} (hhead : VexHead m head v)
      (h : v.map ≠ 1 ∨ v.pp ≠ 1 ∨ op ∉ familyOpcodes) :
      ((∀ b, b ∈ ps → AllowedBeforeVex b) → decode m (ps ++ (head ++ op :: ws)) = .rejected .notOfFamily) ∧
      (¬ (∀ b, b ∈ ps → AllowedBeforeVex b) → decode m (ps ++ (head ++ op :: ws)) = .undefinedOpcode) := by
    have hforb := vexForbidden_foldl hps {}
    rw [decode_append hps, decodeFrom_vex hhead, decodeVex_other h]
    constructor
    · intro hall
      rw [hforb.2 ⟨rfl, hall⟩]; rfl
    · intro hnot
      have htrue : vexForbidden (ps.foldl prefixStep {}) = true := by
        by_contra hf
        exact hnot (hforb.1 (by simpa using hf)).2
      rw [htrue]; rfl
  refine ⟨fun hop => ?_, fun hop h0F h4 h5 => ?_, fun v hm hv => ?_, fun w hw h => ?_, fun v w hv h => ?_⟩
  · rw [decode_append hps, decodeFrom_escape]
    simp [decodeLegacy, elem?_eq_none hop]
  · rw [decode_append hps, decodeFrom_stop hop, decodeBody_of_leadOf (leadOf_of_not_vex h4 h5 ws)]
    exact decodeLegacy_of_ne_escape h0F ..
  · have hlead : ¬ VexLead m v := not_or.2 ⟨hm, hv⟩
    rw [decode_append hps, decode_append hps]
    exact ⟨decodeFrom_lesLds hlead (.inl rfl) .., decodeFrom_lesLds hlead (.inr rfl) ..⟩
  · exact hvex (.two hw) (.inr h)
  · exact hvex (.three hv) h

end Sys2Proof


/-! ## Order and repetition of the prefixes (O5) -/

namespace Sys2Proof

open Config (Mode)
open Safety (PrefixByte legacyPrefixBytes segmentBytes familyOpcodes)

/-! ### Legacy prefixes after each other -/

/-- A segment override. -/
def LegacyPrefix.isSeg : LegacyPrefix → Bool
  | .seg _ => true
  | _ => false

/-- The later of two legacy prefixes leaves nothing of the earlier: it is the same, or both are segment overrides. -/
def Absorbs (later earlier : LegacyPrefix) : Prop := later = earlier ∨ (later.isSeg = true ∧ earlier.isSeg = true)

/-- R78: the last of two segment overrides, and one of the prefixes that stands twice. -/
theorem addLegacy_absorb {k j : LegacyPrefix} (h : Absorbs k j) (p : Prefixes) :
    addLegacy (addLegacy p j) k = addLegacy p k := by
  rcases h with rfl | ⟨hk, hj⟩
  · cases k <;> rfl
  · cases k <;> cases hk
    cases j <;> cases hj
    rfl

/-- R78: prefixes of different kinds in either order. -/
theorem addLegacy_comm {k j : LegacyPrefix} (h : ¬ (k.isSeg = true ∧ j.isSeg = true)) (p : Prefixes) :
    addLegacy (addLegacy p j) k = addLegacy (addLegacy p k) j := by
  cases k with
  | seg g =>
    cases j with
    | seg g' => exact absurd ⟨rfl, rfl⟩ h
    | _ => rfl
  | _ => cases j <;> rfl

theorem legacyPrefix_of_mem {a : Byte} (h : a ∈ legacyPrefixBytes) : ∃ k, legacyPrefix? a = some k :=
  Option.isSome_iff_exists.1 ((legacyPrefix_isSome a).2 h)

theorem isSeg_iff {a : Byte} {k : LegacyPrefix} (h : legacyPrefix? a = some k) :
    k.isSeg = true ↔ a ∈ segmentBytes := by
  have hall : ∀ a : Byte, (legacyPrefix? a).any LegacyPrefix.isSeg = decide (a ∈ segmentBytes) := by decide +kernel
  simpa [h] using congrArg (· = true) (hall a)

theorem prefixStep_legacy {a : Byte} {k : LegacyPrefix} (h : legacyPrefix? a = some k) (p : Prefixes) :
    prefixStep p a = addLegacy p k := by
  rw [prefixStep, h]

/-! ### A REX byte that is not the last -/

/-- The prefixes with no REX byte in force. -/
def clearRex (p : Prefixes) : Prefixes := { p with r := false, x := false, b := false }

/-- R83: what a further byte does, does not depend on the REX byte in force before it. -/
theorem prefixStep_congr {p q : Prefixes} (h : clearRex p = clearRex q) (w : Byte) :
    prefixStep p w = prefixStep q w := by
  have hclear (p : Prefixes) : prefixStep p w = prefixStep (clearRex p) w := by
    unfold prefixStep
    split
    · next k _ => cases k <;> rfl
    · rfl
  rw [hclear p, h, ← hclear q]

theorem foldl_prefixStep_congr {p q : Prefixes} (h : clearRex p = clearRex q) {ps : List Byte} (hne : ps ≠ []) :
    ps.foldl prefixStep p = ps.foldl prefixStep q := by
  cases ps with
  | nil => exact absurd rfl hne
  | cons w ps => rw [List.foldl_cons, List.foldl_cons, prefixStep_congr h]

/-- R78: one of the legacy prefixes before bytes of which one absorbs it. -/
theorem foldl_prefixStep_absorb {m : Mode} {a b : Byte} {j k : LegacyPrefix} (ha : legacyPrefix? a = some j)
    (hb : legacyPrefix? b = some k) (hjk : Absorbs k j) (qs : List Byte) (hqs : ∀ w, w ∈ qs → PrefixByte m w)
    (hmem : b ∈ qs) (p : Prefixes) : qs.foldl prefixStep (prefixStep p a) = qs.foldl prefixStep p := by
  induction qs generalizing p with
  | nil => cases hmem
  | cons c qs ih =>
    have hrest : ∀ w, w ∈ qs → PrefixByte m w := fun w hw => hqs w (List.mem_cons_of_mem _ hw)
    rw [List.foldl_cons, List.foldl_cons, prefixStep_legacy ha]
    rcases hqs c List.mem_cons_self with hc | ⟨-, hc⟩
    · obtain ⟨l, hl⟩ := legacyPrefix_of_mem hc
      rw [prefixStep_legacy hl, prefixStep_legacy hl]
      by_cases habs : Absorbs l j
      · rw [addLegacy_absorb habs]
      · have hbc : b ≠ c := by
          rintro rfl
          rw [hb] at hl
          cases hl
          exact habs hjk
        rw [addLegacy_comm fun h => habs (.inr h), ← prefixStep_legacy ha]
        exact ih hrest ((List.mem_cons.1 hmem).resolve_left hbc) _
    · have hbc : b ≠ c := by
        rintro rfl
        rw [legacyPrefix_of_rex b hc] at hb
        cases hb
      have hmem' := (List.mem_cons.1 hmem).resolve_left hbc
      have hclear : clearRex (addRex (addLegacy p j) c) = clearRex (addLegacy (addRex p c) j) := by cases j <;> rfl
      rw [prefixStep_rex hc, prefixStep_rex hc, foldl_prefixStep_congr hclear (List.ne_nil_of_mem hmem'),
        ← prefixStep_legacy ha]
      exact ih hrest hmem' _

theorem foldl_prefixStep_rexSeen (ps : List Byte) (p : Prefixes) :
    ps.foldl prefixStep { p with rexSeen := true } = { ps.foldl prefixStep p with rexSeen := true } := by
  induction ps generalizing p with
  | nil => rfl
  | cons w ps ih =>
    have hstep : prefixStep { p with rexSeen := true } w = { prefixStep p w with rexSeen := true } := by
      unfold prefixStep
      split
      · next k _ => cases k <;> rfl
      · rfl
    rw [List.foldl_cons, List.foldl_cons, hstep, ih]

/-! ### One byte more before an encoding -/

/-- Where the prefixes `p'` read the same encodings of the kind at hand as `p`, one byte more makes the instruction one
byte longer. -/
theorem decodeFrom_one_more {m : Mode} {p p' : Prefixes} {total : Nat} {ws : List Byte} {i : Instr}
    (h : decodeFrom m p total ws = .ok i) (hlen : ws.length ≤ total)
    (hp : ∀ (ps body : List Byte) (f : Fields) (rest : List Byte), f.kind = (fieldsOf i).kind →
      Reads m (ps.foldl prefixStep p) body f rest → Reads m (ps.foldl prefixStep p') body f rest) :
    ∃ j, decodeFrom m p' (total + 1) ws = .ok j ∧ fieldsOf j = { fieldsOf i with len := (fieldsOf i).len + 1 } := by
  obtain ⟨ps, body, f, rest, rfl, hps, hread, hi⟩ := reads_of_decodeFrom ws p h
  obtain ⟨hilen, hikind⟩ := fieldsOf_len_kind hi
  obtain ⟨j, hj, hfields⟩ := ofFields_len hi ((fieldsOf i).len + 1)
  refine ⟨j, ?_, hfields⟩
  rw [decodeFrom_prefixes hps, decodeFrom_of_reads (hp ps body f rest hikind.symm hread), answer_eq_ok, ← hj, hilen]
  obtain ⟨used, rfl, -⟩ := hread.exact
  simp only [List.length_append] at hlen ⊢
  congr 2
  omega

/-- R83: before a legacy form a REX byte that is not the last changes nothing. -/
theorem Reads.rexSeen {m : Mode} {p : Prefixes} {body rest : List Byte} {f : Fields} (h : Reads m p body f rest)
    (hk : f.kind = .mmx ∨ f.kind = .sse) : Reads m { p with rexSeen := true } body f rest := by
  cases h with
  | @legacy op e reg src ws rest he hmodrm hlock hrep =>
    exact .legacy (p := { p with rexSeen := true }) he ((decodeModRm_congr rfl rfl ..).trans hmodrm) hlock hrep
  | @vex _ v => cases hl : v.l <;> simp [hl] at hk

/-- R100: a VEX form after a REX byte. -/
theorem Reads.rexSeen_vex {m : Mode} {p : Prefixes} {body rest : List Byte} {f : Fields} (h : Reads m p body f rest)
    (hk : f.kind = .vex128 ∨ f.kind = .vex256) (total : Nat) :
    decodeFrom m { p with rexSeen := true } total body = .undefinedOpcode := by
  cases h with
  | legacy => cases hop : p.opsize <;> simp [hop] at hk
  | @vex head v op e reg src ws rest hhead hpp hmap he hmodrm hforb =>
    have hmodrm' : decodeModRm m { p with rexSeen := true } v.r v.x v.b ws = some (reg, src, rest) :=
      (decodeModRm_congr rfl rfl ..).trans hmodrm
    rw [decodeFrom_vex hhead]
    simp [decodeVex, he, hpp, hmap, hmodrm', vexForbidden]

/-! ### 0F 6D without 66H -/

/-- R85: PUNPCKHQDQ has no MMX form: 0F 6D is read like 0F 68, and answered as undefined. -/
theorem decodeLegacy_qdq {m : Mode} {p : Prefixes} (hop : p.opsize = false) (hrep : p.rep = false) (total : Nat)
    (ws : List Byte) :
    decodeLegacy m p total (0x0F :: 0x6D :: ws) =
      if decodeLegacy m p total (0x0F :: 0x68 :: ws) = .short then .short else .undefinedOpcode := by
  have h6D : elem? 0x6D = some .qdq := rfl
  have h68 : elem? 0x68 = some .bw := rfl
  simp only [decodeLegacy, h6D, h68, hop, hrep]
  cases decodeModRm m p p.r p.x p.b ws with
  | none => simp
  | some found => cases hl : p.lock <;> simp [answer, ofFields?]

theorem foldl_prefixStep_plain {m : Mode} {ps : List Byte}
    (h : ∀ w, w ∈ ps → w ∈ [0x67, 0x26, 0x2E, 0x36, 0x3E, 0x64, 0x65, (0xF0 : Byte)] ∨
      (m = .m64 ∧ w.extractLsb' 4 4 = 4#4)) {p : Prefixes} (hp : p.opsize = false ∧ p.rep = false) :
    (∀ w, w ∈ ps → PrefixByte m w) ∧ (ps.foldl prefixStep p).opsize = false ∧
      (ps.foldl prefixStep p).rep = false := by
  induction ps generalizing p with
  | nil => exact ⟨by simp, hp⟩
  | cons w ps ih =>
    have hw : PrefixByte m w ∧ (prefixStep p w).opsize = false ∧ (prefixStep p w).rep = false := by
      rcases h w List.mem_cons_self with hw | hrex
      · simp only [List.mem_cons, List.not_mem_nil, or_false] at hw
        rcases hw with rfl | rfl | rfl | rfl | rfl | rfl | rfl | rfl <;> exact ⟨.inl (by decide), hp⟩
      · exact ⟨.inr hrex, by rw [prefixStep_rex hrex.2]; exact hp⟩
    obtain ⟨hrest, hfold⟩ := ih (fun v hv => h v (List.mem_cons_of_mem _ hv)) hw.2
    exact ⟨List.forall_mem_cons.2 ⟨hw.1, hrest⟩, hfold⟩

/-! ### The statement -/

/-- R79: 66H before the encoding of an MMX form. -/
theorem decode_opsize_encode {m : Mode} {i : Instr} (h : wellFormed m i = true) (hk : (fieldsOf i).kind = .mmx) :
    decode m (0x66 :: encode m i) = answer { fieldsOf i with kind := .sse, len := (fieldsOf i).len + 1 } := by
  rw [decode_legacyPrefix_encode (k := .opsize) rfl (by simp) (by simp) h, if_pos (.inl hk)]
  rfl

/-- R83, R100: a REX byte before one of the legacy prefixes. -/
theorem decode_misplacedRex {ps ws : List Byte} {r k : Byte} {i : Instr} (hps : ∀ w, w ∈ ps → PrefixByte .m64 w)
    (hr : r.extractLsb' 4 4 = 4#4) (hk : k ∈ legacyPrefixBytes) (h : decode .m64 (ps ++ k :: ws) = .ok i) :
    (((fieldsOf i).kind = .mmx ∨ (fieldsOf i).kind = .sse) →
      ∃ j : Instr, decode .m64 (ps ++ r :: k :: ws) = .ok j ∧
        fieldsOf j = { fieldsOf i with len := (fieldsOf i).len + 1 }) ∧
    (((fieldsOf i).kind = .vex128 ∨ (fieldsOf i).kind = .vex256) →
      decode .m64 (ps ++ r :: k :: ws) = .undefinedOpcode) := by
  obtain ⟨l, hl⟩ := legacyPrefix_of_mem hk
  have hstep (p : Prefixes) : prefixStep (prefixStep p r) k = { prefixStep p k with rexSeen := true } := by
    rw [prefixStep_rex hr, prefixStep_legacy hl, prefixStep_legacy hl]
    cases l <;> rfl
  rw [decode_append hps, decodeFrom_prefix (.inl hk), List.length_cons] at h
  rw [decode_append hps, decodeFrom_prefix (.inr ⟨rfl, hr⟩), decodeFrom_prefix (.inl hk), hstep]
  simp only [List.length_cons]
  refine ⟨fun hkind => ?_, fun hkind => ?_⟩
  · refine decodeFrom_one_more h (show ws.length ≤ ps.length + (ws.length + 1) by omega)
      fun ps' body f rest hf hread => ?_
    rw [foldl_prefixStep_rexSeen]
    exact hread.rexSeen (hf ▸ hkind)
  · obtain ⟨ps', body, f, rest, rfl, hps', hread, hi⟩ := reads_of_decodeFrom ws _ h
    rw [decodeFrom_prefixes hps', foldl_prefixStep_rexSeen]
    exact hread.rexSeen_vex ((fieldsOf_len_kind hi).2 ▸ hkind) _

/-- Settles O5, clause by clause. -/
theorem legacyPrefixesAndRexPlacement : Obligations.LegacyPrefixesAndRexPlacement := by
  refine ⟨fun m d src len => ⟨fun h => ?_, fun h => ?_, fun h => ?_⟩, fun m ps ws h => ?_,
    fun m d src len h => decode_encode h, fun ps ws r k i hps hr hk h => decode_misplacedRex hps hr hk h,
    fun m ps qs ws a b i hps hqs ha hb hab h => ?_, fun m ps ws a b hps ha hb hseg => ?_⟩
  · exact decode_opsize_encode h rfl
  · exact decode_opsize_encode h rfl
  · exact decode_opsize_encode h rfl
  · obtain ⟨hps, hop, hrep⟩ := foldl_prefixStep_plain h (p := {}) ⟨rfl, rfl⟩
    rw [decode_append hps, decode_append hps, decodeFrom_escape, decodeFrom_escape]
    exact decodeLegacy_qdq hop hrep ..
  · obtain ⟨j, hj⟩ := legacyPrefix_of_mem ha
    have hbl : b ∈ legacyPrefixBytes := by
      rcases hab with rfl | ⟨-, hb⟩
      · exact ha
      · exact List.mem_append_right _ hb
    obtain ⟨k, hk⟩ := legacyPrefix_of_mem hbl
    have habs : Absorbs k j := by
      rcases hab with rfl | ⟨ha, hb⟩
      · exact .inl (Option.some.inj (hk.symm.trans hj))
      · exact .inr ⟨(isSeg_iff hk).2 hb, (isSeg_iff hj).2 ha⟩
    rw [decode_append hps, decodeFrom_prefixes hqs] at h
    rw [decode_append hps, decodeFrom_prefix (.inl ha), decodeFrom_prefixes hqs,
      foldl_prefixStep_absorb hj hk habs qs hqs hb]
    have hle : ws.length ≤ ps.length + (qs ++ ws).length := by simp only [List.length_append]; omega
    exact decodeFrom_one_more h hle fun _ _ _ _ _ hread => hread
  · obtain ⟨j, hj⟩ := legacyPrefix_of_mem ha
    obtain ⟨k, hk⟩ := legacyPrefix_of_mem hb
    have hcomm (p : Prefixes) : prefixStep (prefixStep p a) b = prefixStep (prefixStep p b) a := by
      simp only [prefixStep_legacy hj, prefixStep_legacy hk]
      exact addLegacy_comm (fun h => hseg ⟨(isSeg_iff hj).1 h.2, (isSeg_iff hk).1 h.1⟩) p
    rw [decode_append hps, decode_append hps, decodeFrom_prefix (.inl ha), decodeFrom_prefix (.inl hb),
      decodeFrom_prefix (.inl hb), decodeFrom_prefix (.inl ha), hcomm]
    rfl

/-! ### The spec's byte strings -/

/-- Settles O1: the decoder on the eight byte strings. -/
theorem decodesTheSpecsWords : Obligations.DecodesTheSpecsWords := by
  unfold Obligations.DecodesTheSpecsWords
  decide

end Sys2Proof


/-! ## The forms: completion, gates, frames (O25 to O28, O32 to O34, O40 to O45) -/

namespace Sys2Proof.Machine

open Config Safety

/-! ### The next instruction -/

theorem addrAdd_eq_nextPc (s : State) (len : Nat) : addrAdd s s.pc len = nextPc s len := by
  unfold nextPc
  split
  · next h => exact addrAdd_m64 h s.pc len
  · next h =>
    apply BitVec.eq_of_toNat_eq
    rw [addrAdd_low h, toNat_low32]
    simp only [BitVec.toNat_add, BitVec.toNat_ofNat]
    omega

/-! ### The gates, in the bits R33 names -/

theorem xcr0Avx_iff (s : State) : xcr0Avx s = true ↔ s.xcr0.extractLsb' 1 2 = 3#2 := by
  have hbits : ∀ a b : Bool, (a && b) = true ↔ BitVec.ofBool b ++ BitVec.ofBool a = 3#2 := by decide
  have hsplit : s.xcr0.extractLsb' 1 2 = BitVec.ofBool (s.xcr0.getLsbD 2) ++ BitVec.ofBool (s.xcr0.getLsbD 1) := by
    apply BitVec.eq_of_getLsbD_eq
    intro i hi
    rw [BitVec.getLsbD_extractLsb', BitVec.getLsbD_append]
    obtain rfl | rfl : i = 0 ∨ i = 1 := by omega
    · simp
    · simp
  rw [hsplit, ← hbits]
  rfl

theorem gateMmx_of_enabled {s : State} (h : MmxEnabled s) : gateMmx s = .next () := by
  obtain ⟨hmmx, hem, hts, hes⟩ := h
  simp only [gateMmx, gateNm, gateMf, udMmx, cr0EM, cr0TS, x87Pending, hmmx, hem, hts, hes]
  rfl

theorem gateSse_of_enabled {s : State} (h : SseEnabled s) : gateSse s = .next () := by
  obtain ⟨hsse, hem, hts, hosfxsr⟩ := h
  simp only [gateSse, gateNm, udSse, cr0EM, cr0TS, cr4OSFXSR, hsse, hem, hts, hosfxsr]
  rfl

theorem gateVex_of_enabled {s : State} {has : Bool} (hhas : has = true) (h : VexEnabled s) :
    gateNm (udVex has s) s = .next () := by
  obtain ⟨hosxsave, hxcr0, hmode, hts⟩ := h
  simp only [gateNm, udVex, cr0TS, cr4OSXSAVE, hhas, hosxsave, (xcr0Avx_iff s).2 hxcr0, hmode, hts]
  rfl

theorem gateVex128_of_enabled {s : State} (hhas : s.par.hasAVX = true) (h : VexEnabled s) :
    gateVex128 s = .next () := gateVex_of_enabled hhas h

theorem gateVex256_of_enabled {s : State} (hhas : s.par.hasAVX2 = true) (h : VexEnabled s) :
    gateVex256 s = .next () := gateVex_of_enabled hhas h

/-! ### A form past its gate: it ends as its operand does -/

theorem stepMmx_of_gate {s : State} (h : gateMmx s = .next ()) (w : Nat) (d : MmReg) (src : Src MmReg) (len : Nat) :
    stepMmx w d src len s =
      andThen (srcMm s len src) fun b => .next (finishMmx s d (high64 w (readMm s d) b) len) := by
  rw [stepMmx, h, andThen_next]

theorem stepSse_of_gate {s : State} (h : gateSse s = .next ()) (w : Nat) (d : XmmReg) (src : Src XmmReg) (len : Nat) :
    stepSse w d src len s =
      andThen (srcSse s len src) fun b => .next (advance (writeXmmKeep s d (high128 w (readXmm s d) b)) len) := by
  rw [stepSse, h, andThen_next]

theorem stepVex128_of_gate {s : State} (h : gateVex128 s = .next ()) (w : Nat) (d a : XmmReg) (src : Src XmmReg)
    (len : Nat) :
    stepVex128 w d a src len s =
      andThen (srcVex128 s len src) fun b => .next (advance (writeXmmZero s d (high128 w (readXmm s a) b)) len) := by
  rw [stepVex128, h, andThen_next]

theorem stepVex256_of_gate {s : State} (h : gateVex256 s = .next ()) (w : Nat) (d a : XmmReg) (src : Src XmmReg)
    (len : Nat) :
    stepVex256 w d a src len s =
      andThen (srcVex256 s len src) fun b => .next (advance (writeYmm s d (high256 w (readYmm s a) b)) len) := by
  rw [stepVex256, h, andThen_next]

/-! ### Completion -/

/-- R131 steps 6 to 8: everything an MMX form that completes leaves. -/
theorem finishMmx_eq (s : State) (d : MmReg) (v : Quad) (len : Nat) :
    finishMmx s d v len =
      { s with
        mm := s.mm.set d.toNat v
        pc := nextPc s len
        x87Status := if s.par.modelX87 then s.x87Status &&& 0xC7FF#16 else s.x87Status
        x87Tag := if s.par.modelX87 then 0#16 else s.x87Tag
        x87Upper := if s.par.modelX87 then s.x87Upper.set d.toNat 0xFFFF#16 else s.x87Upper } := by
  rw [← addrAdd_eq_nextPc]
  unfold finishMmx x87Effects
  rw [writeMm_par]
  cases s.par.modelX87 <;> rfl

theorem advance_writeYmm_eq (s : State) (d : XmmReg) (v : Yword) (len : Nat) :
    advance (writeYmm s d v) len = { s with ymm := s.ymm.set d.toNat v, pc := nextPc s len } := by
  rw [← addrAdd_eq_nextPc]
  rfl

/-- Settles O25. -/
theorem mmxFormsComplete : Obligations.MmxFormsComplete := by
  intro s d src len b hen hb
  have form (w : Nat) : stepMmx w d src len s = .next (finishMmx s d (high64 w s.mm[d.toNat] b) len) :=
    stepMmx_next.2 ⟨gateMmx_of_enabled hen, b, hb, rfl⟩
  simp only [finishMmx_eq] at form
  exact ⟨form 8, form 16, form 32⟩

/-- Settles O26. -/
theorem sseFormsComplete : Obligations.SseFormsComplete := by
  intro s d src len b hen hb
  have form (w : Nat) : stepSse w d src len s = .next (advance (writeXmmKeep s d (high128 w (readXmm s d) b)) len) :=
    stepSse_next.2 ⟨gateSse_of_enabled hen, b, hb, rfl⟩
  simp only [writeXmmKeep, advance_writeYmm_eq] at form
  exact ⟨form 8, form 16, form 32, form 64⟩

/-- Settles O27. -/
theorem vex128FormsComplete : Obligations.Vex128FormsComplete := by
  intro s d a src len b havx hen hb
  have form (w : Nat) :
      stepVex128 w d a src len s = .next (advance (writeXmmZero s d (high128 w (readXmm s a) b)) len) :=
    stepVex128_next.2 ⟨gateVex128_of_enabled havx hen, b, hb, rfl⟩
  simp only [writeXmmZero, advance_writeYmm_eq] at form
  exact ⟨form 8, form 16, form 32, form 64⟩

/-- Settles O28. -/
theorem vex256FormsComplete : Obligations.Vex256FormsComplete := by
  intro s d a src len b havx2 hen hb
  have form (w : Nat) : stepVex256 w d a src len s = .next (advance (writeYmm s d (high256 w (readYmm s a) b)) len) :=
    stepVex256_next.2 ⟨gateVex256_of_enabled havx2 hen, b, hb, rfl⟩
  simp only [advance_writeYmm_eq] at form
  exact ⟨form 8, form 16, form 32, form 64⟩

/-! ### The gates' faults -/

/-- Settles O32: the gate of the MMX forms decides before their operands. -/
theorem mmxGateFaults : Obligations.MmxGateFaults := by
  intro s d src len
  dsimp only
  have hud : udMmx s = true ↔ s.cr0.getLsbD 2 = true ∨ s.par.hasMMX = false := by
    simp only [udMmx, cr0EM, Bool.or_eq_true, Bool.not_eq_true']
  have all {r : Res Unit} {o : Res State} (hg : gateMmx s = r) (ho : ∀ f : Unit → Res State, andThen r f = o) :
      exec (.punpckhbwMm d src len) s = o ∧ exec (.punpckhwdMm d src len) s = o ∧
        exec (.punpckhdqMm d src len) s = o := by
    have form (w : Nat) : stepMmx w d src len s = o := by rw [stepMmx, hg, ho]
    exact ⟨form 8, form 16, form 32⟩
  rw [← hud]
  refine ⟨fun h => ?_, fun h hts => ?_, fun h hts hes hne => ?_, fun h hts hes hne => ?_⟩
  · exact all (r := .fault .ud) (by simp [gateMmx, gateNm, h]) fun _ => rfl
  · exact all (r := .fault .nm) (by simp only [gateMmx, gateNm, h, cr0TS, hts]; rfl) fun _ => rfl
  · exact all (r := .fault .mf)
      (by simp only [gateMmx, gateNm, gateMf, h, cr0TS, hts, x87Pending, hes, cr0NE, hne]; rfl) fun _ => rfl
  · exact all (r := .refused .x87ErrorExternal)
      (by simp only [gateMmx, gateNm, gateMf, h, cr0TS, hts, x87Pending, hes, cr0NE, hne]; rfl) fun _ => rfl

/-- R155: where #UD does not come first. -/
theorem gateNm_nm {ud : Bool} {s : State} (hud : ¬ ud = true) (hts : s.cr0.getLsbD 3 = true) :
    gateNm ud s = .fault .nm := by
  simp only [gateNm, if_neg hud, cr0TS, hts, if_true]

theorem gateNm_ud {ud : Bool} (s : State) (hud : ud = true) : gateNm ud s = .fault .ud := if_pos hud

/-- Settles O33. -/
theorem sseGateFaults : Obligations.SseGateFaults := by
  intro s d src len
  dsimp only
  have hud : udSse s = true ↔ s.cr0.getLsbD 2 = true ∨ s.cr4.getLsbD 9 = false ∨ s.par.hasSSE2 = false := by
    simp only [udSse, cr0EM, cr4OSFXSR, Bool.or_eq_true, Bool.not_eq_true', or_assoc]
  have form {e : Fault} (hg : gateSse s = .fault e) (w : Nat) : stepSse w d src len s = .fault e := by
    rw [stepSse, hg, andThen_fault]
  rw [← hud]
  refine ⟨fun h => ?_, fun h hts => ?_⟩
  · have hg := form (gateNm_ud s h)
    exact ⟨hg 8, hg 16, hg 32, hg 64⟩
  · have hg := form (gateNm_nm h hts)
    exact ⟨hg 8, hg 16, hg 32, hg 64⟩

theorem udVex_iff (has : Bool) (s : State) :
    udVex has s = true ↔
      has = false ∨ s.cr4.getLsbD 18 = false ∨ s.xcr0.extractLsb' 1 2 ≠ 3#2 ∨ s.par.mode = .real := by
  have hxcr0 : xcr0Avx s = false ↔ s.xcr0.extractLsb' 1 2 ≠ 3#2 := by
    rw [← Bool.not_eq_true, xcr0Avx_iff]
  simp only [udVex, cr4OSXSAVE, Bool.or_eq_true, Bool.not_eq_true', decide_eq_true_eq, hxcr0, or_assoc]

/-- Settles O34: both kinds of VEX form pass the same gate, each with its feature flag. -/
theorem vexGateFaults : Obligations.VexGateFaults := by
  intro s d a src len
  dsimp only
  have form128 {e : Fault} (hg : gateVex128 s = .fault e) (w : Nat) : stepVex128 w d a src len s = .fault e := by
    rw [stepVex128, hg, andThen_fault]
  have form256 {e : Fault} (hg : gateVex256 s = .fault e) (w : Nat) : stepVex256 w d a src len s = .fault e := by
    rw [stepVex256, hg, andThen_fault]
  have hnot {has : Bool} (hhas : has = true)
      (hoff : ¬ (s.cr4.getLsbD 18 = false ∨ s.xcr0.extractLsb' 1 2 ≠ 3#2 ∨ s.par.mode = .real)) :
      ¬ udVex has s = true := by
    rw [udVex_iff, hhas]
    exact fun h => hoff (h.resolve_left (by decide))
  refine ⟨fun h => ?_, fun hhas hoff hts => ?_, fun h => ?_, fun hhas hoff hts => ?_⟩
  · have hg := form128 (gateNm_ud s ((udVex_iff _ s).2 h))
    exact ⟨hg 8, hg 16, hg 32, hg 64⟩
  · have hg := form128 (gateNm_nm (hnot hhas hoff) hts)
    exact ⟨hg 8, hg 16, hg 32, hg 64⟩
  · have hg := form256 (gateNm_ud s ((udVex_iff _ s).2 h))
    exact ⟨hg 8, hg 16, hg 32, hg 64⟩
  · have hg := form256 (gateNm_nm (hnot hhas hoff) hts)
    exact ⟨hg 8, hg 16, hg 32, hg 64⟩

end Sys2Proof.Machine


namespace Sys2Proof.Machine

open Config Safety

/-! ### Frames -/

/-- A write to one register leaves every other. -/
theorem getElem_set_of_ne {α : Type} {k : Nat} (v : Vector α (2 ^ k)) {d q : BitVec k} (h : q ≠ d) (a : α) :
    (v.set d.toNat a d.isLt)[q.toNat]'q.isLt = v[q.toNat]'q.isLt :=
  Vector.getElem_set_ne d.isLt q.isLt fun e => h (BitVec.eq_of_toNat_eq e.symm)

/-- Settles O42. -/
theorem mmxFrame : Obligations.MmxFrame := by
  intro s t d src len i hi h
  obtain ⟨v, rfl⟩ : ∃ v, t = finishMmx s d v len := by
    rcases hi with rfl | rfl | rfl <;>
      · obtain ⟨-, b, -, ht⟩ := stepMmx_next.1 h
        exact ⟨_, ht⟩
  rw [finishMmx_eq]
  refine ⟨fun q hq => ⟨getElem_set_of_ne (k := 3) s.mm hq v, ?_⟩, rfl, rfl, rfl, rfl, rfl, rfl, rfl, rfl, rfl, rfl,
    rfl, rfl, rfl, rfl, rfl, rfl, rfl, ?_, fun hx87 => ?_, fun a => rfl⟩
  · cases s.par.modelX87
    · rfl
    · exact getElem_set_of_ne (k := 3) s.x87Upper hq _
  · cases s.par.modelX87
    · rfl
    · exact (BitVec.and_assoc ..).trans (congrArg _ (BitVec.and_self ..))
  · simp only [hx87]
    exact ⟨rfl, rfl, rfl⟩

/-- Settles O43. -/
theorem sseFrame : Obligations.SseFrame := by
  intro s t d src len i hi h
  obtain ⟨v, rfl⟩ : ∃ v, t = advance (writeXmmKeep s d v) len := by
    rcases hi with rfl | rfl | rfl | rfl <;>
      · obtain ⟨-, b, -, ht⟩ := stepSse_next.1 h
        exact ⟨_, ht⟩
  rw [writeXmmKeep, advance_writeYmm_eq]
  refine ⟨fun q hq => getElem_set_of_ne (k := 4) s.ymm hq _, ?_, rfl, rfl, rfl, rfl, rfl, rfl, rfl, rfl, rfl, rfl,
    rfl, rfl, rfl, rfl, rfl, rfl, rfl, rfl, rfl, rfl, fun a => rfl⟩
  rw [Vector.getElem_set_self]
  exact BitVec.extractLsb'_append_eq_left

/-- What every VEX form leaves that completes: YMM[d] and pc, a VEX.128 form having zeroed the upper half. -/
theorem exec_vex_next {s t : State} {d x : XmmReg} {src : Src XmmReg} {len : Nat} {i : Instr}
    (hi : i = .vpunpckhbwXmm d x src len ∨ i = .vpunpckhwdXmm d x src len ∨ i = .vpunpckhdqXmm d x src len ∨
      i = .vpunpckhqdqXmm d x src len ∨ i = .vpunpckhbwYmm d x src len ∨ i = .vpunpckhwdYmm d x src len ∨
      i = .vpunpckhdqYmm d x src len ∨ i = .vpunpckhqdqYmm d x src len) (h : exec i s = .next t) :
    ∃ v, t = advance (writeYmm s d v) len ∧ ((fieldsOf i).kind = .vex128 → v.extractLsb' 128 128 = 0#128) := by
  rcases hi with rfl | rfl | rfl | rfl | rfl | rfl | rfl | rfl
  iterate 4
    · obtain ⟨-, b, -, ht⟩ := stepVex128_next.1 h
      exact ⟨_, ht, fun _ => BitVec.extractLsb'_append_eq_left⟩
  iterate 4
    · obtain ⟨-, b, -, ht⟩ := stepVex256_next.1 h
      exact ⟨_, ht, nofun⟩

/-- Settles O44. -/
theorem vexFrame : Obligations.VexFrame := by
  intro s t d x src len i hi h
  obtain ⟨v, rfl, hv⟩ := exec_vex_next hi h
  rw [advance_writeYmm_eq]
  refine ⟨fun q hq => getElem_set_of_ne (k := 4) s.ymm hq v, fun hk => ?_, rfl, rfl, rfl, rfl, rfl, rfl, rfl, rfl,
    rfl, rfl, rfl, rfl, rfl, rfl, rfl, rfl, rfl, rfl, rfl, rfl, fun a => rfl⟩
  rw [Vector.getElem_set_self]
  exact hv hk

/-! ### Memory reads in states that agree on what a read looks at -/

/-- The two states agree on everything an access looks at, but for NarrowFetch. -/
structure SameMemory (s t : State) : Prop where
  mode : t.par.mode = s.par.mode
  paging : t.par.paging = s.par.paging
  executeDisable : t.par.executeDisable = s.par.executeDisable
  linAddrBits : t.par.linAddrBits = s.par.linAddrBits
  readable : t.par.readable = s.par.readable
  pc : t.pc = s.pc
  x : t.x = s.x
  segment : ∀ g, segment t g = segment s g
  mem : t.mem = s.mem

section
variable {s t : State} (h : SameMemory s t)
include h

theorem SameMemory.addrAdd (a : Quad) (n : Nat) : Machine.addrAdd t a n = Machine.addrAdd s a n := by
  simp only [Machine.addrAdd, h.mode]

theorem SameMemory.cpl : Machine.cpl t = Machine.cpl s := by
  have hcs : t.cs = s.cs := h.segment .cs
  simp only [Machine.cpl, h.mode, hcs]

theorem SameMemory.effAddr (len : Nat) (a : Mem) : Machine.effAddr t len a = Machine.effAddr s len a := by
  have hbase : baseValue t len a.base = baseValue s len a.base := by
    cases a.base with
    | absent => rfl
    | gpr r => simp only [baseValue, readX, h.x]
    | rip => simp only [baseValue, h.addrAdd, h.pc]
  have hindex : indexValue t a.index = indexValue s a.index := by
    cases a.index with
    | none => rfl
    | some ix => simp only [indexValue, readX, h.x]
  simp only [Machine.effAddr, hbase, hindex]

theorem SameMemory.base64 (g : SegReg) : Machine.base64 t g = Machine.base64 s g := by
  have hfs : t.fs = s.fs := h.segment .fs
  have hgs : t.gs = s.gs := h.segment .gs
  cases g <;> simp only [Machine.base64, hfs, hgs]

theorem SameMemory.segCheck (g : SegReg) (ea : Quad) (n : Nat) :
    Machine.segCheck t g ea n = Machine.segCheck s g ea n := by
  simp only [Machine.segCheck, h.mode, h.base64, h.segment, h.linAddrBits]

theorem SameMemory.translate (lin : Quad) (acc : Access) :
    Machine.translate t lin acc = Machine.translate s lin acc := by
  simp only [Machine.translate, h.mode, h.paging, h.cpl, h.executeDisable]

theorem SameMemory.translateAll (lin : Quad) (ks : List Nat) :
    Machine.translateAll t lin ks = Machine.translateAll s lin ks := by
  induction ks with
  | nil => rfl
  | cons k ks ih => simp only [Machine.translateAll, h.addrAdd, h.translate, ih]

theorem SameMemory.readableAt (lin : Quad) : Machine.readableAt t lin = Machine.readableAt s lin := by
  simp only [Machine.readableAt, h.readable]

theorem SameMemory.memRead (g : SegReg) (ea : Quad) {n : Nat} (hn : fetchedOffsets t n = fetchedOffsets s n)
    (rule : AlignRule) : Machine.memRead t g ea n rule = Machine.memRead s g ea n rule := by
  simp only [Machine.memRead, h.segCheck, h.translateAll, h.addrAdd, h.mem, hn]
  have hread : Machine.readableAt t = Machine.readableAt s := funext h.readableAt
  rw [hread]

end

/-- A YMM register is no part of an access. -/
theorem sameMemory_writeYmm (s : State) (d : XmmReg) (v : Yword) : SameMemory s (writeYmm s d v) :=
  ⟨rfl, rfl, rfl, rfl, rfl, rfl, rfl, fun g => by cases g <;> rfl, rfl⟩

theorem readXmm_writeYmm_ne {x d : XmmReg} (h : x ≠ d) (s : State) (v : Yword) :
    readXmm (writeYmm s d v) x = readXmm s x := by
  rw [readXmm, readYmm_writeYmm, if_neg h, readXmm]

theorem writeYmm_writeYmm (s : State) (d : XmmReg) (v v' : Yword) :
    writeYmm (writeYmm s d v) d v' = writeYmm s d v' := by
  simp only [writeYmm, Vector.set_set]

section
variable {s : State} {d x : XmmReg} {src : Src XmmReg} (hx : x ≠ d) (hsrc : src ≠ .reg d)
include hsrc

theorem srcVex128_writeYmm (v : Yword) (len : Nat) : srcVex128 (writeYmm s d v) len src = srcVex128 s len src := by
  cases src with
  | reg r => simp only [srcVex128, readXmm_writeYmm_ne fun e => hsrc (congrArg Src.reg e)]
  | mem a =>
    have hsame := sameMemory_writeYmm s d v
    simp only [srcVex128, hsame.effAddr]
    exact hsame.memRead _ _ rfl _

theorem srcVex256_writeYmm (v : Yword) (len : Nat) : srcVex256 (writeYmm s d v) len src = srcVex256 s len src := by
  cases src with
  | reg r => simp only [srcVex256, readYmm_writeYmm, if_neg fun e => hsrc (congrArg Src.reg e)]
  | mem a =>
    have hsame := sameMemory_writeYmm s d v
    simp only [srcVex256, hsame.effAddr]
    exact hsame.memRead _ _ rfl _

include hx

theorem stepVex128_writeYmm (v : Yword) (w len : Nat) :
    stepVex128 w d x src len (writeYmm s d v) = stepVex128 w d x src len s := by
  have hgate : gateVex128 (writeYmm s d v) = gateVex128 s := rfl
  simp only [stepVex128, hgate, srcVex128_writeYmm hsrc, readXmm_writeYmm_ne hx, writeXmmZero, writeYmm_writeYmm]

theorem stepVex256_writeYmm (v : Yword) (w len : Nat) :
    stepVex256 w d x src len (writeYmm s d v) = stepVex256 w d x src len s := by
  have hgate : gateVex256 (writeYmm s d v) = gateVex256 s := rfl
  simp only [stepVex256, hgate, srcVex256_writeYmm hsrc, readYmm_writeYmm, if_neg hx, writeYmm_writeYmm]

end

/-- Settles O45. -/
theorem vexDestinationIsNotRead : Obligations.VexDestinationIsNotRead := by
  intro s d x src len v i hi hx hsrc
  rcases hi with rfl | rfl | rfl | rfl | rfl | rfl | rfl | rfl
  iterate 4 exact stepVex128_writeYmm hx hsrc v _ len
  iterate 4 exact stepVex256_writeYmm hx hsrc v _ len

end Sys2Proof.Machine


/-! ## The forms by kind -/

namespace Sys2Proof.Machine

open Config Safety

/-- R105: an instruction is one of four kinds of form, with the element width `w` of its row. -/
inductive FormOf (i : Instr) : Prop
  | mmx {w : Nat} {d : MmReg} {src : Src MmReg} (hkind : (fieldsOf i).kind = .mmx)
      (hsrc : (fieldsOf i).src = wideSrc src) (hw : 2 * w ∣ 64) (hexec : exec i = stepMmx w d src (fieldsOf i).len)
  | sse {w : Nat} {d : XmmReg} {src : Src XmmReg} (hkind : (fieldsOf i).kind = .sse)
      (hsrc : (fieldsOf i).src = src) (hw : 2 * w ∣ 128) (hexec : exec i = stepSse w d src (fieldsOf i).len)
  | vex128 {w : Nat} {d a : XmmReg} {src : Src XmmReg} (hkind : (fieldsOf i).kind = .vex128)
      (hsrc : (fieldsOf i).src = src) (hw : 2 * w ∣ 128) (hexec : exec i = stepVex128 w d a src (fieldsOf i).len)
  | vex256 {w : Nat} {d a : XmmReg} {src : Src XmmReg} (hkind : (fieldsOf i).kind = .vex256)
      (hsrc : (fieldsOf i).src = src) (hw : 2 * w ∣ 128) (hexec : exec i = stepVex256 w d a src (fieldsOf i).len)

theorem formOf (i : Instr) : FormOf i := by
  cases i with
  | punpckhbwMm | punpckhwdMm | punpckhdqMm => exact .mmx rfl rfl (by decide) rfl
  | punpckhbwXmm | punpckhwdXmm | punpckhdqXmm | punpckhqdqXmm => exact .sse rfl rfl (by decide) rfl
  | vpunpckhbwXmm | vpunpckhwdXmm | vpunpckhdqXmm | vpunpckhqdqXmm => exact .vex128 rfl rfl (by decide) rfl
  | vpunpckhbwYmm | vpunpckhwdYmm | vpunpckhdqYmm | vpunpckhqdqYmm => exact .vex256 rfl rfl (by decide) rfl

/-! ### What an instruction that completes can have written -/

/-- R40: `t` differs from `s` in the SIMD and x87 registers, TOP, the tag word and a pc `len` bytes further on. -/
def WritesSimdOnly (s t : State) (len : Nat) : Prop :=
  t = { s with mm := t.mm, x87Upper := t.x87Upper, ymm := t.ymm, x87Status := t.x87Status, x87Tag := t.x87Tag,
               pc := t.pc } ∧
    t.x87Status &&& 0xC7FF = s.x87Status &&& 0xC7FF ∧ t.pc = nextPc s len

section
variable {s t : State} {len : Nat} (h : WritesSimdOnly s t len)
include h

theorem WritesSimdOnly.par : t.par = s.par := by rw [h.1]

theorem WritesSimdOnly.mem : t.mem = s.mem := by rw [h.1]

theorem WritesSimdOnly.x : t.x = s.x := by rw [h.1]

theorem WritesSimdOnly.rflags : t.rflags = s.rflags := by rw [h.1]

theorem WritesSimdOnly.pc : t.pc = nextPc s len := h.2.2

end

theorem writesSimdOnly_finishMmx (s : State) (d : MmReg) (v : Quad) (len : Nat) :
    WritesSimdOnly s (finishMmx s d v len) len := by
  rw [finishMmx_eq]
  refine ⟨rfl, ?_, rfl⟩
  cases s.par.modelX87
  · rfl
  · exact (BitVec.and_assoc ..).trans (congrArg _ (BitVec.and_self ..))

theorem writesSimdOnly_writeYmm (s : State) (d : XmmReg) (v : Yword) (len : Nat) :
    WritesSimdOnly s (advance (writeYmm s d v) len) len := by
  rw [advance_writeYmm_eq]
  exact ⟨rfl, rfl, rfl⟩

theorem exec_writesSimdOnly {i : Instr} {s t : State} (h : exec i s = .next t) :
    WritesSimdOnly s t (fieldsOf i).len := by
  cases formOf i with
  | mmx _ _ _ hexec =>
    obtain ⟨-, b, -, rfl⟩ := stepMmx_next.1 (hexec ▸ h)
    exact writesSimdOnly_finishMmx ..
  | sse _ _ _ hexec =>
    obtain ⟨-, b, -, rfl⟩ := stepSse_next.1 (hexec ▸ h)
    exact writesSimdOnly_writeYmm ..
  | vex128 _ _ _ hexec =>
    obtain ⟨-, b, -, rfl⟩ := stepVex128_next.1 (hexec ▸ h)
    exact writesSimdOnly_writeYmm ..
  | vex256 _ _ _ hexec =>
    obtain ⟨-, b, -, rfl⟩ := stepVex256_next.1 (hexec ▸ h)
    exact writesSimdOnly_writeYmm ..

/-! ## The step (O46 to O53, O56) -/

theorem fetchRun_length (s : State) (n k : Nat) : (fetchRun s n k).1.length ≤ n := by
  induction n generalizing k with
  | zero => exact Nat.le_refl 0
  | succ n ih =>
    cases hb : fetchByte s k with
    | next b =>
      rw [fetchRun_next n k hb, List.length_cons]
      exact Nat.succ_le_succ (ih (k + 1))
    | fault e =>
      rw [fetchRun_fault n k hb]
      exact Nat.zero_le _
    | refused r =>
      rw [fetchRun_refused n k hb]
      exact Nat.zero_le _

/-- The shortest encoding has an escape or two VEX bytes, an opcode and a ModRM byte. -/
theorem three_le_minLen (m : Mode) (f : Fields) : 3 ≤ minLen m f := by
  have hop : 2 ≤ opcodeLen f := by
    unfold opcodeLen
    cases f.kind with
    | mmx => exact Nat.le_add_left ..
    | sse => exact Nat.le_add_left ..
    | vex128 | vex256 => dsimp only; split <;> decide
  have hsrc : 1 ≤ operandLen m f.src := by
    cases f.src with
    | reg r => exact Nat.le_refl 1
    | mem a =>
      rw [operandLen]
      omega
  exact Nat.add_le_add hop hsrc

/-- A step that completes ran an instruction of 3 to 15 bytes. -/
theorem step_writesSimdOnly {s t : State} (h : step s = .next t) :
    ∃ len, 3 ≤ len ∧ len ≤ 15 ∧ WritesSimdOnly s t len := by
  obtain ⟨i, hi, hexec⟩ := step_next h
  have hwf := decodedIsWellFormed _ _ i (fetchRun_length s maxLen 0) (fetchDecode_next.1 hi)
  obtain ⟨-, -, -, hmin, hmax⟩ := fieldsOk_iff.1 (wellFormed_iff.1 hwf)
  exact ⟨_, (three_le_minLen _ _).trans hmin, hmax, exec_writesSimdOnly hexec⟩

/-- Settles O53. -/
theorem stepChangesOnlySimdStateAndPc : Obligations.StepChangesOnlySimdStateAndPc := by
  intro s t h
  obtain ⟨len, hmin, hmax, hrest, hstatus, hpc⟩ := step_writesSimdOnly h
  exact ⟨hrest, hstatus, len, hmin, hmax, hpc⟩

/-- R31: outside 64-bit mode the next pc is a 32-bit address. -/
theorem nextPc_high {s : State} (h : s.par.mode ≠ .m64) (len : Nat) : (nextPc s len).extractLsb' 32 32 = 0#32 := by
  rw [← addrAdd_eq_nextPc, addrAdd_low h]
  exact high_low32 _

/-- Settles O52: a step writes neither memory nor the mode, and `nextPc_high`. -/
theorem stepKeepsTheInvariant : Obligations.StepKeepsTheInvariant := by
  rintro s t ⟨hmem, -⟩ h
  obtain ⟨len, -, -, hw⟩ := step_writesSimdOnly h
  refine ⟨hw.mem ▸ hmem, fun hm => ?_⟩
  rw [hw.pc]
  exact nextPc_high (hw.par ▸ hm) len

/-- Settles O56, by induction on the steps of the run. -/
theorem runEndsAtEndAddr : Obligations.RunEndsAtEndAddr := by
  intro fuel
  induction fuel with
  | zero => intro s t _ h; cases h
  | succ fuel ih =>
    intro s t hinv h
    unfold runToEnd at h
    cases hs : step s with
    | fault e => rw [hs] at h; cases h
    | refused r => rw [hs] at h; cases h
    | next u =>
      have huinv := stepKeepsTheInvariant s u hinv hs
      obtain ⟨len, -, -, hw⟩ := step_writesSimdOnly hs
      rw [hs] at h
      dsimp only at h
      split at h
      · next hend =>
        cases h
        exact ⟨hw.par ▸ hend, hw.par, hw.mem, hw.x, hw.rflags, huinv⟩
      · obtain ⟨hend, hpar, hmem, hx, hflags, htinv⟩ := ih u t huinv h
        exact ⟨hw.par ▸ hend, hpar.trans hw.par, hmem.trans hw.mem, hx.trans hw.x, hflags.trans hw.rflags, htinv⟩

/-- R106: the step on what the fetch gave. -/
theorem step_of_fetchRun {s : State} {ws : List Byte} {stop : Res Unit} (h : fetchRun s maxLen 0 = (ws, stop)) :
    step s = andThen (decoded (decode s.par.mode ws) stop) fun i => exec i s := by
  have hdec : fetchDecode s = decoded (decode s.par.mode ws) stop := by
    unfold fetchDecode
    rw [h]
  unfold step
  rw [hdec]
  cases decoded (decode s.par.mode ws) stop <;> rfl

/-- Settles O46. -/
theorem stepRunsTheDecodedInstruction : Obligations.StepRunsTheDecodedInstruction := by
  intro s ws stop h
  have hstep := step_of_fetchRun h
  refine ⟨fun i hd => ?_, fun hd => ?_, fun hd => ?_, fun hd => ?_, fun hd => ⟨?_, fun e => ?_, fun r => ?_⟩⟩
  iterate 4
    · rw [hstep, hd]
      rfl
  iterate 3
    · rintro rfl
      rw [hstep, hd]
      rfl

/-- Bytes that are all prefixes are no instruction yet. -/
theorem decode_prefixes {m : Mode} {ps : List Byte} (h : ∀ w, w ∈ ps → PrefixByte m w) : decode m ps = .short := by
  have happ := decode_append h []
  rw [List.append_nil] at happ
  rw [happ]
  rfl

/-- Settles O49. -/
theorem fifteenPrefixesFault : Obligations.FifteenPrefixesFault := by
  intro s ws h hws
  have hlegacy : ∀ w ∈ [0x66, 0x67, 0x26, 0x2E, 0x36, 0x3E, 0x64, 0x65, 0xF0, 0xF2, (0xF3 : Byte)],
      w ∈ legacyPrefixBytes := by decide
  rw [step_of_fetchRun h, decode_prefixes fun w hw => .inl (hlegacy w (hws w hw))]
  rfl

/-! ### The bytes at pc -/

theorem fetchByte_of_translate {s : State} {k p : Nat} (hok : CodeByteOk s k)
    (hp : translate s (codeAddr s k) .fetch = .next p) (hread : readableAt s (codeAddr s k) = true) :
    fetchByte s k = .next (readByte s.mem p) := by
  rw [fetchByte, (fetchLinear_eq s k).1 hok, andThen_next, hp, andThen_next, if_pos hread]

/-- Settles O47: each byte is fetched by `fetchByte_of_translate`. -/
theorem fetchReadsTheBytesAtPc : Obligations.FetchReadsTheBytesAtPc := by
  intro s n hreal _ hok hread
  refine ⟨fun hid => ?_, fun rows frame htable hframe => ?_⟩
  · have hbyte (k : Nat) (hk : k < n) : fetchByte s (0 + k) = .next (readByte s.mem (codeAddr s (0 + k)).toNat) := by
      rw [Nat.zero_add]
      exact fetchByte_of_translate (hok k hk) (translate_identity hid _ _) (hread k hk)
    rw [fetchRun_map (f := fun k => readByte s.mem (codeAddr s k).toNat) n 0 hbyte]
    simp only [Nat.zero_add]
  · have hbyte (k : Nat) (hk : k < n) : fetchByte s (0 + k) =
        .next (readByte s.mem (frame (0 + k) * 4096 + (codeAddr s (0 + k)).toNat % 4096)) := by
      rw [Nat.zero_add]
      refine fetchByte_of_translate (hok k hk) ?_ (hread k hk)
      rw [translate_table hreal htable, hframe k hk]
    rw [fetchRun_map (f := fun k => readByte s.mem (frame k * 4096 + (codeAddr s k).toNat % 4096)) n 0 hbyte]
    simp only [Nat.zero_add]

/-- Settles O48: what stops the fetch at byte `k` is the step's end, as the decoder needs that byte. -/
theorem fetchStops : Obligations.FetchStops := by
  intro s k bs hk hbs hshort
  refine ⟨fun hok => ?_, fun rows cause hreal htable hok hpage => ?_, fun hok htrans hread => ?_⟩
  · refine step_of_fetch_fault hk hbs hshort ?_
    rw [fetchByte, (fetchLinear_eq s k).2 hok, andThen_fault]
  · refine step_of_fetch_fault hk hbs hshort ?_
    rw [fetchByte, (fetchLinear_eq s k).1 hok, andThen_next, translate_table hreal htable, hpage]
    simp only [pfCode, decide_eq_true_eq, decide_true, Bool.true_and, andThen_fault]
    rfl
  · obtain ⟨p, hp⟩ := translate_of_translates htrans
    refine step_of_fetch_refused hk hbs hshort ?_
    rw [fetchByte, (fetchLinear_eq s k).1 hok, andThen_next, hp, andThen_next, hread]
    rfl

/-! ### Bytes placed at pc -/

/-- Bytes of one instruction do not share an address. -/
theorem codeAddr_ne (s : State) {j k : Nat} (h : j < k) (hk : k < 2 ^ 32) :
    (codeAddr s j).toNat ≠ (codeAddr s k).toNat := by
  unfold codeAddr
  split
  · simp only [BitVec.toNat_add, BitVec.toNat_ofNat]
    omega
  · simp only [BitVec.toNat_ofNat]
    omega

section
variable {s : State} (hid : s.par.paging = .identity)
include hid

theorem fetchPhys_identity {k : Nat} (hok : CodeByteOk s k) : fetchPhys s k = .next (codeAddr s k).toNat := by
  rw [fetchPhys, (fetchLinear_eq s k).1 hok, andThen_next, translate_identity hid]

theorem placeBytes_cons {k : Nat} (hok : CodeByteOk s k) (b : Byte) (bs : List Byte) :
    placeBytes s k (b :: bs) =
      placeBytes { s with mem := writeByte s.mem (codeAddr s k).toNat b } (k + 1) bs := by
  rw [placeBytes, fetchPhys_identity hid hok]

end

/-- Placing the bytes from byte `k` on leaves the bytes before it. -/
theorem readByte_placeBytes_before {s : State} (hid : s.par.paging = .identity) (hwf : Memory.wf s.mem = true)
    {bs : List Byte} {j k : Nat} (hjk : j < k) (hk : k + bs.length ≤ 2 ^ 32)
    (hok : ∀ n, n < bs.length → CodeByteOk s (k + n)) :
    readByte (placeBytes s k bs).mem (codeAddr s j).toNat = readByte s.mem (codeAddr s j).toNat := by
  induction bs generalizing s k with
  | nil => rfl
  | cons b bs ih =>
    rw [List.length_cons] at hk hok
    have hwf' := writeByte_wf s.mem (codeAddr s k).toNat b hwf
    have hok' (n : Nat) (hn : n < bs.length) : CodeByteOk s (k + 1 + n) := by
      rw [Nat.add_assoc, Nat.add_comm 1]
      exact hok (n + 1) (by omega)
    have hok0 : CodeByteOk s k := hok 0 (by omega)
    rw [placeBytes_cons hid hok0]
    refine (ih (s := { s with mem := writeByte s.mem (codeAddr s k).toNat b }) hid hwf'
      (by omega) (by omega) hok').trans ?_
    exact (readByte_writeByte _ _ _ _ hwf).trans (if_neg (codeAddr_ne s hjk (by omega)))

/-- Each byte placed is read back at its address. -/
theorem readByte_placeBytes {s : State} (hid : s.par.paging = .identity) (hwf : Memory.wf s.mem = true)
    {bs : List Byte} {k : Nat} (hk : k + bs.length ≤ 2 ^ 32) (hok : ∀ n, n < bs.length → CodeByteOk s (k + n))
    {n : Nat} (hn : n < bs.length) :
    readByte (placeBytes s k bs).mem (codeAddr s (k + n)).toNat = bs[n] := by
  induction bs generalizing s k n with
  | nil => cases hn
  | cons b bs ih =>
    rw [List.length_cons] at hk hok hn
    have hwf' := writeByte_wf s.mem (codeAddr s k).toNat b hwf
    have hok' (n : Nat) (hn : n < bs.length) : CodeByteOk s (k + 1 + n) := by
      rw [Nat.add_assoc, Nat.add_comm 1]
      exact hok (n + 1) (by omega)
    have hok0 : CodeByteOk s k := hok 0 (by omega)
    rw [placeBytes_cons hid hok0]
    cases n with
    | zero =>
      refine (readByte_placeBytes_before (s := { s with mem := writeByte s.mem (codeAddr s k).toNat b }) (j := k)
        hid hwf' (by omega) (by omega) hok').trans ?_
      exact (readByte_writeByte _ _ _ _ hwf).trans (if_pos rfl)
    | succ n =>
      have h := ih (s := { s with mem := writeByte s.mem (codeAddr s k).toNat b }) hid hwf' (k := k + 1) (by omega) hok'
        (n := n) (by omega)
      rw [Nat.add_assoc, Nat.add_comm 1] at h
      exact h

/-- Bytes placed at pc are the first the fetch reads there. -/
theorem fetchRun_placeBytes {s : State} (hwf : Memory.wf s.mem = true) (hmem : OrdinaryMemory s) {bs : List Byte}
    (hlen : bs.length ≤ maxLen) (hok : ∀ k, k < bs.length → CodeByteOk s k) :
    ∃ tail stop, fetchRun (placeBytes s 0 bs) maxLen 0 = (bs ++ tail, stop) := by
  obtain ⟨hid, hread⟩ := hmem
  have hok' (n : Nat) (hn : n < bs.length) : CodeByteOk s (0 + n) := by
    rw [Nat.zero_add]
    exact hok n hn
  have hk : 0 + bs.length ≤ 2 ^ 32 := by
    unfold maxLen at hlen
    omega
  have hbyte (n : Nat) (hn : n < bs.length) : fetchByte (placeBytes s 0 bs) (0 + n) = .next (bs.getD (0 + n) 0) := by
    have hb := readByte_placeBytes hid hwf hk hok' hn
    rw [Nat.zero_add] at hb ⊢
    rw [placeBytes_eq] at hb ⊢
    rw [fetchByte_of_translate (s := { s with mem := (placeBytes s 0 bs).mem }) (hok n hn)
        (translate_identity hid _ _) (hread _),
      List.getD_eq_getElem _ _ hn]
    exact congrArg _ hb
  have hrun := fetchRun_map (f := fun n => bs.getD n 0) bs.length 0 hbyte
  have hbytes : ((List.range bs.length).map fun j => bs.getD (0 + j) 0) = bs := by
    refine List.ext_getElem (by simp) fun j h1 h2 => ?_
    simp [List.getElem?_eq_getElem h2]
  rw [hbytes] at hrun
  have hadd := fetchRun_add bs.length (maxLen - bs.length) 0 hrun
  rw [Nat.add_sub_cancel' hlen] at hadd
  exact ⟨_, _, hadd⟩

/-- Settles O50: the fetch reads the encoding back (`fetchRun_placeBytes`), the decoder the instruction from it
(`decode_encode`), whatever follows. -/
theorem storedEncodingRuns : Obligations.StoredEncodingRuns := by
  intro s i hwf hmem hok hi
  have hlen := encode_length_of_wellFormed hi
  obtain ⟨-, -, -, -, hmax⟩ := fieldsOk_iff.1 (wellFormed_iff.1 hi)
  obtain ⟨tail, stop, hrun⟩ :=
    fetchRun_placeBytes hwf hmem (bs := encode s.par.mode i) (hlen.trans_le hmax) (hlen ▸ hok)
  have hmode : (placeBytes s 0 (encode s.par.mode i)).par.mode = s.par.mode := by rw [placeBytes_eq]
  have hdec := decode_encode hi
  refine ⟨?_, fun hm => ?_⟩
  · rw [step_of_fetchRun hrun, hmode, decode_append_of_ne_short (hdec ▸ nofun), hdec]
    rfl
  · rw [launchWith, if_pos hm]

end Sys2Proof.Machine


/-! ## The interleave's elements and lanes (O21, O22, O24) -/

namespace Sys2Proof.Machine

section
variable {size w n : Nat}

/-- Element `k` of lane `j` is element `2 * n * j + k` of the whole. -/
theorem elem_lane (v : BitVec size) (j : Nat) {k : Nat} (hk : k < 2 * n) :
    elem w (v.extractLsb' (2 * w * n * j) (2 * w * n)) k = elem w v (2 * n * j + k) := by
  apply BitVec.eq_of_getLsbD_eq
  intro p hp
  have hlt : w * k + p < 2 * w * n := by nlinarith
  have hpos : 2 * w * n * j + (w * k + p) = w * (2 * n * j + k) + p := by ring
  simp only [getLsbD_elem, BitVec.getLsbD_extractLsb', hlt, decide_true, Bool.true_and, hpos]

theorem highElem_lane (hw : 0 < w) (a b : BitVec size) (j : Nat) {k : Nat} (hk : k < 2 * n) :
    highElem w (2 * w * n) (a.extractLsb' (2 * w * n * j) (2 * w * n)) (b.extractLsb' (2 * w * n * j) (2 * w * n)) k =
      highElem w (2 * w * n) a b (2 * n * j + k) := by
  obtain ⟨hdiv, hmod⟩ : (2 * n * j + k) / (2 * n) = j ∧ (2 * n * j + k) % (2 * n) = k :=
    (Nat.div_mod_unique (by omega)).2 ⟨by ring, hk⟩
  have hpos : j * (2 * n) + n + k / 2 = 2 * n * j + (n + k / 2) := by ring
  rw [highElem_eq hw, highElem_eq hw, hdiv, hmod, Nat.div_eq_of_lt hk, Nat.mod_eq_of_lt hk, Nat.zero_mul, Nat.zero_add,
    hpos]
  split <;> exact elem_lane _ j (by omega)

end

section
variable {size w lane : Nat} (hw : 0 < w) (hlane : 2 * w ∣ lane)
include hw hlane

/-- R126: lane `j` of an interleave is the interleave of the sources' lanes `j`. -/
theorem lane_interleaveHigh (a b : BitVec size) {j : Nat} (hj : lane * (j + 1) ≤ size) :
    (interleaveHigh w lane a b).extractLsb' (lane * j) lane =
      interleaveHigh w lane (a.extractLsb' (lane * j) lane) (b.extractLsb' (lane * j) lane) := by
  obtain ⟨n, rfl⟩ := hlane
  apply BitVec.eq_of_getLsbD_eq
  intro p hp
  have hin : 2 * w * n * j + p < size := by nlinarith
  have hk : p / w < 2 * n := Nat.div_lt_of_lt_mul (by linarith)
  have hbit : 2 * w * n * j + p = w * (2 * n * j) + p := by ring
  rw [BitVec.getLsbD_extractLsb', getLsbD_interleaveHigh, getLsbD_interleaveHigh, highElem_lane hw a b j hk, hbit,
    Nat.mul_add_div hw, Nat.mul_add_mod, ← hbit, decide_eq_true hin, Bool.true_and]

/-- R125 for one lane. -/
theorem elem_interleaveHigh_lane (a b : BitVec lane) {i : Nat} (hi : i < lane / (2 * w)) :
    elem w (interleaveHigh w lane a b) (2 * i) = elem w a (lane / (2 * w) + i) ∧
      elem w (interleaveHigh w lane a b) (2 * i + 1) = elem w b (lane / (2 * w) + i) := by
  obtain ⟨n, rfl⟩ := hlane
  rw [Nat.mul_div_cancel_left n (by omega)] at hi ⊢
  have helem {k : Nat} (hk : k < 2 * n) :
      elem w (interleaveHigh w (2 * w * n) a b) k = elem w (if k % 2 = 0 then a else b) (n + k / 2) := by
    rw [elem_interleaveHigh w _ k a b hw (by nlinarith), highElem_eq hw, Nat.mod_eq_of_lt hk, Nat.div_eq_of_lt hk,
      Nat.zero_mul, Nat.zero_add]
  have heven : 2 * i % 2 = 0 ∧ 2 * i / 2 = i := by omega
  have hodd : (2 * i + 1) % 2 = 1 ∧ (2 * i + 1) / 2 = i := by omega
  constructor
  · rw [helem (by omega), heven.1, heven.2, if_pos rfl]
  · rw [helem (by omega), hodd.1, hodd.2, if_neg Nat.one_ne_zero]

/-- R128 for one lane: with a zero source one half of each element of width `2 * w` is zero. -/
theorem elem_interleaveHigh_zero (a : BitVec lane) {i : Nat} (hi : i < lane / (2 * w)) :
    elem (2 * w) (interleaveHigh w lane a 0) i = (elem w a (lane / (2 * w) + i)).setWidth (2 * w) ∧
      elem (2 * w) (interleaveHigh w lane 0 a) i = (elem w a (lane / (2 * w) + i)).setWidth (2 * w) <<< w := by
  have hzero (k : Nat) : elem w (0 : BitVec lane) k = 0 := BitVec.extractLsb'_zero ..
  have halves (v : BitVec lane) {p : Nat} (hp : p < 2 * w) :
      (elem (2 * w) v i).getLsbD p =
        if p < w then (elem w v (2 * i)).getLsbD p else (elem w v (2 * i + 1)).getLsbD (p - w) := by
    have hlow : 2 * w * i + p = w * (2 * i) + p := by ring
    split
    · next h => simp only [getLsbD_elem, hp, h, hlow]
    · next h =>
      have hhigh : w * (2 * i) + p = w * (2 * i + 1) + (p - w) := by
        rw [Nat.mul_add, Nat.mul_one]
        omega
      have hp' : p - w < w := by omega
      simp only [getLsbD_elem, hp, hp', hlow, hhigh]
  obtain ⟨heven, hodd⟩ := elem_interleaveHigh_lane hw hlane a 0 hi
  obtain ⟨heven', hodd'⟩ := elem_interleaveHigh_lane hw hlane 0 a hi
  constructor
  · apply BitVec.eq_of_getLsbD_eq
    intro p hp
    rw [halves _ hp, heven, hodd, hzero, BitVec.getLsbD_setWidth, decide_eq_true hp, Bool.true_and]
    split
    · rfl
    · next h => rw [BitVec.getLsbD_of_ge _ p (by omega)]; exact BitVec.getLsbD_zero
  · apply BitVec.eq_of_getLsbD_eq
    intro p hp
    rw [halves _ hp, heven', hodd', hzero, BitVec.getLsbD_shiftLeft, BitVec.getLsbD_setWidth, decide_eq_true hp]
    split
    · next h => simp [h]
    · next h =>
      have hp' : p - w < 2 * w := by omega
      simp [h, hp']

end

/-- The widths of R115 divide a lane. -/
theorem width_dvd_64 {w : Nat} (h : w = 8 ∨ w = 16 ∨ w = 32) : 0 < w ∧ 2 * w ∣ 64 := by
  rcases h with rfl | rfl | rfl <;> decide

theorem width_dvd_128 {w : Nat} (h : w = 8 ∨ w = 16 ∨ w = 32 ∨ w = 64) : 0 < w ∧ 2 * w ∣ 128 := by
  rcases h with rfl | rfl | rfl | rfl <;> decide

theorem lane_high256 {w : Nat} (h : w = 8 ∨ w = 16 ∨ w = 32 ∨ w = 64) (A B : Yword) {j : Nat} (hj : j < 2) :
    (high256 w A B).extractLsb' (128 * j) 128 =
      high128 w (A.extractLsb' (128 * j) 128) (B.extractLsb' (128 * j) 128) := by
  obtain ⟨hw, hdvd⟩ := width_dvd_128 h
  exact lane_interleaveHigh hw hdvd A B (by omega)

/-- Settles O21. -/
theorem interleaveElementFormula : Obligations.InterleaveElementFormula := by
  refine ⟨fun A B w i h hi => ?_, fun A B w i h hi => ?_, fun A B w i j h hi hj => ?_⟩
  · obtain ⟨hw, hdvd⟩ := width_dvd_64 h
    exact elem_interleaveHigh_lane hw hdvd A B hi
  · obtain ⟨hw, hdvd⟩ := width_dvd_128 h
    exact elem_interleaveHigh_lane hw hdvd A B hi
  · obtain ⟨hw, hdvd⟩ := width_dvd_128 h
    rw [lane_high256 h A B hj]
    exact elem_interleaveHigh_lane hw hdvd _ _ hi

/-- Settles O22: `lane_high256` for the two lanes. -/
theorem lanesAreIndependent : Obligations.LanesAreIndependent := by
  intro A B w h
  rw [← lane_high256 h A B (j := 1) (by decide), ← lane_high256 h A B (j := 0) (by decide)]
  exact BitVec.eq_of_getLsbD_eq fun p hp => by
    rw [BitVec.getLsbD_append, BitVec.getLsbD_extractLsb', BitVec.getLsbD_extractLsb']
    split
    · next hlow => simp [hlow]
    · next hlow =>
      have hp' : p - 128 < 128 := by omega
      have hpos : 128 * 1 + (p - 128) = p := by omega
      simp only [hp', decide_true, Bool.true_and, hpos]

/-- Settles O24. -/
theorem zeroSourceZeroExtends : Obligations.ZeroSourceZeroExtends := by
  refine ⟨fun A w i h hi => ?_, fun A w i h hi => ?_, fun A w i j h hi hj => ?_⟩
  · obtain ⟨hw, hdvd⟩ := width_dvd_64 h
    exact elem_interleaveHigh_zero hw hdvd A hi
  · obtain ⟨hw, hdvd⟩ := width_dvd_128 h
    exact elem_interleaveHigh_zero hw hdvd A hi
  · obtain ⟨hw, hdvd⟩ := width_dvd_128 h
    have hzero : (0 : Yword).extractLsb' (128 * j) 128 = 0 := BitVec.extractLsb'_zero ..
    rw [lane_high256 h A 0 hj, lane_high256 h 0 A hj, hzero]
    exact elem_interleaveHigh_zero hw hdvd _ hi

end Sys2Proof.Machine


/-! ## Operands (O29 to O31, O35 to O40) -/

namespace Sys2Proof.Machine

open Config Safety

/-! ### The effective address -/

/-- The width of an address size. -/
def addrBits : AddrSize → Nat
  | .a16 => 16
  | .a32 => 32
  | .a64 => 64

/-- R73: a sum reduced to the address size. -/
theorem toNat_truncAddr (z : AddrSize) (a : Quad) : (truncAddr z a).toNat = a.toNat % 2 ^ addrBits z := by
  cases z with
  | a16 => simp only [truncAddr, addrBits, BitVec.toNat_setWidth]; omega
  | a32 => exact toNat_low32 a
  | a64 => exact (Nat.mod_eq_of_lt a.isLt).symm

/-- A residue modulo 2^64 is one modulo an address size. -/
theorem modEq_of_toNat (z : AddrSize) {v : Quad} {x : Int} (h : x ≡ v.toNat [ZMOD 2 ^ 64]) :
    x ≡ v.toNat [ZMOD 2 ^ addrBits z] :=
  h.of_dvd (by cases z <;> decide)

theorem modEq_baseValue (s : State) (len : Nat) (z : AddrSize) (r : Gpr) :
    ((s.x[r.toNat].toNat % 2 ^ addrBits z : Nat) : Int) ≡ (baseValue s len (.gpr r)).toNat [ZMOD 2 ^ addrBits z] := by
  rw [Int.natCast_mod]
  exact Int.mod_modEq _ _

theorem modEq_indexValue (s : State) (z : AddrSize) (ix : Index) :
    ((s.x[ix.reg.toNat].toNat % 2 ^ addrBits z * 2 ^ ix.scale.toNat : Nat) : Int) ≡
      (indexValue s (some ix)).toNat [ZMOD 2 ^ addrBits z] := by
  have hshift : ((s.x[ix.reg.toNat].toNat * 2 ^ ix.scale.toNat : Nat) : Int) ≡
      (indexValue s (some ix)).toNat [ZMOD 2 ^ 64] := by
    rw [indexValue, readX, BitVec.toNat_shiftLeft, Nat.shiftLeft_eq, Int.natCast_mod]
    exact (Int.mod_modEq _ _).symm
  refine Int.ModEq.trans ?_ (modEq_of_toNat z hshift)
  rw [Nat.cast_mul, Nat.cast_mul, Int.natCast_mod]
  exact (Int.mod_modEq _ _).mul_right _

theorem modEq_signExtend {n : Nat} (hn : n ≤ 64) (v : BitVec n) : v.toInt ≡ (v.signExtend 64).toNat [ZMOD 2 ^ 64] := by
  rw [← BitVec.toInt_signExtend_of_le hn, BitVec.toInt_eq_toNat_bmod]
  exact Int.bmod_emod

/-- R90 to R92, in exact integers: parts that agree with the sum's modulo the address size give the address. -/
theorem effAddr_exact {s : State} {len : Nat} {a : Mem} {base index disp : Int}
    (hbase : base ≡ (baseValue s len a.base).toNat [ZMOD 2 ^ addrBits a.asize])
    (hindex : index ≡ (indexValue s a.index).toNat [ZMOD 2 ^ addrBits a.asize])
    (hdisp : disp ≡ (dispValue a.disp).toNat [ZMOD 2 ^ addrBits a.asize]) :
    ((effAddr s len a).toNat : Int) = (base + index + disp) % 2 ^ addrBits a.asize := by
  have hsum : base + index + disp ≡
      (baseValue s len a.base + indexValue s a.index + dispValue a.disp).toNat [ZMOD 2 ^ addrBits a.asize] := by
    refine ((hbase.add hindex).add hdisp).trans (modEq_of_toNat _ ?_)
    rw [BitVec.toNat_add, BitVec.toNat_add, Nat.mod_add_mod, Int.natCast_mod]
    push_cast
    exact (Int.mod_modEq _ _).symm
  rw [effAddr, toNat_truncAddr, Int.natCast_mod]
  push_cast
  exact hsum.symm

/-- Settles O29: each part agrees with its value modulo the address size. -/
theorem effectiveAddresses : Obligations.EffectiveAddresses := by
  intro s len a size base index disp
  have hsize : size = addrBits a.asize := by
    cases h : a.asize <;> simp only [size, h, addrBits]
  clear_value size
  subst hsize
  refine effAddr_exact ?_ ?_ ?_
  · cases h : a.base with
    | absent => simp only [base, h]; rfl
    | gpr r => simp only [base, h]; exact modEq_baseValue s len _ r
    | rip => simp only [base, h, baseValue, addrAdd_eq_nextPc]; rfl
  · cases h : a.index with
    | none => simp only [index, h]; rfl
    | some ix => simp only [index, h]; exact modEq_indexValue s _ ix
  · cases h : a.disp with
    | absent => simp only [disp, h]; rfl
    | d8 v => simp only [disp, h]; exact modEq_of_toNat _ (modEq_signExtend (by decide) v)
    | d16 v => simp only [disp, h]; exact modEq_of_toNat _ (modEq_signExtend (by decide) v)
    | d32 v => simp only [disp, h]; exact modEq_of_toNat _ (modEq_signExtend (by decide) v)

end Sys2Proof.Machine


namespace Sys2Proof.Machine

open Config Safety

/-! ### The segment check and alignment, as numbers -/

theorem segFault_eq (g : SegReg) : segFault g = if g = .ss then .ss0 else .gp0 := by cases g <;> rfl

theorem linear64_eq (s : State) (g : SegReg) (ea : Quad) : linear64 s g ea = base64 s g + ea := by cases g <;> rfl

/-- R62, R63: the segment check of 64-bit mode. -/
theorem segCheck_m64 {s : State} (hm : s.par.mode = .m64) (g : SegReg) (ea : Quad) (n : Nat) :
    (CanonicalBytes s (linear64 s g ea) n → segCheck s g ea n = .next (linear64 s g ea)) ∧
      (¬ CanonicalBytes s (linear64 s g ea) n → segCheck s g ea n = .fault (segFault g)) := by
  have hiff : ((List.range n).all fun k => canonical s.par.linAddrBits (base64 s g + ea + BitVec.ofNat 64 k)) = true ↔
      CanonicalBytes s (linear64 s g ea) n := by
    simp only [List.all_eq_true, List.mem_range, CanonicalBytes, linear64_eq]
  have hcheck : segCheck s g ea n =
      if (List.range n).all (fun k => canonical s.par.linAddrBits (base64 s g + ea + BitVec.ofNat 64 k)) then
        .next (base64 s g + ea) else .fault (segFault g) := by
    unfold segCheck
    rw [hm]
  rw [hcheck, ← hiff, linear64_eq]
  exact ⟨fun h => if_pos h, fun h => if_neg h⟩

theorem withinLimit_iff (g : Segment) (ea : Quad) (n : Nat) :
    withinLimit g ea n = true ↔ ∀ k, k < n → (ea.toNat + k) % 2 ^ 32 ≤ g.limit.toNat := by
  have hbyte (k : Nat) : (ea + BitVec.ofNat 64 k).toNat % 2 ^ 32 = (ea.toNat + k) % 2 ^ 32 := by
    rw [BitVec.toNat_add, BitVec.toNat_ofNat]
    omega
  simp only [withinLimit, List.all_eq_true, List.mem_range, BitVec.ule, decide_eq_true_eq, BitVec.toNat_setWidth, hbyte]

/-- Settles O38. -/
theorem segmentCheckIn32BitMode : Obligations.SegmentCheckIn32BitMode := by
  intro s g ea n hm ok
  have hok : ((segment s g).readable && !nullSelector (segment s g) && withinLimit (segment s g) ea n) = true ↔ ok := by
    simp only [Bool.and_eq_true, withinLimit_iff, nullSelector, Bool.not_eq_true', decide_eq_false_iff_not, and_assoc]
    rfl
  have hcheck : segCheck s g ea n =
      if (segment s g).readable && !nullSelector (segment s g) && withinLimit (segment s g) ea n then
        .next (low32 ((segment s g).base + ea)) else .fault (segFault g) := by
    unfold segCheck
    rw [hm]
  rw [hcheck, ← segFault_eq]
  refine ⟨fun h => ⟨_, if_pos (hok.2 h), ?_⟩, fun h => if_neg fun h' => h (hok.1 h')⟩
  rw [toNat_low32, BitVec.toNat_add]
  omega

theorem low_bits_eq_zero (lin : Quad) (n : Nat) : lin.extractLsb' 0 n = 0#n ↔ lin.toNat % 2 ^ n = 0 := by
  rw [← BitVec.toNat_inj, BitVec.extractLsb'_toNat, Nat.shiftRight_zero, BitVec.toNat_ofNat, Nat.zero_mod]

/-- R56: the alignment #GP(0) is that of a misaligned SSE operand. -/
theorem misalignedGp_eq_false {rule : AlignRule} {lin : Quad} :
    misalignedGp rule lin = false ↔ (rule = .sse16 → lin.toNat % 16 = 0) := by
  cases rule with
  | sse16 => simp [misalignedGp, low_bits_eq_zero]
  | any | ac8 on => simp [misalignedGp]

/-- R160: the #AC(0) is that of a misaligned MMX operand. -/
theorem misalignedAc_eq_false {rule : AlignRule} {lin : Quad} :
    misalignedAc rule lin = false ↔ (rule = .ac8 true → lin.toNat % 8 = 0) := by
  cases rule with
  | ac8 on => cases on <;> simp [misalignedAc, low_bits_eq_zero]
  | any | sse16 => simp [misalignedAc]

theorem alignChecking_iff (s : State) : alignChecking s = true ↔ AlignCheckOn s := by
  have hcpl : cpl s = 3 ↔ s.cs.selector.extractLsb' 0 2 = 3#2 ∧ s.par.mode ≠ .real := by
    unfold cpl
    cases s.par.mode with
    | m64 | m32 => exact ⟨fun h => ⟨h, by decide⟩, fun h => h.1⟩
    | real => exact ⟨fun h => absurd (show (0 : BitVec 2) = 3 from h) (by decide), fun h => absurd rfl h.2⟩
  simp only [alignChecking, cr0AM, flagAC, Bool.and_eq_true, decide_eq_true_eq, hcpl, and_assoc]
  rfl

/-! ### The bytes of a data read -/

/-- R54: the offset of the first byte of an `n`-byte operand that is fetched. -/
def firstOffset (s : State) (n : Nat) : Nat := if n = 16 ∧ s.par.narrowFetch = .high8 then 8 else 0

theorem fetchedOffsets_eq (s : State) (n : Nat) :
    fetchedOffsets s n = (List.range (n - firstOffset s n)).map (· + firstOffset s n) := by
  unfold fetchedOffsets firstOffset
  split
  · next h => rw [h.1]
  · simp

theorem mem_fetchedOffsets {s : State} {n k : Nat} : k ∈ fetchedOffsets s n ↔ firstOffset s n ≤ k ∧ k < n := by
  rw [fetchedOffsets_eq, List.mem_map]
  constructor
  · rintro ⟨j, hj, rfl⟩
    rw [List.mem_range] at hj
    omega
  · intro h
    exact ⟨k - firstOffset s n, List.mem_range.2 (by omega), by omega⟩

theorem translateAll_map {s : State} {lin : Quad} {f : Nat → Nat} {ks : List Nat}
    (h : ∀ k, k ∈ ks → translate s (addrAdd s lin k) .read = .next (f k)) :
    translateAll s lin ks = .next (ks.map f) := by
  induction ks with
  | nil => rfl
  | cons k ks ih =>
    rw [translateAll, h k List.mem_cons_self, andThen_next,
      ih fun j hj => h j (List.mem_cons_of_mem _ hj), andThen_next, List.map_cons]

/-- R159: the first byte that does not translate decides. -/
theorem translateAll_first_fault {s : State} {lin : Quad} {e : Fault} {before after : List Nat} {k : Nat}
    (h : ∀ j, j ∈ before → ∃ p, translate s (addrAdd s lin j) .read = .next p)
    (hk : translate s (addrAdd s lin k) .read = .fault e) :
    translateAll s lin (before ++ k :: after) = .fault e := by
  induction before with
  | nil => rw [List.nil_append, translateAll, hk, andThen_fault]
  | cons j before ih =>
    obtain ⟨p, hp⟩ := h j List.mem_cons_self
    rw [List.cons_append, translateAll, hp, andThen_next, ih fun i hi => h i (List.mem_cons_of_mem _ hi), andThen_fault]

/-- The fetched offsets before `k`, `k` itself and those after it. -/
theorem fetchedOffsets_split {s : State} {n k : Nat} (h : firstOffset s n ≤ k) (hk : k < n) :
    ∃ before after, fetchedOffsets s n = before ++ k :: after ∧ ∀ j, j ∈ before → firstOffset s n ≤ j ∧ j < k := by
  obtain ⟨d, rfl⟩ := Nat.exists_eq_add_of_le h
  obtain ⟨m, hm⟩ : ∃ m, n - firstOffset s n = d + (m + 1) := ⟨n - firstOffset s n - d - 1, by omega⟩
  refine ⟨(List.range d).map (· + firstOffset s n),
    (((List.range m).map Nat.succ).map (d + ·)).map (· + firstOffset s n), ?_, fun j hj => ?_⟩
  · rw [fetchedOffsets_eq, hm, List.range_add, List.map_append, List.range_succ_eq_map, List.map_cons, List.map_cons,
      Nat.add_zero, Nat.add_comm d (firstOffset s n)]
  · obtain ⟨i, hi, rfl⟩ := List.mem_map.1 hj
    rw [List.mem_range] at hi
    omega

section
variable {s : State} {g : SegReg} {ea lin : Quad} {n : Nat} {rule : AlignRule} (hseg : segCheck s g ea n = .next lin)
  (hgp : rule = .sse16 → lin.toNat % 16 = 0)
include hseg hgp

/-- R72 past the segment and 16-byte alignment checks. -/
theorem memRead_of_segCheck : memRead s g ea n rule =
    andThen (translateAll s lin (fetchedOffsets s n)) fun ps =>
      if misalignedAc rule lin then .fault .ac0
      else if (fetchedOffsets s n).all (fun k => readableAt s (addrAdd s lin k)) then
        .next (leValue (8 * n) (List.replicate (n - (fetchedOffsets s n).length) 0 ++ ps.map (readByte s.mem)))
      else .refused .unreadable := by
  rw [memRead, hseg, andThen_next, misalignedGp_eq_false.2 hgp]
  rfl

/-- R159: the read's page fault is that of the first fetched byte that does not translate. -/
theorem memRead_page_fault {k : Nat} {e : Fault} (hlo : firstOffset s n ≤ k) (hk : k < n)
    (hbefore : ∀ j, firstOffset s n ≤ j → j < k → ∃ p, translate s (addrAdd s lin j) .read = .next p)
    (hfault : translate s (addrAdd s lin k) .read = .fault e) : memRead s g ea n rule = .fault e := by
  obtain ⟨before, after, hsplit, hmem⟩ := fetchedOffsets_split hlo hk
  rw [memRead_of_segCheck hseg hgp, hsplit, translateAll_first_fault (fun j hj => ?_) hfault, andThen_fault]
  exact hbefore j (hmem j hj).1 (hmem j hj).2

/-- R160: #AC(0) where every fetched byte translates. -/
theorem memRead_misalignedAc
    (htrans : ∀ k, firstOffset s n ≤ k → k < n → Translates s (addrAdd s lin k) .read)
    (hac : misalignedAc rule lin = true) : memRead s g ea n rule = .fault .ac0 := by
  obtain ⟨ps, hps⟩ := translateAll_of_translates (lin := lin) (fetchedOffsets s n) fun k hk =>
    htrans k (mem_fetchedOffsets.1 hk).1 (mem_fetchedOffsets.1 hk).2
  rw [memRead_of_segCheck hseg hgp, hps, andThen_next, if_pos hac]

variable (hac : rule = .ac8 true → lin.toNat % 8 = 0)
include hac

/-- R67: a fetched byte outside the readable set refuses a read that raises nothing. -/
theorem memRead_unreadable {j : Nat}
    (htrans : ∀ k, firstOffset s n ≤ k → k < n → Translates s (addrAdd s lin k) .read) (hlo : firstOffset s n ≤ j)
    (hj : j < n) (hread : readableAt s (addrAdd s lin j) = false) : memRead s g ea n rule = .refused .unreadable := by
  obtain ⟨ps, hps⟩ := translateAll_of_translates (lin := lin) (fetchedOffsets s n) fun k hk =>
    htrans k (mem_fetchedOffsets.1 hk).1 (mem_fetchedOffsets.1 hk).2
  have hall : ¬ (fetchedOffsets s n).all (fun k => readableAt s (addrAdd s lin k)) = true := fun h =>
    Bool.false_ne_true (hread.symm.trans (List.all_eq_true.1 h j (mem_fetchedOffsets.2 ⟨hlo, hj⟩)))
  rw [memRead_of_segCheck hseg hgp, hps, andThen_next, misalignedAc_eq_false.2 hac,
    if_neg Bool.false_ne_true, if_neg hall]

/-- R51, R72: a read whose fetched bytes translate and are readable answers them. -/
theorem memRead_bytes {f : Nat → Nat}
    (htrans : ∀ k, firstOffset s n ≤ k → k < n → translate s (addrAdd s lin k) .read = .next (f k))
    (hread : ∀ k, firstOffset s n ≤ k → k < n → readableAt s (addrAdd s lin k) = true) :
    ∃ b, memRead s g ea n rule = .next b ∧
      ∀ k, firstOffset s n ≤ k → k < n → b.extractLsb' (8 * k) 8 = readByte s.mem (f k) := by
  have hps : translateAll s lin (fetchedOffsets s n) = .next ((fetchedOffsets s n).map f) :=
    translateAll_map fun k hk => htrans k (mem_fetchedOffsets.1 hk).1 (mem_fetchedOffsets.1 hk).2
  have hall : (fetchedOffsets s n).all (fun k => readableAt s (addrAdd s lin k)) = true :=
    List.all_eq_true.2 fun k hk => hread k (mem_fetchedOffsets.1 hk).1 (mem_fetchedOffsets.1 hk).2
  rw [memRead_of_segCheck hseg hgp, hps, andThen_next, misalignedAc_eq_false.2 hac,
    if_neg Bool.false_ne_true, if_pos hall]
  refine ⟨_, rfl, fun k hlo hk => ?_⟩
  have hpad : n - (fetchedOffsets s n).length = firstOffset s n := by
    rw [fetchedOffsets_eq, List.length_map, List.length_range]
    omega
  rw [leValue_byte _ _ _ (by omega), hpad, List.getD_append_right _ _ _ _ (by rw [List.length_replicate]; exact hlo),
    List.length_replicate, fetchedOffsets_eq]
  simp only [List.map_map]
  rw [List.getD_eq_getElem _ _ (by simp only [List.length_map, List.length_range]; omega)]
  simp only [List.getElem_map, List.getElem_range, Function.comp_apply, Nat.sub_add_cancel hlo]

/-- The same under the identity translation with every address readable. -/
theorem memRead_ordinary (hmem : OrdinaryMemory s) :
    ∃ b, memRead s g ea n rule = .next b ∧
      ∀ k, firstOffset s n ≤ k → k < n → b.extractLsb' (8 * k) 8 = readByte s.mem (addrAdd s lin k).toNat :=
  memRead_bytes hseg hgp hac (fun _ _ _ => translate_identity hmem.1 _ _) fun _ _ _ => hmem.2 _

end

/-- Settles O39. -/
theorem pageFaultOfAnOperand : Obligations.PageFaultOfAnOperand := by
  intro s g ea lin n rule rows frame hreal htable hseg hgp lo page
  have hframe {j : Nat} (h : page j = .frame (frame j)) : translate s (addrAdd s lin j) .read =
      .next (frame j * 4096 + (addrAdd s lin j).toNat % 4096) := by
    rw [translate_table hreal htable, show findPage _ _ _ _ = _ from h]
  refine ⟨fun k cause hlo hk hbefore hpage => ?_, fun hpages hread hac => ?_⟩
  · refine memRead_page_fault hseg hgp hlo hk (fun j hj hjk => ⟨_, hframe (hbefore j hj hjk)⟩) ?_
    rw [translate_table hreal htable, show findPage _ _ _ _ = _ from hpage]
    simp [pfCode]
  · exact memRead_bytes hseg hgp hac (fun j hlo hj => hframe (hpages j hlo hj)) hread

end Sys2Proof.Machine


namespace Sys2Proof.Machine

open Config Safety

/-! ### Memory operands that read (O30, O31) -/

theorem firstOffset_eq_zero {s : State} {n : Nat} (h : n ≠ 16) : firstOffset s n = 0 := if_neg fun h' => h h'.1

theorem firstOffset_le {s : State} {k : Nat} (h : s.par.narrowFetch = .full ∨ 8 ≤ k) : firstOffset s 16 ≤ k := by
  unfold firstOffset
  split
  · next hn => exact h.resolve_left (by rw [hn.2]; decide)
  · exact Nat.zero_le k

/-- The operands of a memory operand `a` whose segment check answers `lin`, under the identity translation with every
address readable. -/
def OperandsRead (s : State) (a : Mem) (len n : Nat) (lin : Quad) : Prop :=
  ∀ rule, (rule = .sse16 → lin.toNat % 16 = 0) → (rule = .ac8 true → lin.toNat % 8 = 0) →
    ∃ b, memRead s a.seg (effAddr s len a) n rule = .next b ∧
      ∀ k, firstOffset s n ≤ k → k < n → b.extractLsb' (8 * k) 8 = readByte s.mem (addrAdd s lin k).toNat

theorem operandsRead {s : State} (hmem : OrdinaryMemory s) {a : Mem} {len n : Nat} {lin : Quad}
    (hseg : segCheck s a.seg (effAddr s len a) n = .next lin) : OperandsRead s a len n lin :=
  fun _ hgp hac => memRead_ordinary hseg hgp hac hmem

section
variable {s : State} {a : Mem} {len : Nat} {lin : Quad} {addr : Nat → Nat}
  (haddr : ∀ k, (addrAdd s lin k).toNat = addr k)
include haddr

theorem OperandsRead.mm (h : OperandsRead s a len 8 lin) (halign : ¬ AlignCheckOn s ∨ lin.toNat % 8 = 0) :
    ∃ b, srcMm s len (.mem a) = .next b ∧ ∀ k, k < 8 → b.extractLsb' (8 * k) 8 = readByte s.mem (addr k) := by
  obtain ⟨b, hb, hbytes⟩ := h (.ac8 (alignChecking s)) nofun fun hon =>
    halign.resolve_left (not_not.2 ((alignChecking_iff s).1 (AlignRule.ac8.inj hon)))
  refine ⟨b, hb, fun k hk => ?_⟩
  rw [← haddr]
  exact hbytes k (by rw [firstOffset_eq_zero (by decide)]; exact Nat.zero_le k) hk

/-- The 16-byte operands: bytes 0 to 7 only under the full fetch. -/
theorem OperandsRead.xmm (h : OperandsRead s a len 16 lin) {rule : AlignRule} (hrule : ∀ on, rule ≠ .ac8 on)
    (halign : rule = .sse16 → lin.toNat % 16 = 0) :
    ∃ b, memRead s a.seg (effAddr s len a) 16 rule = .next b ∧
      ∀ k, k < 16 → (s.par.narrowFetch = .full ∨ 8 ≤ k) → b.extractLsb' (8 * k) 8 = readByte s.mem (addr k) := by
  obtain ⟨b, hb, hbytes⟩ := h rule halign fun hac => absurd hac (hrule true)
  refine ⟨b, hb, fun k hk hfetched => ?_⟩
  rw [← haddr]
  exact hbytes k (firstOffset_le hfetched) hk

theorem OperandsRead.ymm (h : OperandsRead s a len 32 lin) :
    ∃ b, srcVex256 s len (.mem a) = .next b ∧ ∀ k, k < 32 → b.extractLsb' (8 * k) 8 = readByte s.mem (addr k) := by
  obtain ⟨b, hb, hbytes⟩ := h .any nofun nofun
  refine ⟨b, hb, fun k hk => ?_⟩
  rw [← haddr]
  exact hbytes k (by rw [firstOffset_eq_zero (by decide)]; exact Nat.zero_le k) hk

end

/-- Settles O30: the segment check answers `linear64`. -/
theorem memoryOperandsIn64BitMode : Obligations.MemoryOperandsIn64BitMode := by
  intro s a len hm hmem lin byteAt
  have hread {n : Nat} (h : CanonicalBytes s lin n) : OperandsRead s a len n lin :=
    operandsRead hmem ((segCheck_m64 hm _ _ _).1 h)
  have haddr (k : Nat) : (addrAdd s lin k).toNat = (lin + BitVec.ofNat 64 k).toNat := by rw [addrAdd_m64 hm]
  exact ⟨fun h halign => (hread h).mm haddr halign, fun h halign => (hread h).xmm haddr nofun fun _ => halign,
    fun h => (hread h).xmm haddr nofun nofun, fun h => (hread h).ymm haddr⟩

/-- Settles O31: the segment check answers base plus offset modulo 2^32 (`segmentCheckIn32BitMode`). -/
theorem memoryOperandsIn32BitMode : Obligations.MemoryOperandsIn32BitMode := by
  intro s a len hm hmem hreadable hselector ea within addr
  have hread {n : Nat} (h : within n) :
      ∃ lin, OperandsRead s a len n lin ∧ lin.toNat = addr 0 ∧ ∀ k, (addrAdd s lin k).toNat = addr k := by
    obtain ⟨lin, hseg, hlin⟩ :=
      (segmentCheckIn32BitMode s a.seg (effAddr s len a) n hm).1 ⟨hreadable, hselector, h⟩
    refine ⟨lin, operandsRead hmem hseg, hlin, fun k => ?_⟩
    rw [addrAdd_low (by rw [hm]; decide), toNat_low32, BitVec.toNat_add, BitVec.toNat_ofNat, hlin]
    simp only [addr, ea]
    omega
  refine ⟨fun h halign => ?_, fun h halign => ?_, fun h => ?_, fun h => ?_⟩
  · obtain ⟨lin, hlin, hzero, haddr⟩ := hread h
    exact hlin.mm haddr (hzero ▸ halign)
  · obtain ⟨lin, hlin, hzero, haddr⟩ := hread h
    exact hlin.xmm haddr nofun fun _ => hzero ▸ halign
  · obtain ⟨lin, hlin, -, haddr⟩ := hread h
    exact hlin.xmm haddr nofun nofun
  · obtain ⟨lin, hlin, -, haddr⟩ := hread h
    exact hlin.ymm haddr

/-! ### Operands that stop their form (O35 to O37, O40) -/

section
variable {s : State} {len : Nat} {o : Res State}

theorem mmxForms_stop (hen : MmxEnabled s) {src : Src MmReg} {r : Res Quad} (hsrc : srcMm s len src = r)
    (hr : ∀ f, andThen r f = o) (d : MmReg) :
    exec (.punpckhbwMm d src len) s = o ∧ exec (.punpckhwdMm d src len) s = o ∧
      exec (.punpckhdqMm d src len) s = o := by
  have form (w : Nat) : stepMmx w d src len s = o := by
    rw [stepMmx_of_gate (gateMmx_of_enabled hen), hsrc, hr]
  exact ⟨form 8, form 16, form 32⟩

theorem sseForms_stop (hen : SseEnabled s) {src : Src XmmReg} {r : Res Xword} (hsrc : srcSse s len src = r)
    (hr : ∀ f, andThen r f = o) (d : XmmReg) :
    exec (.punpckhbwXmm d src len) s = o ∧ exec (.punpckhwdXmm d src len) s = o ∧
      exec (.punpckhdqXmm d src len) s = o ∧ exec (.punpckhqdqXmm d src len) s = o := by
  have form (w : Nat) : stepSse w d src len s = o := by
    rw [stepSse_of_gate (gateSse_of_enabled hen), hsrc, hr]
  exact ⟨form 8, form 16, form 32, form 64⟩

theorem vex128Forms_stop (hhas : s.par.hasAVX = true) (hen : VexEnabled s) {src : Src XmmReg} {r : Res Xword}
    (hsrc : srcVex128 s len src = r) (hr : ∀ f, andThen r f = o) (d x : XmmReg) :
    exec (.vpunpckhbwXmm d x src len) s = o ∧ exec (.vpunpckhwdXmm d x src len) s = o ∧
      exec (.vpunpckhdqXmm d x src len) s = o ∧ exec (.vpunpckhqdqXmm d x src len) s = o := by
  have form (w : Nat) : stepVex128 w d x src len s = o := by
    rw [stepVex128_of_gate (gateVex128_of_enabled hhas hen), hsrc, hr]
  exact ⟨form 8, form 16, form 32, form 64⟩

theorem vex256Forms_stop (hhas : s.par.hasAVX2 = true) (hen : VexEnabled s) {src : Src XmmReg} {r : Res Yword}
    (hsrc : srcVex256 s len src = r) (hr : ∀ f, andThen r f = o) (d x : XmmReg) :
    exec (.vpunpckhbwYmm d x src len) s = o ∧ exec (.vpunpckhwdYmm d x src len) s = o ∧
      exec (.vpunpckhdqYmm d x src len) s = o ∧ exec (.vpunpckhqdqYmm d x src len) s = o := by
  have form (w : Nat) : stepVex256 w d x src len s = o := by
    rw [stepVex256_of_gate (gateVex256_of_enabled hhas hen), hsrc, hr]
  exact ⟨form 8, form 16, form 32, form 64⟩

end

/-- Settles O35. -/
theorem sseMisalignedOperandFaults : Obligations.SseMisalignedOperandFaults := by
  intro s d a len lin hen hseg halign
  have hgp : misalignedGp .sse16 lin = true :=
    decide_eq_true fun h => halign ((low_bits_eq_zero lin 4).1 h)
  have hsrc : srcSse s len (.mem a) = .fault .gp0 := by
    simp only [srcSse, memRead, hseg, andThen_next, hgp, if_true]
  exact sseForms_stop hen hsrc (fun _ => rfl) d

/-- Settles O36. -/
theorem alignmentCheckFaults : Obligations.AlignmentCheckFaults := by
  intro s d a len lin hen hon hseg htrans halign
  have hac : misalignedAc (.ac8 (alignChecking s)) lin = true := by
    rw [(alignChecking_iff s).2 hon]
    exact decide_eq_true fun h => halign ((low_bits_eq_zero lin 3).1 h)
  have hsrc : srcMm s len (.mem a) = .fault .ac0 := memRead_misalignedAc hseg nofun (fun k _ hk => htrans k hk) hac
  exact mmxForms_stop hen hsrc (fun _ => rfl) d

theorem memRead_of_segFault {s : State} {g : SegReg} {ea : Quad} {n : Nat} {e : Fault}
    (h : segCheck s g ea n = .fault e) (rule : AlignRule) : memRead s g ea n rule = .fault e := by
  rw [memRead, h, andThen_fault]

/-- Settles O37: the segment check of 64-bit mode comes first in every operand. -/
theorem nonCanonicalOperandFaults : Obligations.NonCanonicalOperandFaults := by
  intro s m d x a len hm lin e
  have hread {n : Nat} (h : ¬ CanonicalBytes s lin n) (rule : AlignRule) :
      memRead s a.seg (effAddr s len a) n rule = .fault e := by
    refine memRead_of_segFault ?_ rule
    rw [(segCheck_m64 hm _ _ _).2 h, segFault_eq]
  exact ⟨fun hen h => mmxForms_stop hen (src := .mem a) (hread h _) (fun _ => rfl) m,
    fun hen h => sseForms_stop hen (src := .mem a) (hread h _) (fun _ => rfl) d,
    fun hhas hen h => vex128Forms_stop hhas hen (src := .mem a) (hread h _) (fun _ => rfl) d x,
    fun hhas hen h => vex256Forms_stop hhas hen (src := .mem a) (hread h _) (fun _ => rfl) d x⟩

/-- Settles O40. -/
theorem operandStopsAreTheFormsStops : Obligations.OperandStopsAreTheFormsStops := by
  intro s m d x a len
  exact ⟨fun hen => ⟨fun e h => mmxForms_stop hen h (fun _ => rfl) m, fun r h => mmxForms_stop hen h (fun _ => rfl) m⟩,
    fun hen => ⟨fun e h => sseForms_stop hen h (fun _ => rfl) d, fun r h => sseForms_stop hen h (fun _ => rfl) d⟩,
    fun hhas hen => ⟨fun e h => vex128Forms_stop hhas hen h (fun _ => rfl) d x,
      fun r h => vex128Forms_stop hhas hen h (fun _ => rfl) d x⟩,
    fun hhas hen => ⟨fun e h => vex256Forms_stop hhas hen h (fun _ => rfl) d x,
      fun r h => vex256Forms_stop hhas hen h (fun _ => rfl) d x⟩,
    fun g ea lin n j rule hseg hgp hac htrans hlo hj hread =>
      memRead_unreadable hseg hgp hac htrans hlo hj hread⟩

/-! ### The exceptions of each form (O41, O60) -/

theorem gateNm_fault {ud : Bool} {s : State} {e : Fault} (h : gateNm ud s = .fault e) : e = .ud ∨ e = .nm := by
  rcases gateNm_cases ud s with ⟨-, hg⟩ | ⟨-, -, hg⟩ | ⟨-, -, hg⟩
  · rw [hg] at h; cases h; exact .inl rfl
  · rw [hg] at h; cases h; exact .inr rfl
  · rw [hg] at h; cases h

theorem gateMmx_fault {s : State} {e : Fault} (h : gateMmx s = .fault e) : e = .ud ∨ e = .nm ∨ e = .mf := by
  rcases (andThen_eq_fault _ _ _).1 h with h | ⟨-, -, h⟩
  · exact (gateNm_fault h).imp_right .inl
  · rcases gateMf_cases s with ⟨-, -, hg⟩ | ⟨-, -, hg⟩ | ⟨-, hg⟩
    · rw [hg] at h; cases h; exact .inr (.inr rfl)
    · rw [hg] at h; cases h
    · rw [hg] at h; cases h

/-- A form faults at its gate or at its operand. -/
theorem form_fault {α : Type} {gate : Res Unit} {operand : Res α} {done : α → State} {e : Fault}
    (h : andThen gate (fun _ => andThen operand fun b => .next (done b)) = .fault e) :
    gate = .fault e ∨ operand = .fault e := by
  rcases (andThen_eq_fault _ _ _).1 h with h | ⟨-, -, h⟩
  · exact .inl h
  · rcases (andThen_eq_fault _ _ _).1 h with h | ⟨b, -, h⟩
    · exact .inr h
    · cases h

/-- The read of the instruction's memory operand raises `e`; under the alignment rule of #AC in an MMX form only. -/
def OperandFaults (i : Instr) (s : State) (e : Fault) : Prop :=
  ∃ a n rule, (fieldsOf i).src = .mem a ∧ ((fieldsOf i).kind ≠ .mmx → rule ≠ .ac8 true) ∧
    memRead s a.seg (effAddr s (fieldsOf i).len a) n rule = .fault e

/-- R151: an exception of an instruction is its gate's, or that of the read of its memory operand. -/
theorem exec_fault {i : Instr} {s : State} {e : Fault} (h : exec i s = .fault e) :
    e = .ud ∨ e = .nm ∨ (e = .mf ∧ (fieldsOf i).kind = .mmx) ∨ OperandFaults i s e := by
  have gate {p : Prop} (hg : e = .ud ∨ e = .nm) : e = .ud ∨ e = .nm ∨ p := hg.imp_right .inl
  cases formOf i with
  | @mmx w d src hkind hsrc _ hexec =>
    rcases form_fault (hexec ▸ h : stepMmx w d src _ s = _) with h | h
    · exact (gateMmx_fault h).imp_right (.imp_right fun he => .inl ⟨he, hkind⟩)
    · cases src with
      | reg r => cases h
      | mem a => exact .inr (.inr (.inr ⟨a, 8, _, hsrc, fun hk => absurd hkind hk, h⟩))
  | @sse w d src _ hsrc _ hexec =>
    rcases form_fault (hexec ▸ h : stepSse w d src _ s = _) with h | h
    · exact gate (gateNm_fault h)
    · cases src with
      | reg r => cases h
      | mem a => exact .inr (.inr (.inr ⟨a, 16, .sse16, hsrc, fun _ => by decide, h⟩))
  | @vex128 w d x src _ hsrc _ hexec =>
    rcases form_fault (hexec ▸ h : stepVex128 w d x src _ s = _) with h | h
    · exact gate (gateNm_fault h)
    · cases src with
      | reg r => cases h
      | mem a => exact .inr (.inr (.inr ⟨a, 16, .any, hsrc, fun _ => by decide, h⟩))
  | @vex256 w d x src _ hsrc _ hexec =>
    rcases form_fault (hexec ▸ h : stepVex256 w d x src _ s = _) with h | h
    · exact gate (gateNm_fault h)
    · cases src with
      | reg r => cases h
      | mem a => exact .inr (.inr (.inr ⟨a, 32, .any, hsrc, fun _ => by decide, h⟩))

/-- The exceptions a data read can raise. -/
theorem memRead_fault {s : State} {g : SegReg} {ea : Quad} {n : Nat} {rule : AlignRule} {e : Fault}
    (h : memRead s g ea n rule = .fault e) :
    e = .gp0 ∨ (g = .ss ∧ e = .ss0) ∨ (∃ code a, e = .pf code a) ∨ (rule = .ac8 true ∧ e = .ac0) := by
  rcases memRead_cases s g ea n rule with ⟨v, hr⟩ | hr | ⟨hg, hr⟩ | ⟨code, a, hr⟩ | ⟨hrule, hr⟩ | hr
  · rw [hr] at h; cases h
  · rw [hr] at h; cases h; exact .inl rfl
  · rw [hr] at h; cases h; exact .inr (.inl ⟨hg, rfl⟩)
  · rw [hr] at h; cases h; exact .inr (.inr (.inl ⟨code, a, rfl⟩))
  · rw [hr] at h; cases h; exact .inr (.inr (.inr ⟨hrule, rfl⟩))
  · rw [hr] at h; cases h

/-- Settles O41. -/
theorem faultsOfEachForm : Obligations.FaultsOfEachForm := by
  intro i s e h
  rcases exec_fault h with rfl | rfl | ⟨rfl, hkind⟩ | ⟨a, n, rule, hsrc, hrule, hread⟩
  · exact ⟨fun _ => by decide, fun _ => .inl rfl, nofun⟩
  · exact ⟨fun _ => by decide, fun _ => .inr (.inl rfl), nofun⟩
  · exact ⟨fun hk => absurd hkind hk, fun _ => .inr (.inr rfl), nofun⟩
  · have hreg : ¬ ∃ r, (fieldsOf i).src = .reg r := by
      rintro ⟨r, hr⟩
      rw [hsrc] at hr
      cases hr
    rcases memRead_fault hread with rfl | ⟨hg, rfl⟩ | ⟨code, b, rfl⟩ | ⟨hac, rfl⟩
    · exact ⟨fun _ => by decide, fun hr => absurd hr hreg, nofun⟩
    · exact ⟨fun _ => by decide, fun hr => absurd hr hreg, fun _ => ⟨a, hsrc, hg⟩⟩
    · exact ⟨fun _ => ⟨nofun, nofun⟩, fun hr => absurd hr hreg, nofun⟩
    · exact ⟨fun hk => absurd hac (hrule hk), fun hr => absurd hr hreg, nofun⟩

/-- R64: the code of a page fault of a data access. -/
theorem translate_read_fault {s : State} {lin a : Quad} {code : BitVec 32}
    (h : translate s lin .read = .fault (.pf code a)) :
    ∃ cause, code = pfCode cause (decide (cpl s = 3)) false := by
  by_cases hreal : s.par.mode = .real
  · simp [translate, hreal] at h
  · cases hp : s.par.paging with
    | identity => rw [translate_identity hp] at h; cases h
    | table rows =>
      rw [translate_table hreal hp] at h
      split at h
      · cases h
      · next cause _ => cases h; exact ⟨cause, rfl⟩

theorem translateAll_fault {s : State} {lin : Quad} {ks : List Nat} {e : Fault} (h : translateAll s lin ks = .fault e) :
    ∃ k, translate s (addrAdd s lin k) .read = .fault e := by
  induction ks with
  | nil => cases h
  | cons k ks ih =>
    rcases (andThen_eq_fault _ _ _).1 h with h | ⟨p, -, h⟩
    · exact ⟨k, h⟩
    · rcases (andThen_eq_fault _ _ _).1 h with h | ⟨ps, -, h⟩
      · exact ih h
      · cases h

theorem memRead_pf {s : State} {g : SegReg} {ea a : Quad} {n : Nat} {rule : AlignRule} {code : BitVec 32}
    (h : memRead s g ea n rule = .fault (.pf code a)) : ∃ cause, code = pfCode cause (decide (cpl s = 3)) false := by
  rcases (andThen_eq_fault _ _ _).1 h with h | ⟨lin, -, h⟩
  · rcases segCheck_cases s g ea n with ⟨lin, hc⟩ | hc | ⟨-, hc⟩ <;> rw [hc] at h <;> cases h
  · split at h
    · cases h
    · rcases (andThen_eq_fault _ _ _).1 h with h | ⟨ps, -, h⟩
      · obtain ⟨k, hk⟩ := translateAll_fault h
        exact translate_read_fault hk
      · split at h
        · cases h
        · split at h <;> cases h

/-- Bits 1, 2 and 4 of the code of a data access. -/
theorem pfCode_bits (cause : BitVec 32) (user : Bool) :
    pfCode cause user false &&& 0x12 = 0 ∧ (pfCode cause user false).getLsbD 2 = user := by
  constructor
  · cases user <;> simp [pfCode, BitVec.and_or_distrib_right, BitVec.and_assoc]
  · cases user <;> simp [pfCode]

/-- Settles O60. -/
theorem exceptionVectorsAndCodes : Obligations.ExceptionVectorsAndCodes := by
  refine ⟨fun e => ?_, fun e => ?_, fun e he => ?_, fun i s code a h => ?_⟩
  · cases e <;> rfl
  · cases e <;> simp [faultErrorCode]
  · rcases he with rfl | rfl | rfl <;> rfl
  · rcases exec_fault h with hud | hnm | ⟨hmf, -⟩ | ⟨b, n, rule, -, -, hread⟩
    · cases hud
    · cases hnm
    · cases hmf
    · obtain ⟨cause, rfl⟩ := memRead_pf hread
      obtain ⟨hclear, huser⟩ := pfCode_bits cause (decide (cpl s = 3))
      exact ⟨hclear, by rw [huser, decide_eq_true_eq], rfl, rfl⟩

end Sys2Proof.Machine


/-! ## NarrowFetch (O55), reset and INIT (O51, O57 to O59) -/

namespace Sys2Proof.Machine

open Config Safety

/-- The state with only the upper 8 bytes of a 128-bit operand fetched (R54). -/
def narrow (s : State) : State := { s with par := { s.par with narrowFetch := .high8 } }

theorem sameMemory_narrow (s : State) : SameMemory s (narrow s) :=
  ⟨rfl, rfl, rfl, rfl, rfl, rfl, rfl, fun g => by cases g <;> rfl, rfl⟩

theorem finishMmx_narrow (s : State) (d : MmReg) (v : Quad) (len : Nat) :
    finishMmx (narrow s) d v len = narrow (finishMmx s d v len) := by
  rw [finishMmx_eq, finishMmx_eq]
  rfl

theorem fetchedOffsets_narrow (s : State) {n : Nat} (hn : n ≠ 16) :
    fetchedOffsets (narrow s) n = fetchedOffsets s n := by
  rw [fetchedOffsets_eq, fetchedOffsets_eq, firstOffset_eq_zero hn, firstOffset_eq_zero hn]

theorem alignChecking_narrow (s : State) : alignChecking (narrow s) = alignChecking s := rfl

theorem srcMm_narrow (s : State) (len : Nat) (src : Src MmReg) : srcMm (narrow s) len src = srcMm s len src := by
  cases src with
  | reg r => rfl
  | mem a =>
    have hsame := sameMemory_narrow s
    rw [srcMm, srcMm, hsame.effAddr, alignChecking_narrow]
    exact hsame.memRead _ _ (fetchedOffsets_narrow s (by decide)) _

theorem srcVex256_narrow (s : State) (len : Nat) (src : Src XmmReg) :
    srcVex256 (narrow s) len src = srcVex256 s len src := by
  cases src with
  | reg r => rfl
  | mem a =>
    have hsame := sameMemory_narrow s
    rw [srcVex256, srcVex256, hsame.effAddr]
    exact hsame.memRead _ _ (fetchedOffsets_narrow s (by decide)) _

/-- Bytes that translate together do one by one. -/
theorem translate_of_translateAll {s : State} {lin : Quad} {ks ps : List Nat} (h : translateAll s lin ks = .next ps) :
    ∃ f : Nat → Nat, ∀ k, k ∈ ks → translate s (addrAdd s lin k) .read = .next (f k) := by
  have each : ∀ k, ∃ p, k ∈ ks → translate s (addrAdd s lin k) .read = .next p := by
    induction ks generalizing ps with
    | nil => exact fun k => ⟨0, nofun⟩
    | cons j ks ih =>
      obtain ⟨p, hp, h⟩ := (andThen_eq_next _ _ _).1 h
      obtain ⟨ps, hps, -⟩ := (andThen_eq_next _ _ _).1 h
      intro k
      by_cases hk : k = j
      · exact ⟨p, fun _ => hk ▸ hp⟩
      · obtain ⟨q, hq⟩ := ih hps k
        exact ⟨q, fun hmem => hq ((List.mem_cons.1 hmem).resolve_left hk)⟩
  exact ⟨fun k => (each k).choose, fun k => (each k).choose_spec⟩

/-- Vectors with the same bytes 8 to 15 have the same upper half. -/
theorem upper_half_of_bytes {b b' : Xword}
    (h : ∀ k, 8 ≤ k → k < 16 → b'.extractLsb' (8 * k) 8 = b.extractLsb' (8 * k) 8) :
    b'.extractLsb' 64 64 = b.extractLsb' 64 64 := by
  apply BitVec.eq_of_getLsbD_eq
  intro p hp
  have hbit := congrArg (·.getLsbD (p % 8)) (h (8 + p / 8) (by omega) (by omega))
  have hlt : p % 8 < 8 := Nat.mod_lt p (by decide)
  have hpos : 8 * (8 + p / 8) + p % 8 = 64 + p := by omega
  simp only [BitVec.getLsbD_extractLsb', hlt, decide_true, Bool.true_and, hpos] at hbit
  rw [BitVec.getLsbD_extractLsb', BitVec.getLsbD_extractLsb', hbit]

/-- R54, R127: a 16-byte read under the full fetch completes under the narrow one, with the same upper half. -/
theorem memRead_narrow {s : State} (hfull : s.par.narrowFetch = .full) {g : SegReg} {ea : Quad} {rule : AlignRule}
    {b : BitVec (8 * 16)} (h : memRead s g ea 16 rule = .next b) :
    ∃ b', memRead (narrow s) g ea 16 rule = .next b' ∧
      BitVec.extractLsb' 64 64 (b' : Xword) = BitVec.extractLsb' 64 64 (b : Xword) := by
  obtain ⟨lin, ps, hseg, hgp, hps, hac, hread, -⟩ := memRead_next.1 h
  obtain ⟨f, hf⟩ := translate_of_translateAll hps
  rw [misalignedGp_eq_false] at hgp
  rw [misalignedAc_eq_false] at hac
  have hsame := sameMemory_narrow s
  have hfirst : firstOffset s 16 = 0 := if_neg fun hn => by rw [hfull] at hn; exact absurd hn.2 (by decide)
  have hfetched {k : Nat} (hk : k < 16) : k ∈ fetchedOffsets s 16 :=
    mem_fetchedOffsets.2 ⟨hfirst ▸ Nat.zero_le k, hk⟩
  have hread' {k : Nat} (hk : k < 16) : readableAt s (addrAdd s lin k) = true :=
    List.all_eq_true.1 hread k (hfetched hk)
  obtain ⟨c, hc, hbytes⟩ := memRead_bytes hseg hgp hac (fun k _ hk => hf k (hfetched hk)) fun k _ hk => hread' hk
  obtain ⟨b', hb', hbytes'⟩ := memRead_bytes (s := narrow s) ((hsame.segCheck ..).trans hseg) hgp hac
    (fun k _ hk => by rw [hsame.addrAdd, hsame.translate]; exact hf k (hfetched hk))
    fun k _ hk => by rw [hsame.addrAdd, hsame.readableAt]; exact hread' hk
  obtain rfl : c = b := Host.Outcome.next.inj (hc.symm.trans h)
  refine ⟨b', hb', upper_half_of_bytes fun k hlo hk => ?_⟩
  exact (hbytes' k hlo hk).trans (hbytes k (hfirst ▸ Nat.zero_le k) hk).symm

section
variable {s : State} (hfull : s.par.narrowFetch = .full) {len : Nat} {src : Src XmmReg} {b : Xword}
include hfull

theorem srcSse_narrow (h : srcSse s len src = .next b) :
    ∃ b', srcSse (narrow s) len src = .next b' ∧ b'.extractLsb' 64 64 = b.extractLsb' 64 64 := by
  cases src with
  | reg r => exact ⟨b, h, rfl⟩
  | mem a =>
    rw [srcSse, (sameMemory_narrow s).effAddr]
    exact memRead_narrow hfull h

theorem srcVex128_narrow (h : srcVex128 s len src = .next b) :
    ∃ b', srcVex128 (narrow s) len src = .next b' ∧ b'.extractLsb' 64 64 = b.extractLsb' 64 64 := by
  cases src with
  | reg r => exact ⟨b, h, rfl⟩
  | mem a =>
    rw [srcVex128, (sameMemory_narrow s).effAddr]
    exact memRead_narrow hfull h

end

theorem high128_congr {w : Nat} (hw : 2 * w ∣ 128) (a : Xword) {b b' : Xword}
    (h : b'.extractLsb' 64 64 = b.extractLsb' 64 64) : high128 w a b' = high128 w a b :=
  interleaveHigh_congr_lane (by decide) hw rfl h

/-- Settles O55: only the 128-bit operands differ, in halves that no result depends on (`high128_congr`). -/
theorem narrowFetchGivesTheSameResult : Obligations.NarrowFetchGivesTheSameResult := by
  intro i s t hfull h
  show exec i (narrow s) = .next (narrow t)
  cases formOf i with
  | mmx _ _ _ hexec =>
    rw [hexec, stepMmx_next] at h ⊢
    obtain ⟨hg, b, hb, rfl⟩ := h
    exact ⟨hg, b, (srcMm_narrow ..).trans hb, (finishMmx_narrow ..).symm⟩
  | sse _ _ hw hexec =>
    rw [hexec, stepSse_next] at h ⊢
    obtain ⟨hg, b, hb, rfl⟩ := h
    obtain ⟨b', hb', hhigh⟩ := srcSse_narrow hfull hb
    refine ⟨hg, b', hb', ?_⟩
    rw [high128_congr hw _ hhigh]
    rfl
  | vex128 _ _ hw hexec =>
    rw [hexec, stepVex128_next] at h ⊢
    obtain ⟨hg, b, hb, rfl⟩ := h
    obtain ⟨b', hb', hhigh⟩ := srcVex128_narrow hfull hb
    refine ⟨hg, b', hb', ?_⟩
    rw [high128_congr hw _ hhigh]
    rfl
  | vex256 _ _ _ hexec =>
    rw [hexec, stepVex256_next] at h ⊢
    obtain ⟨hg, b, hb, rfl⟩ := h
    exact ⟨hg, b, (srcVex256_narrow ..).trans hb, rfl⟩

/-! ### Reset and INIT -/

/-- Settles O51. -/
theorem resetMeetsTheInvariant : Obligations.ResetMeetsTheInvariant := ⟨reset_mem_wf, fun _ => by decide⟩

/-- R41: the segment registers other than CS after reset. -/
theorem segment_reset {g : SegReg} (h : g ≠ .cs) : segment State.reset g = Segment.atReset := by
  cases g with
  | cs => exact absurd rfl h
  | es | ss | ds | fs | gs => rfl

/-- Settles O57. -/
theorem resetValues : Obligations.ResetValues := by
  refine ⟨rfl, rfl, rfl, fun n _ _ => ?_, rfl, rfl, rfl, rfl, rfl, rfl, rfl, rfl, rfl, rfl, rfl, rfl, rfl, rfl, rfl,
    rfl, fun g hg => ?_⟩
  · exact Vector.getElem_replicate _
  · rw [segment_reset hg]
    exact ⟨rfl, rfl, rfl⟩

/-- R41: of CR0 INIT sets bit 4, leaves CD and NW, and clears the rest. -/
theorem afterInit_cr0_bit (s : State) {n : Nat} (hn : n < 64) :
    (afterInit s).cr0.getLsbD n = (decide (n = 4) || (decide (n = 29 ∨ n = 30) && s.cr0.getLsbD n)) := by
  have hset : ∀ n < 64, (0x10 : Quad).getLsbD n = decide (n = 4) := by decide
  have hkept : ∀ n < 64, (0x60000000 : Quad).getLsbD n = decide (n = 29 ∨ n = 30) := by decide
  rw [afterInit, BitVec.getLsbD_or, BitVec.getLsbD_and, hset n hn, hkept n hn, Bool.or_comm,
    Bool.and_comm (s.cr0.getLsbD n)]

/-- Settles O59. -/
theorem initValues : Obligations.InitValues := by
  intro s
  refine ⟨rfl, rfl, rfl, rfl, rfl, rfl, rfl, rfl, rfl, fun n _ => ?_, rfl, rfl, fun n hn => afterInit_cr0_bit s hn,
    rfl, rfl, rfl, rfl, rfl, rfl, rfl, rfl, fun g hg => ?_⟩
  · exact Vector.getElem_replicate _
  · have hseg : segment (afterInit s) g = segment State.reset g := by cases g <;> rfl
    rw [hseg, segment_reset hg]
    exact ⟨rfl, rfl, rfl⟩

/-- Settles O58: reset leaves CR4 zero, and CR0.EM, CR0.TS and ES. -/
theorem consequencesOfReset : Obligations.ConsequencesOfReset := by
  rintro s ⟨hcr0, hcr4, -, hstatus, hpar⟩
  have hsse : udSse s = true := by simp [udSse, cr4OSFXSR, hcr4, State.reset]
  have hvex (has : Bool) : udVex has s = true := by simp [udVex, cr4OSXSAVE, hcr4, State.reset]
  have hmmx : MmxEnabled s := by
    rw [MmxEnabled, hcr0, hstatus, hpar]
    decide
  refine ⟨fun i hk => ?_, fun i r hk hsrc => ?_⟩
  · cases formOf i with
    | mmx hkind => exact absurd hkind hk
    | sse _ _ _ hexec => rw [hexec, stepSse, gateSse, gateNm_ud s hsse, andThen_fault]
    | vex128 _ _ _ hexec => rw [hexec, stepVex128, gateVex128, gateNm_ud s (hvex _), andThen_fault]
    | vex256 _ _ _ hexec => rw [hexec, stepVex256, gateVex256, gateNm_ud s (hvex _), andThen_fault]
  · cases formOf i with
    | @mmx w d src _ hsrc' _ hexec =>
      cases src with
      | reg q => exact ⟨_, by rw [hexec, stepMmx_of_gate (gateMmx_of_enabled hmmx)]; rfl⟩
      | mem a => rw [hsrc'] at hsrc; cases hsrc
    | sse hkind | vex128 hkind | vex256 hkind => rw [hk] at hkind; cases hkind

end Sys2Proof.Machine
